-- ==== Sys2Proof/Word.lean ====
section
/-! DEFINITION. The value types of the core (spec/00_scope.md R7, R8): 32-bit words, bytes,
halfwords, 64-bit double patterns, and the two kinds of register number. -/

namespace Sys2Proof

/-- A 32-bit pattern "with two views", unsigned (`toNat`) and signed two's complement (`toInt`)
(00_scope.md R8). -/
abbrev Word := BitVec 32

/-- One byte, the unit of the address space (20_memory.md R50). -/
abbrev Byte := BitVec 8

/-- A 16-bit halfword (20_memory.md R51). -/
abbrev Half := BitVec 16

/-- The 64-bit pattern of an IEEE-754 binary64 value (44_fp_coprocessor.md R250). -/
abbrev Double := BitVec 64

/-- The number of a general register, `x[0..31]` (10_state.md R20). -/
abbrev Reg := Fin 32

/-- The number of a floating-point slot, `f[0..31]` (10_state.md R25); where an instruction names a
double, the lower slot of its pair (R26). -/
abbrev Slot := Fin 32

end Sys2Proof
end

