-- ==== Sys2Proof/Syntax.lean ====
section
/-! DEFINITION. The decoded instruction (spec/30_encoding.md R102): one constructor for each of the
91 rows of the opcode table (R90), its fields in the order of the assembler form (R100). Register
numbers are `Fin 32`; immediates, offsets, the jump index and the trap codes are the raw bit
fields; shift amounts and the position and size of `ext` are numbers (R89), bounded by
`Instr.wellFormed`. -/

namespace Sys2Proof

inductive Instr
  -- Integer unit (41_alu.md)
  | add (rd rs rt : Reg)
  | addu (rd rs rt : Reg)
  | sub (rd rs rt : Reg)
  | subu (rd rs rt : Reg)
  | addi (rt rs : Reg) (imm : BitVec 16)
  | addiu (rt rs : Reg) (imm : BitVec 16)
  | slt (rd rs rt : Reg)
  | sltu (rd rs rt : Reg)
  | slti (rt rs : Reg) (imm : BitVec 16)
  | sltiu (rt rs : Reg) (imm : BitVec 16)
  | and (rd rs rt : Reg)
  | or (rd rs rt : Reg)
  | xor (rd rs rt : Reg)
  | nor (rd rs rt : Reg)
  | andi (rt rs : Reg) (imm : BitVec 16)
  | ori (rt rs : Reg) (imm : BitVec 16)
  | xori (rt rs : Reg) (imm : BitVec 16)
  | lui (rt : Reg) (imm : BitVec 16)
  | sll (rd rt : Reg) (shamt : Nat)
  | srl (rd rt : Reg) (shamt : Nat)
  | sra (rd rt : Reg) (shamt : Nat)
  | sllv (rd rt rs : Reg)
  | srlv (rd rt rs : Reg)
  | srav (rd rt rs : Reg)
  | mult (rs rt : Reg)
  | multu (rs rt : Reg)
  | div (rs rt : Reg)
  | divu (rs rt : Reg)
  | mfhi (rd : Reg)
  | mthi (rs : Reg)
  | mflo (rd : Reg)
  | mtlo (rs : Reg)
  | seb (rd rt : Reg)
  | seh (rd rt : Reg)
  | ext (rt rs : Reg) (pos size : Nat)
  | movz (rd rs rt : Reg)
  | movn (rd rs rt : Reg)
  | movf (rd rs : Reg)
  | movt (rd rs : Reg)
  -- Load/store unit (42_load_store.md)
  | lb (rt base : Reg) (offset : BitVec 16)
  | lbu (rt base : Reg) (offset : BitVec 16)
  | lh (rt base : Reg) (offset : BitVec 16)
  | lhu (rt base : Reg) (offset : BitVec 16)
  | lw (rt base : Reg) (offset : BitVec 16)
  | sb (rt base : Reg) (offset : BitVec 16)
  | sh (rt base : Reg) (offset : BitVec 16)
  | sw (rt base : Reg) (offset : BitVec 16)
  | lwl (rt base : Reg) (offset : BitVec 16)
  | lwr (rt base : Reg) (offset : BitVec 16)
  | swl (rt base : Reg) (offset : BitVec 16)
  | swr (rt base : Reg) (offset : BitVec 16)
  | ll (rt base : Reg) (offset : BitVec 16)
  | sc (rt base : Reg) (offset : BitVec 16)
  | ldc1 (ft : Slot) (base : Reg) (offset : BitVec 16)
  | sdc1 (ft : Slot) (base : Reg) (offset : BitVec 16)
  | ldxc1 (fd : Slot) (idx base : Reg)
  | sdxc1 (fs : Slot) (idx base : Reg)
  -- Branch/jump controller (43_control_flow.md)
  | j (index : BitVec 26)
  | jal (index : BitVec 26)
  | jr (rs : Reg)
  | jalr (rd rs : Reg)
  | beq (rs rt : Reg) (offset : BitVec 16)
  | bne (rs rt : Reg) (offset : BitVec 16)
  | blez (rs : Reg) (offset : BitVec 16)
  | bgtz (rs : Reg) (offset : BitVec 16)
  | bltz (rs : Reg) (offset : BitVec 16)
  | bgez (rs : Reg) (offset : BitVec 16)
  | bltzal (rs : Reg) (offset : BitVec 16)
  | bgezal (rs : Reg) (offset : BitVec 16)
  | bc1f (offset : BitVec 16)
  | bc1t (offset : BitVec 16)
  | bc1fl (offset : BitVec 16)
  | bc1tl (offset : BitVec 16)
  -- Floating-point coprocessor (44_fp_coprocessor.md)
  | addD (fd fs ft : Slot)
  | subD (fd fs ft : Slot)
  | mulD (fd fs ft : Slot)
  | divD (fd fs ft : Slot)
  | negD (fd fs : Slot)
  | movD (fd fs : Slot)
  | cvtDW (fd fs : Slot)
  | truncWD (fd fs : Slot)
  | cEqD (fs ft : Slot)
  | cOltD (fs ft : Slot)
  | cUnD (fs ft : Slot)
  | mfc1 (rt : Reg) (fs : Slot)
  | mtc1 (rt : Reg) (fs : Slot)
  | mfhc1 (rt : Reg) (fs : Slot)
  | mthc1 (rt : Reg) (fs : Slot)
  -- Syscall/trap router (45_trap_syscall.md)
  | syscall (code : BitVec 20)
  | teq (rs rt : Reg) (code : BitVec 10)
  | brk (code : BitVec 20)
  deriving DecidableEq, Repr

end Sys2Proof
end

