-- ==== Sys2Proof/WellFormed.lean ====
section
/-! DEFINITION. Which decoded instructions stand for a word (spec/30_encoding.md R89, R102): every
field is an unsigned integer of its field's width. Register numbers and raw bit fields carry that
bound in their type; what is left to check is the shift amount (0 to 31) and the position (0 to 31)
and size (1 to 32) of `ext`. A field that runs past bit 31 (`pos + size > 32`) IS well formed: R164
gives it an effect. -/

namespace Sys2Proof

/-- "`shamt` (0 to 31)" (30_encoding.md R89). -/
def shamtOk (shamt : Nat) : Bool := decide (shamt < 32)

/-- "`size = msbd + 1` (1 to 32), `pos = lsb` (0 to 31)" (30_encoding.md R89). -/
def extFieldOk (pos size : Nat) : Bool := decide (pos < 32 ∧ 1 ≤ size ∧ size ≤ 32)

/-- The instruction is one that some word encodes. -/
def Instr.wellFormed : Instr → Bool
  | .sll _ _ shamt => shamtOk shamt
  | .srl _ _ shamt => shamtOk shamt
  | .sra _ _ shamt => shamtOk shamt
  | .ext _ _ pos size => extFieldOk pos size
  | .add _ _ _ | .addu _ _ _ | .sub _ _ _ | .subu _ _ _ | .addi _ _ _ | .addiu _ _ _ => true
  | .slt _ _ _ | .sltu _ _ _ | .slti _ _ _ | .sltiu _ _ _ => true
  | .and _ _ _ | .or _ _ _ | .xor _ _ _ | .nor _ _ _ => true
  | .andi _ _ _ | .ori _ _ _ | .xori _ _ _ | .lui _ _ => true
  | .sllv _ _ _ | .srlv _ _ _ | .srav _ _ _ => true
  | .mult _ _ | .multu _ _ | .div _ _ | .divu _ _ => true
  | .mfhi _ | .mthi _ | .mflo _ | .mtlo _ | .seb _ _ | .seh _ _ => true
  | .movz _ _ _ | .movn _ _ _ | .movf _ _ | .movt _ _ => true
  | .lb _ _ _ | .lbu _ _ _ | .lh _ _ _ | .lhu _ _ _ | .lw _ _ _ => true
  | .sb _ _ _ | .sh _ _ _ | .sw _ _ _ => true
  | .lwl _ _ _ | .lwr _ _ _ | .swl _ _ _ | .swr _ _ _ | .ll _ _ _ | .sc _ _ _ => true
  | .ldc1 _ _ _ | .sdc1 _ _ _ | .ldxc1 _ _ _ | .sdxc1 _ _ _ => true
  | .j _ | .jal _ | .jr _ | .jalr _ _ | .beq _ _ _ | .bne _ _ _ => true
  | .blez _ _ | .bgtz _ _ | .bltz _ _ | .bgez _ _ | .bltzal _ _ | .bgezal _ _ => true
  | .bc1f _ | .bc1t _ | .bc1fl _ | .bc1tl _ => true
  | .addD _ _ _ | .subD _ _ _ | .mulD _ _ _ | .divD _ _ _ => true
  | .negD _ _ | .movD _ _ | .cvtDW _ _ | .truncWD _ _ => true
  | .cEqD _ _ | .cOltD _ _ | .cUnD _ _ => true
  | .mfc1 _ _ | .mtc1 _ _ | .mfhc1 _ _ | .mthc1 _ _ => true
  | .syscall _ | .teq _ _ _ | .brk _ => true

end Sys2Proof
end

