-- ==== Sys2Proof/Decode.lean ====
section
/-! DEFINITION. The decoder (spec/30_encoding.md R95) over the opcode table of R90, total on every
word and every byte list, and after it the encoder written from the formats R81 to R88. Every bit
position and opcode number is MIPS32 Release 2, which the spec adopts from general knowledge
(R90, 92_eei_decisions.md D5). -/

namespace Sys2Proof

/-! ### Field extraction -/

/-- The 5-bit register field whose lowest bit is `lo`. -/
def regAt (w : Word) (lo : Nat) : Fin 32 := (w.extractLsb' lo 5).toFin

/-- The 5-bit number field (`shamt`, `lsb`, `msbd`) whose lowest bit is `lo`. -/
def fieldAt (w : Word) (lo : Nat) : Nat := (w.extractLsb' lo 5).toNat

/-- `imm` or `offset`, bits 15:0 (R82). -/
def immAt (w : Word) : BitVec 16 := w.extractLsb' 0 16

/-- `index`, bits 25:0 (R83). -/
def indexAt (w : Word) : BitVec 26 := w.extractLsb' 0 26

/-- `code` of `syscall` and `break`, bits 25:6 (R88). -/
def trapCodeAt (w : Word) : BitVec 20 := w.extractLsb' 6 20

/-- `code` of `teq`, bits 15:6 (R88). -/
def teqCodeAt (w : Word) : BitVec 10 := w.extractLsb' 6 10

/-! ### The opcode table -/

/-- One row of R90: the mnemonic, the mask and match columns, and the instruction with the row's
fields read off a word. -/
structure Row where
  mnemonic : String
  mask : Word
  pattern : Word
  build : Word → Instr

/-- "A word `w` is instruction `m` iff `w & mask(m) = match(m)`" (R90). -/
def Row.hits (r : Row) (w : Word) : Bool := w &&& r.mask == r.pattern

/-- Rows of 41_alu.md (30_encoding.md R90). -/
def integerRows : List Row := [
  ⟨"add", 0xFC0007FF#32, 0x00000020#32, fun w => .add (regAt w 11) (regAt w 21) (regAt w 16)⟩,
  ⟨"addu", 0xFC0007FF#32, 0x00000021#32, fun w => .addu (regAt w 11) (regAt w 21) (regAt w 16)⟩,
  ⟨"sub", 0xFC0007FF#32, 0x00000022#32, fun w => .sub (regAt w 11) (regAt w 21) (regAt w 16)⟩,
  ⟨"subu", 0xFC0007FF#32, 0x00000023#32, fun w => .subu (regAt w 11) (regAt w 21) (regAt w 16)⟩,
  ⟨"addi", 0xFC000000#32, 0x20000000#32, fun w => .addi (regAt w 16) (regAt w 21) (immAt w)⟩,
  ⟨"addiu", 0xFC000000#32, 0x24000000#32, fun w => .addiu (regAt w 16) (regAt w 21) (immAt w)⟩,
  ⟨"slt", 0xFC0007FF#32, 0x0000002A#32, fun w => .slt (regAt w 11) (regAt w 21) (regAt w 16)⟩,
  ⟨"sltu", 0xFC0007FF#32, 0x0000002B#32, fun w => .sltu (regAt w 11) (regAt w 21) (regAt w 16)⟩,
  ⟨"slti", 0xFC000000#32, 0x28000000#32, fun w => .slti (regAt w 16) (regAt w 21) (immAt w)⟩,
  ⟨"sltiu", 0xFC000000#32, 0x2C000000#32, fun w => .sltiu (regAt w 16) (regAt w 21) (immAt w)⟩,
  ⟨"and", 0xFC0007FF#32, 0x00000024#32, fun w => .and (regAt w 11) (regAt w 21) (regAt w 16)⟩,
  ⟨"or", 0xFC0007FF#32, 0x00000025#32, fun w => .or (regAt w 11) (regAt w 21) (regAt w 16)⟩,
  ⟨"xor", 0xFC0007FF#32, 0x00000026#32, fun w => .xor (regAt w 11) (regAt w 21) (regAt w 16)⟩,
  ⟨"nor", 0xFC0007FF#32, 0x00000027#32, fun w => .nor (regAt w 11) (regAt w 21) (regAt w 16)⟩,
  ⟨"andi", 0xFC000000#32, 0x30000000#32, fun w => .andi (regAt w 16) (regAt w 21) (immAt w)⟩,
  ⟨"ori", 0xFC000000#32, 0x34000000#32, fun w => .ori (regAt w 16) (regAt w 21) (immAt w)⟩,
  ⟨"xori", 0xFC000000#32, 0x38000000#32, fun w => .xori (regAt w 16) (regAt w 21) (immAt w)⟩,
  ⟨"lui", 0xFFE00000#32, 0x3C000000#32, fun w => .lui (regAt w 16) (immAt w)⟩,
  ⟨"sll", 0xFFE0003F#32, 0x00000000#32, fun w => .sll (regAt w 11) (regAt w 16) (fieldAt w 6)⟩,
  ⟨"srl", 0xFFE0003F#32, 0x00000002#32, fun w => .srl (regAt w 11) (regAt w 16) (fieldAt w 6)⟩,
  ⟨"sra", 0xFFE0003F#32, 0x00000003#32, fun w => .sra (regAt w 11) (regAt w 16) (fieldAt w 6)⟩,
  ⟨"sllv", 0xFC0007FF#32, 0x00000004#32, fun w => .sllv (regAt w 11) (regAt w 16) (regAt w 21)⟩,
  ⟨"srlv", 0xFC0007FF#32, 0x00000006#32, fun w => .srlv (regAt w 11) (regAt w 16) (regAt w 21)⟩,
  ⟨"srav", 0xFC0007FF#32, 0x00000007#32, fun w => .srav (regAt w 11) (regAt w 16) (regAt w 21)⟩,
  ⟨"mult", 0xFC00FFFF#32, 0x00000018#32, fun w => .mult (regAt w 21) (regAt w 16)⟩,
  ⟨"multu", 0xFC00FFFF#32, 0x00000019#32, fun w => .multu (regAt w 21) (regAt w 16)⟩,
  ⟨"div", 0xFC00FFFF#32, 0x0000001A#32, fun w => .div (regAt w 21) (regAt w 16)⟩,
  ⟨"divu", 0xFC00FFFF#32, 0x0000001B#32, fun w => .divu (regAt w 21) (regAt w 16)⟩,
  ⟨"mfhi", 0xFFFF07FF#32, 0x00000010#32, fun w => .mfhi (regAt w 11)⟩,
  ⟨"mthi", 0xFC1FFFFF#32, 0x00000011#32, fun w => .mthi (regAt w 21)⟩,
  ⟨"mflo", 0xFFFF07FF#32, 0x00000012#32, fun w => .mflo (regAt w 11)⟩,
  ⟨"mtlo", 0xFC1FFFFF#32, 0x00000013#32, fun w => .mtlo (regAt w 21)⟩,
  ⟨"seb", 0xFFE007FF#32, 0x7C000420#32, fun w => .seb (regAt w 11) (regAt w 16)⟩,
  ⟨"seh", 0xFFE007FF#32, 0x7C000620#32, fun w => .seh (regAt w 11) (regAt w 16)⟩,
  ⟨"ext", 0xFC00003F#32, 0x7C000000#32, fun w => .ext (regAt w 16) (regAt w 21) (fieldAt w 6) (fieldAt w 11 + 1)⟩,
  ⟨"movz", 0xFC0007FF#32, 0x0000000A#32, fun w => .movz (regAt w 11) (regAt w 21) (regAt w 16)⟩,
  ⟨"movn", 0xFC0007FF#32, 0x0000000B#32, fun w => .movn (regAt w 11) (regAt w 21) (regAt w 16)⟩,
  ⟨"movf", 0xFC1F07FF#32, 0x00000001#32, fun w => .movf (regAt w 11) (regAt w 21)⟩,
  ⟨"movt", 0xFC1F07FF#32, 0x00010001#32, fun w => .movt (regAt w 11) (regAt w 21)⟩]

/-- Rows of 42_load_store.md (30_encoding.md R90). -/
def loadStoreRows : List Row := [
  ⟨"lb", 0xFC000000#32, 0x80000000#32, fun w => .lb (regAt w 16) (regAt w 21) (immAt w)⟩,
  ⟨"lbu", 0xFC000000#32, 0x90000000#32, fun w => .lbu (regAt w 16) (regAt w 21) (immAt w)⟩,
  ⟨"lh", 0xFC000000#32, 0x84000000#32, fun w => .lh (regAt w 16) (regAt w 21) (immAt w)⟩,
  ⟨"lhu", 0xFC000000#32, 0x94000000#32, fun w => .lhu (regAt w 16) (regAt w 21) (immAt w)⟩,
  ⟨"lw", 0xFC000000#32, 0x8C000000#32, fun w => .lw (regAt w 16) (regAt w 21) (immAt w)⟩,
  ⟨"sb", 0xFC000000#32, 0xA0000000#32, fun w => .sb (regAt w 16) (regAt w 21) (immAt w)⟩,
  ⟨"sh", 0xFC000000#32, 0xA4000000#32, fun w => .sh (regAt w 16) (regAt w 21) (immAt w)⟩,
  ⟨"sw", 0xFC000000#32, 0xAC000000#32, fun w => .sw (regAt w 16) (regAt w 21) (immAt w)⟩,
  ⟨"lwl", 0xFC000000#32, 0x88000000#32, fun w => .lwl (regAt w 16) (regAt w 21) (immAt w)⟩,
  ⟨"lwr", 0xFC000000#32, 0x98000000#32, fun w => .lwr (regAt w 16) (regAt w 21) (immAt w)⟩,
  ⟨"swl", 0xFC000000#32, 0xA8000000#32, fun w => .swl (regAt w 16) (regAt w 21) (immAt w)⟩,
  ⟨"swr", 0xFC000000#32, 0xB8000000#32, fun w => .swr (regAt w 16) (regAt w 21) (immAt w)⟩,
  ⟨"ll", 0xFC000000#32, 0xC0000000#32, fun w => .ll (regAt w 16) (regAt w 21) (immAt w)⟩,
  ⟨"sc", 0xFC000000#32, 0xE0000000#32, fun w => .sc (regAt w 16) (regAt w 21) (immAt w)⟩,
  ⟨"ldc1", 0xFC000000#32, 0xD4000000#32, fun w => .ldc1 (regAt w 16) (regAt w 21) (immAt w)⟩,
  ⟨"sdc1", 0xFC000000#32, 0xF4000000#32, fun w => .sdc1 (regAt w 16) (regAt w 21) (immAt w)⟩,
  ⟨"ldxc1", 0xFC00F83F#32, 0x4C000001#32, fun w => .ldxc1 (regAt w 6) (regAt w 16) (regAt w 21)⟩,
  ⟨"sdxc1", 0xFC0007FF#32, 0x4C000009#32, fun w => .sdxc1 (regAt w 11) (regAt w 16) (regAt w 21)⟩]

/-- Rows of 43_control_flow.md (30_encoding.md R90). -/
def controlRows : List Row := [
  ⟨"j", 0xFC000000#32, 0x08000000#32, fun w => .j (indexAt w)⟩,
  ⟨"jal", 0xFC000000#32, 0x0C000000#32, fun w => .jal (indexAt w)⟩,
  ⟨"jr", 0xFC1FFFFF#32, 0x00000008#32, fun w => .jr (regAt w 21)⟩,
  ⟨"jalr", 0xFC1F07FF#32, 0x00000009#32, fun w => .jalr (regAt w 11) (regAt w 21)⟩,
  ⟨"beq", 0xFC000000#32, 0x10000000#32, fun w => .beq (regAt w 21) (regAt w 16) (immAt w)⟩,
  ⟨"bne", 0xFC000000#32, 0x14000000#32, fun w => .bne (regAt w 21) (regAt w 16) (immAt w)⟩,
  ⟨"blez", 0xFC1F0000#32, 0x18000000#32, fun w => .blez (regAt w 21) (immAt w)⟩,
  ⟨"bgtz", 0xFC1F0000#32, 0x1C000000#32, fun w => .bgtz (regAt w 21) (immAt w)⟩,
  ⟨"bltz", 0xFC1F0000#32, 0x04000000#32, fun w => .bltz (regAt w 21) (immAt w)⟩,
  ⟨"bgez", 0xFC1F0000#32, 0x04010000#32, fun w => .bgez (regAt w 21) (immAt w)⟩,
  ⟨"bltzal", 0xFC1F0000#32, 0x04100000#32, fun w => .bltzal (regAt w 21) (immAt w)⟩,
  ⟨"bgezal", 0xFC1F0000#32, 0x04110000#32, fun w => .bgezal (regAt w 21) (immAt w)⟩,
  ⟨"bc1f", 0xFFFF0000#32, 0x45000000#32, fun w => .bc1f (immAt w)⟩,
  ⟨"bc1t", 0xFFFF0000#32, 0x45010000#32, fun w => .bc1t (immAt w)⟩,
  ⟨"bc1fl", 0xFFFF0000#32, 0x45020000#32, fun w => .bc1fl (immAt w)⟩,
  ⟨"bc1tl", 0xFFFF0000#32, 0x45030000#32, fun w => .bc1tl (immAt w)⟩]

/-- Rows of 44_fp_coprocessor.md (30_encoding.md R90). -/
def fpRows : List Row := [
  ⟨"add.d", 0xFFE0003F#32, 0x46200000#32, fun w => .addD (regAt w 6) (regAt w 11) (regAt w 16)⟩,
  ⟨"sub.d", 0xFFE0003F#32, 0x46200001#32, fun w => .subD (regAt w 6) (regAt w 11) (regAt w 16)⟩,
  ⟨"mul.d", 0xFFE0003F#32, 0x46200002#32, fun w => .mulD (regAt w 6) (regAt w 11) (regAt w 16)⟩,
  ⟨"div.d", 0xFFE0003F#32, 0x46200003#32, fun w => .divD (regAt w 6) (regAt w 11) (regAt w 16)⟩,
  ⟨"neg.d", 0xFFFF003F#32, 0x46200007#32, fun w => .negD (regAt w 6) (regAt w 11)⟩,
  ⟨"mov.d", 0xFFFF003F#32, 0x46200006#32, fun w => .movD (regAt w 6) (regAt w 11)⟩,
  ⟨"cvt.d.w", 0xFFFF003F#32, 0x46800021#32, fun w => .cvtDW (regAt w 6) (regAt w 11)⟩,
  ⟨"trunc.w.d", 0xFFFF003F#32, 0x4620000D#32, fun w => .truncWD (regAt w 6) (regAt w 11)⟩,
  ⟨"c.eq.d", 0xFFE007FF#32, 0x46200032#32, fun w => .cEqD (regAt w 11) (regAt w 16)⟩,
  ⟨"c.olt.d", 0xFFE007FF#32, 0x46200034#32, fun w => .cOltD (regAt w 11) (regAt w 16)⟩,
  ⟨"c.un.d", 0xFFE007FF#32, 0x46200031#32, fun w => .cUnD (regAt w 11) (regAt w 16)⟩,
  ⟨"mfc1", 0xFFE007FF#32, 0x44000000#32, fun w => .mfc1 (regAt w 16) (regAt w 11)⟩,
  ⟨"mtc1", 0xFFE007FF#32, 0x44800000#32, fun w => .mtc1 (regAt w 16) (regAt w 11)⟩,
  ⟨"mfhc1", 0xFFE007FF#32, 0x44600000#32, fun w => .mfhc1 (regAt w 16) (regAt w 11)⟩,
  ⟨"mthc1", 0xFFE007FF#32, 0x44E00000#32, fun w => .mthc1 (regAt w 16) (regAt w 11)⟩]

/-- Rows of 45_trap_syscall.md (30_encoding.md R90). -/
def trapRows : List Row := [
  ⟨"syscall", 0xFC00003F#32, 0x0000000C#32, fun w => .syscall (trapCodeAt w)⟩,
  ⟨"teq", 0xFC00003F#32, 0x00000034#32, fun w => .teq (regAt w 21) (regAt w 16) (teqCodeAt w)⟩,
  ⟨"break", 0xFC00003F#32, 0x0000000D#32, fun w => .brk (trapCodeAt w)⟩]

/-- The complete instruction set, 91 rows (R90). -/
def opcodeTable : List Row := integerRows ++ loadStoreRows ++ controlRows ++ fpRows ++ trapRows

/-! ### Decoding -/

/-- The decoding algorithm (R95): scan the rows for the first that matches; `none` is the tag
`reserved`. It looks at the word alone. -/
def decodeWord (w : Word) : Option Instr :=
  match opcodeTable.find? (fun r => r.hits w) with
  | some r => some (r.build w)
  | none => none

/-- Why a byte list holds no instruction. -/
inductive DecodeError
  /-- Fewer than four bytes: an instruction is one 32-bit word (R80). -/
  | truncated
  /-- The word matches no row (R96). -/
  | reserved
  deriving DecidableEq, Repr

/-- The word whose bytes are stored, lowest address first, as `a b c d`: big-endian (R80,
20_memory.md R54). -/
def wordOfBytes (a b c d : Byte) : Word := a ++ b ++ c ++ d

/-- The four bytes of a word as they are stored, lowest address first. -/
def bytesOfWord (w : Word) : List Byte :=
  [w.extractLsb' 24 8, w.extractLsb' 16 8, w.extractLsb' 8 8, w.extractLsb' 0 8]

/-- Decode the first instruction of a byte list; the rest of the list comes back with it. -/
def decode : List Byte → Except DecodeError (Instr × List Byte)
  | a :: b :: c :: d :: rest =>
    match decodeWord (wordOfBytes a b c d) with
    | some i => .ok (i, rest)
    | none => .error .reserved
  | _ => .error .truncated

/-- The word of an instruction given as a number of `nbits` bits, the bits above being 0. -/
def tableWord (nbits w : Nat) : Word := BitVec.ofNat 32 (w % 2 ^ nbits)

/-- The instruction the decoder reads from the word `w` of the opcode table, laid out in memory as
the hardware stores it. -/
def decodeTableWord (nbits w : Nat) : Option Instr :=
  match decode (bytesOfWord (tableWord nbits w)) with
  | .ok (i, _) => some i
  | .error _ => none

/-! ### Encoding: the layouts of the formats -/

/-- A register number as the 5-bit field that names it. -/
def regBits (r : Fin 32) : BitVec 5 := BitVec.ofNat 5 r.val

/-- Formats R, R3, RC, FR, FM and FX: `op` 31:26, three 5-bit fields, the `shamt` position 10:6 and
`funct` 5:0 (R81, R84 to R87). -/
def layoutR (op : BitVec 6) (a b c d : BitVec 5) (funct : BitVec 6) : Word :=
  op ++ a ++ b ++ c ++ d ++ funct

/-- Formats I and FB: `op` 31:26, two 5-bit fields, 16 bits (R82, R87). -/
def layoutI (op : BitVec 6) (a b : BitVec 5) (imm : BitVec 16) : Word := op ++ a ++ b ++ imm

/-- Format J: `op` 31:26, `index` 25:0 (R83). -/
def layoutJ (op : BitVec 6) (index : BitVec 26) : Word := op ++ index

/-- Format C: `code` 25:6, `funct` 5:0 (R88). -/
def layoutC (op : BitVec 6) (code : BitVec 20) (funct : BitVec 6) : Word := op ++ code ++ funct

/-- Format T: `rs` 25:21, `rt` 20:16, `code` 15:6, `funct` 5:0 (R88). -/
def layoutT (op : BitVec 6) (a b : BitVec 5) (code : BitVec 10) (funct : BitVec 6) : Word :=
  op ++ a ++ b ++ code ++ funct

/-- SPECIAL, `op = 0` (R93): `rs`, `rt`, `rd`, `shamt`, `funct`. -/
def special (rs rt rd : Reg) (funct : BitVec 6) : Word :=
  layoutR 0x00#6 (regBits rs) (regBits rt) (regBits rd) 0#5 funct

/-- Format I with `rs` and `rt` registers. -/
def immediate (op : BitVec 6) (rs rt : Fin 32) (imm : BitVec 16) : Word :=
  layoutI op (regBits rs) (regBits rt) imm

/-- COP1 with `fmt` D (0x11) or W (0x14), or an FM transfer (R86): fields 25:21, `ft` or `rt`, `fs`,
`fd`, `funct`. -/
def cop1 (fmt : BitVec 5) (t s d : Fin 32) (funct : BitVec 6) : Word :=
  layoutR 0x11#6 fmt (regBits t) (regBits s) (regBits d) funct

/-- The word of an instruction, from the formats R81 to R88 and the maps R92 to R94. -/
def encode : Instr → Word
  | .add rd rs rt => special rs rt rd 0x20#6
  | .addu rd rs rt => special rs rt rd 0x21#6
  | .sub rd rs rt => special rs rt rd 0x22#6
  | .subu rd rs rt => special rs rt rd 0x23#6
  | .addi rt rs imm => immediate 0x08#6 rs rt imm
  | .addiu rt rs imm => immediate 0x09#6 rs rt imm
  | .slt rd rs rt => special rs rt rd 0x2A#6
  | .sltu rd rs rt => special rs rt rd 0x2B#6
  | .slti rt rs imm => immediate 0x0A#6 rs rt imm
  | .sltiu rt rs imm => immediate 0x0B#6 rs rt imm
  | .and rd rs rt => special rs rt rd 0x24#6
  | .or rd rs rt => special rs rt rd 0x25#6
  | .xor rd rs rt => special rs rt rd 0x26#6
  | .nor rd rs rt => special rs rt rd 0x27#6
  | .andi rt rs imm => immediate 0x0C#6 rs rt imm
  | .ori rt rs imm => immediate 0x0D#6 rs rt imm
  | .xori rt rs imm => immediate 0x0E#6 rs rt imm
  | .lui rt imm => immediate 0x0F#6 0 rt imm
  | .sll rd rt sh => layoutR 0x00#6 0#5 (regBits rt) (regBits rd) (BitVec.ofNat 5 sh) 0x00#6
  | .srl rd rt sh => layoutR 0x00#6 0#5 (regBits rt) (regBits rd) (BitVec.ofNat 5 sh) 0x02#6
  | .sra rd rt sh => layoutR 0x00#6 0#5 (regBits rt) (regBits rd) (BitVec.ofNat 5 sh) 0x03#6
  | .sllv rd rt rs => special rs rt rd 0x04#6
  | .srlv rd rt rs => special rs rt rd 0x06#6
  | .srav rd rt rs => special rs rt rd 0x07#6
  | .mult rs rt => special rs rt 0 0x18#6
  | .multu rs rt => special rs rt 0 0x19#6
  | .div rs rt => special rs rt 0 0x1A#6
  | .divu rs rt => special rs rt 0 0x1B#6
  | .mfhi rd => special 0 0 rd 0x10#6
  | .mthi rs => special rs 0 0 0x11#6
  | .mflo rd => special 0 0 rd 0x12#6
  | .mtlo rs => special rs 0 0 0x13#6
  | .seb rd rt => layoutR 0x1F#6 0#5 (regBits rt) (regBits rd) 0x10#5 0x20#6
  | .seh rd rt => layoutR 0x1F#6 0#5 (regBits rt) (regBits rd) 0x18#5 0x20#6
  | .ext rt rs pos size =>
    layoutR 0x1F#6 (regBits rs) (regBits rt) (BitVec.ofNat 5 (size - 1)) (BitVec.ofNat 5 pos) 0x00#6
  | .movz rd rs rt => special rs rt rd 0x0A#6
  | .movn rd rs rt => special rs rt rd 0x0B#6
  | .movf rd rs => layoutR 0x00#6 (regBits rs) 0x00#5 (regBits rd) 0#5 0x01#6
  | .movt rd rs => layoutR 0x00#6 (regBits rs) 0x01#5 (regBits rd) 0#5 0x01#6
  | .lb rt base offset => immediate 0x20#6 base rt offset
  | .lbu rt base offset => immediate 0x24#6 base rt offset
  | .lh rt base offset => immediate 0x21#6 base rt offset
  | .lhu rt base offset => immediate 0x25#6 base rt offset
  | .lw rt base offset => immediate 0x23#6 base rt offset
  | .sb rt base offset => immediate 0x28#6 base rt offset
  | .sh rt base offset => immediate 0x29#6 base rt offset
  | .sw rt base offset => immediate 0x2B#6 base rt offset
  | .lwl rt base offset => immediate 0x22#6 base rt offset
  | .lwr rt base offset => immediate 0x26#6 base rt offset
  | .swl rt base offset => immediate 0x2A#6 base rt offset
  | .swr rt base offset => immediate 0x2E#6 base rt offset
  | .ll rt base offset => immediate 0x30#6 base rt offset
  | .sc rt base offset => immediate 0x38#6 base rt offset
  | .ldc1 ft base offset => immediate 0x35#6 base ft offset
  | .sdc1 ft base offset => immediate 0x3D#6 base ft offset
  | .ldxc1 fd idx base => layoutR 0x13#6 (regBits base) (regBits idx) 0#5 (regBits fd) 0x01#6
  | .sdxc1 fs idx base => layoutR 0x13#6 (regBits base) (regBits idx) (regBits fs) 0#5 0x09#6
  | .j index => layoutJ 0x02#6 index
  | .jal index => layoutJ 0x03#6 index
  | .jr rs => special rs 0 0 0x08#6
  | .jalr rd rs => special rs 0 rd 0x09#6
  | .beq rs rt offset => immediate 0x04#6 rs rt offset
  | .bne rs rt offset => immediate 0x05#6 rs rt offset
  | .blez rs offset => immediate 0x06#6 rs 0 offset
  | .bgtz rs offset => immediate 0x07#6 rs 0 offset
  | .bltz rs offset => layoutI 0x01#6 (regBits rs) 0x00#5 offset
  | .bgez rs offset => layoutI 0x01#6 (regBits rs) 0x01#5 offset
  | .bltzal rs offset => layoutI 0x01#6 (regBits rs) 0x10#5 offset
  | .bgezal rs offset => layoutI 0x01#6 (regBits rs) 0x11#5 offset
  | .bc1f offset => layoutI 0x11#6 0x08#5 0b00000#5 offset
  | .bc1t offset => layoutI 0x11#6 0x08#5 0b00001#5 offset
  | .bc1fl offset => layoutI 0x11#6 0x08#5 0b00010#5 offset
  | .bc1tl offset => layoutI 0x11#6 0x08#5 0b00011#5 offset
  | .addD fd fs ft => cop1 0x11#5 ft fs fd 0x00#6
  | .subD fd fs ft => cop1 0x11#5 ft fs fd 0x01#6
  | .mulD fd fs ft => cop1 0x11#5 ft fs fd 0x02#6
  | .divD fd fs ft => cop1 0x11#5 ft fs fd 0x03#6
  | .negD fd fs => cop1 0x11#5 0 fs fd 0x07#6
  | .movD fd fs => cop1 0x11#5 0 fs fd 0x06#6
  | .cvtDW fd fs => cop1 0x14#5 0 fs fd 0x21#6
  | .truncWD fd fs => cop1 0x11#5 0 fs fd 0x0D#6
  | .cEqD fs ft => cop1 0x11#5 ft fs 0 0x32#6
  | .cOltD fs ft => cop1 0x11#5 ft fs 0 0x34#6
  | .cUnD fs ft => cop1 0x11#5 ft fs 0 0x31#6
  | .mfc1 rt fs => cop1 0x00#5 rt fs 0 0x00#6
  | .mtc1 rt fs => cop1 0x04#5 rt fs 0 0x00#6
  | .mfhc1 rt fs => cop1 0x03#5 rt fs 0 0x00#6
  | .mthc1 rt fs => cop1 0x07#5 rt fs 0 0x00#6
  | .syscall code => layoutC 0x00#6 code 0x0C#6
  | .teq rs rt code => layoutT 0x00#6 (regBits rs) (regBits rt) code 0x34#6
  | .brk code => layoutC 0x00#6 code 0x0D#6

/-- The bytes of an instruction as memory holds them, lowest address first. -/
def encodeBytes (i : Instr) : List Byte := bytesOfWord (encode i)

end Sys2Proof
end

