-- ==== Sys2Proof/Config.lean ====
section
/-! DEFINITION. What is fixed for one machine and not changed by a step: the block's parameters
(spec/00_scope.md R7), the numbers the spec fixes by decision (LINK_REG and the syscall registers),
and the free values, which have no body, so that nothing can be proved about their value. -/

namespace Sys2Proof

/-- One stretch of byte addresses that the platform backs: `base` to `base + size - 1`. -/
structure Region where
  base : Nat
  size : Nat
  deriving DecidableEq, Repr

/-- DIV0_POLICY (00_scope.md R7, 41_alu.md R156): `fault` is the spec's default. -/
inductive DivZeroPolicy
  /-- `div` and `divu` by zero raise `DivideByZero`. -/
  | fault
  /-- `div` and `divu` by zero write unconstrained values to `hi` and `lo` and go on. -/
  | draw
  deriving DecidableEq, Repr

/-- The Syscall Bridge's answer to one call (45_trap_syscall.md R281). -/
inductive BridgeReply
  /-- The number is not recognised. -/
  | fail
  /-- The call was served: the value for the result register, and the bytes the host wrote to
  memory, in the order written. -/
  | ok (retval : Word) (writes : List (Word × Byte))
  /-- The host ends the run. -/
  | halt
  deriving DecidableEq, Repr, Inhabited

/-- Which bridge is attached: the uninterpreted one (`Config.bridge`), or one that recognises
exactly the numbers of a finite table and answers `fail` to every other, as the bridges of the
spec's worked examples do (45_trap_syscall.md R280). -/
inductive Bridge
  | external
  | table (known : List (Word × BridgeReply))
  deriving DecidableEq, Repr

/-- "A model takes it as an argument": the parameters of R7 that are OPEN or have a default. They
are launch data; no step changes them. -/
structure Params where
  /-- ENTRY_PC: the `pc` at reset (70_reset_and_hazards.md R321). -/
  entryPc : Word
  /-- MEM_MAP: the addresses the platform backs (20_memory.md R53). -/
  memMap : List Region
  /-- DIV0_POLICY. -/
  divZero : DivZeroPolicy
  /-- IFETCH_COHERENT: does a fetch see stores (20_memory.md R67). -/
  ifetchCoherent : Bool
  /-- The Syscall Bridge parameter (45_trap_syscall.md R281). -/
  bridge : Bridge
  deriving DecidableEq, Repr

/-- The spec's defaults: MEM_MAP all 2^32 bytes, DIV0_POLICY `fault`, IFETCH_COHERENT false. The two
parameters without a default are chosen: ENTRY_PC is the 0x100 of the spec's vectors (DESIGN CHOICE,
unsafe, log entry 1), the bridge is the uninterpreted one (log entry 8). -/
def Params.default : Params where
  entryPc := 0x100#32
  memMap := [⟨0, 4294967296⟩]
  divZero := .fault
  ifetchCoherent := false
  bridge := .external

/-- LINK_REG (00_scope.md R7, 10_state.md R22). -/
def Config.linkReg : Reg := 31

/-- SYS_NUM_REG, the syscall number and result register (00_scope.md R7, 10_state.md R22). -/
def Config.sysNumReg : Reg := 2

/-- SYS_ERR_REG, the syscall error flag register (00_scope.md R7, 10_state.md R22). -/
def Config.sysErrReg : Reg := 7

/-- SYS_FAIL, the failure sentinel (00_scope.md R7). -/
def Config.sysFail : Word := 0xFFFFFFFF#32

/-- What the bridge may look at: "a call takes the number and the current machine state"
(45_trap_syscall.md R281), less `instr_counter`, which "never influences a result" (10_state.md R34). -/
structure BridgeView where
  gpr : Vector Word 32
  fpr : Vector Word 32
  hi : Word
  lo : Word
  cc : Bool
  pc : Word
  npc : Word
  mem : List (Nat × Byte)
  deriving DecidableEq, Repr

/-- The bridge function of R281, left uninterpreted: "the set of recognised numbers and what each
does are the host's". Its first argument is the draw number of the call, so that a host with state of
its own (the time, a file) may answer two like calls differently (log entry 8). -/
opaque Config.bridge : Nat → Word → BridgeView → BridgeReply

/-- The draw `any32` of 00_scope.md R14: a 32-bit value that no rule constrains, one for each value
of the draw counter (log entry 4). -/
opaque Config.any32 : Nat → Word

/-- The unconstrained sign (bit 52) and fraction (bits 51:0) of the draw `anyNaN64` of 00_scope.md
R14, one for each value of the draw counter (log entry 5). -/
opaque Config.anyNaNBits : Nat → BitVec 53

end Sys2Proof
end

