-- ==== Sys2Proof/Machine/State.lean ====
section
/-! DEFINITION. The Processor State (spec/10_state.md), the memory the core reaches through its
ports (20_memory.md R52, R67), the step's outcome (40_scheduler.md R117), and reset
(70_reset_and_hazards.md R320). All of it is plain data. -/

namespace Sys2Proof.Machine

/-- Byte memory: pairs of address and byte, addresses strictly rising, no entry equal to what an
unlisted address reads as (`Memory.unlisted`); `Memory.wf` in Machine/Memory.lean says so. -/
abbrev Memory := List Host.Cell

/-- The closed list of fault reasons (60_exceptions.md R290): labels, not numbers. A fault is fatal,
but its step HAS a next state: halted, the generic step done, nothing written (R300, R301). -/
inductive FaultReason
  /-- `add`, `addi` (R291). -/
  | integerOverflow
  /-- `teq` (R292). -/
  | trapEqual
  /-- `break` (R293). -/
  | brk
  /-- A word that is no instruction, or a double in pair 31 (R294). -/
  | reservedInstruction
  /-- `div`, `divu` under DIV0_POLICY = fault (R295). -/
  | divideByZero
  /-- A misaligned word access or a misaligned fetch address (R296). -/
  | addressError
  deriving DecidableEq, Repr

/-- The outcome of the latest step, "`Continue | Fault(reason)`" (40_scheduler.md R117), the block's
output port (R126). -/
inductive StepOutcome
  | completed
  | fault (reason : FaultReason)
  deriving DecidableEq, Repr

structure State where
  /-- General registers (10_state.md R20). Index 0 is read and written through `State.readGpr` and
  `State.writeGpr` only (R21). -/
  gpr : Vector Word 32
  /-- Floating-point slots (R25). -/
  fpr : Vector Word 32
  /-- Upper accumulator (R29). -/
  hi : Word
  /-- Lower accumulator (R29). -/
  lo : Word
  /-- The floating-point condition flag (R28). -/
  cc : Bool
  /-- Current program counter (R30). -/
  pc : Word
  /-- Next program counter (R30). -/
  npc : Word
  /-- Count of dispatched instructions, unbounded (R34). -/
  instrCounter : Nat
  /-- The machine has stopped (R35). -/
  halted : Bool
  /-- Data memory `M` (20_memory.md R52). -/
  mem : Memory
  /-- The launch memory image, the source of fetch when IFETCH_COHERENT is false (20_memory.md R67,
  70_reset_and_hazards.md R325). No step changes it. -/
  image : Memory
  /-- The addresses written since launch by a store or by the bridge, strictly rising: what R67
  needs to refuse a fetch of a stored-to address. -/
  written : List Nat
  /-- Outcome of the latest step (40_scheduler.md R117). -/
  outcome : StepOutcome
  /-- The fetch address `A` of the latest step, which the outcome carries for the host (R117); no
  instruction reads it. -/
  fetchAddr : Word
  /-- MODEL'S OWN: the draw counter, the number of free values taken so far (00_scope.md R14, log
  entry 4), the bridge's answers among them (log entry 8). -/
  draws : Nat
  /-- The parameters of the block (00_scope.md R7), fixed at launch. -/
  params : Params
  deriving DecidableEq, Repr

/-- Why a step does not exist. These are NOT the spec's fault reasons, whose steps exist. -/
inductive Fault
  /-- Raised by `step` on a halted machine: "When `halted = 1` the machine has no step"
  (40_scheduler.md R122). Safe: no state follows. -/
  | halted
  /-- Raised by a fetch, load or store outside MEM_MAP: "must give such an access no step (the agent
  is stuck), never a value" (20_memory.md R53). Safe: no state follows. -/
  | unmapped
  deriving DecidableEq, Repr

inductive Refusal
  /-- An instruction without a meaning, raised by `exec`; safe. No arm raises it: all 91 have one. -/
  | notModelled (mnemonic : String)
  /-- Raised by a fetch, under IFETCH_COHERENT = false, of a word of which a byte was stored to since
  launch: "a model must refuse such a run, not pick one of the two words" (20_memory.md R67). Safe. -/
  | fetchOfStoredCode
  deriving DecidableEq, Repr

/-- Reset (70_reset_and_hazards.md R320) applied to any state. `fpr` and `cc` are "not written" and
memory "is not touched"; what memory holds at that moment is the launch image of the new run (R325,
log entry 7). -/
def State.applyReset (s : State) : State where
  gpr := Vector.replicate 32 0#32
  fpr := s.fpr
  hi := 0#32
  lo := 0#32
  cc := s.cc
  pc := s.params.entryPc
  npc := s.params.entryPc + 4#32
  instrCounter := 0
  halted := false
  mem := s.mem
  image := s.mem
  written := []
  outcome := .completed
  fetchAddr := s.params.entryPc
  draws := s.draws
  params := s.params

/-- What reset leaves alone, before the first reset: the spec states no value for `fpr` and `cc`
(R323: "an arbitrary value fixed at launch"). DESIGN CHOICE: zero (log entry 2, unsafe), nothing
listed in memory (log entry 3), draw counter 0 (log entry 4), the default parameters (entries 1, 8). -/
def State.powerOn : State where
  gpr := Vector.replicate 32 0#32
  fpr := Vector.replicate 32 0#32
  hi := 0#32
  lo := 0#32
  cc := false
  pc := 0#32
  npc := 0#32
  instrCounter := 0
  halted := true
  mem := []
  image := []
  written := []
  outcome := .completed
  fetchAddr := 0#32
  draws := 0
  params := Params.default

/-- The machine right after reset (R320). -/
def State.reset : State := State.powerOn.applyReset

end Sys2Proof.Machine
end

