-- ==== Sys2Proof/Machine/Memory.lean ====
section
/-! DEFINITION. Byte memory in canonical form (spec/20_memory.md R52) and the canonical set of
written addresses (R67). Keys are addresses as numbers. -/

namespace Sys2Proof.Machine

/-- What an address with no entry reads as. The launch contents are the loader's (70_reset_and_hazards.md
R320, R325); DESIGN CHOICE, unsafe: the fixed byte 0 (log entry 3). -/
def Memory.unlisted : Byte := 0#8

/-- The byte at an address: `M[a]`. -/
def Memory.read : Memory → Nat → Byte
  | [], _ => Memory.unlisted
  | (k, b) :: m, a => if k = a then b else Memory.read m a

/-- `M[a] <- b`, keeping addresses rising and leaving out a byte equal to the unlisted one. -/
def Memory.write : Memory → Nat → Byte → Memory
  | [], a, b => if b = Memory.unlisted then [] else [(a, b)]
  | (k, c) :: m, a, b =>
    if a < k then (if b = Memory.unlisted then (k, c) :: m else (a, b) :: (k, c) :: m)
    else if a = k then (if b = Memory.unlisted then m else (a, b) :: m)
    else (k, c) :: Memory.write m a b

/-- Store a list of bytes from address `a` on, addresses modulo 2^32. -/
def Memory.writeBytes (m : Memory) (a : Word) : List Byte → Memory
  | [] => m
  | b :: rest => Memory.writeBytes (m.write a.toNat b) (a + 1#32) rest

/-- Canonical form from address `lo` on: addresses rise from `lo`, stay inside the 32-bit space
(R50), and no entry holds the unlisted byte. -/
def Memory.wfFrom : Nat → Memory → Bool
  | _, [] => true
  | lo, (k, b) :: m =>
    decide (lo ≤ k) && decide (k < 4294967296) && (b != Memory.unlisted) && Memory.wfFrom (k + 1) m

/-- The canonical form of a memory. -/
def Memory.wf (m : Memory) : Bool := Memory.wfFrom 0 m

/-- Add an address to a strictly rising list of addresses. -/
def addrInsert : List Nat → Nat → List Nat
  | [], a => [a]
  | k :: l, a => if a < k then a :: k :: l else if a = k then k :: l else k :: addrInsert l a

/-- A list of addresses rises strictly from `lo` and stays inside the 32-bit space. -/
def addrsWfFrom : Nat → List Nat → Bool
  | _, [] => true
  | lo, k :: l => decide (lo ≤ k) && decide (k < 4294967296) && addrsWfFrom (k + 1) l

/-- The canonical form of a set of addresses. -/
def addrsWf (l : List Nat) : Bool := addrsWfFrom 0 l

end Sys2Proof.Machine
end

