-- ==== Sys2Proof/Machine/Ops.lean ====
section
/-! DEFINITION. The named operations over the state that the meanings share: register access, the
memory port, free values, the generic step, raising a fault, the fetch port and the Syscall Bridge.
There is no return from a fault in this hardware: "There is no return: no `eret`, no handler"
(spec/60_exceptions.md R302); reset (`State.applyReset`) is the only way out of a halted machine. -/

namespace Sys2Proof.Machine

/-- What a behaviour or a step answers. -/
abbrev Result := Host.Outcome State Fault Refusal

/-! ### Registers (10_state.md) -/

/-- `x[r]`: "register index 0 always reads as zero" (R21). -/
def State.readGpr (s : State) (r : Reg) : Word := if r = 0 then 0#32 else s.gpr[r]

/-- `x[r] <- v`: "writes to index 0 are discarded" (R21). -/
def State.writeGpr (s : State) (r : Reg) (v : Word) : State :=
  if r = 0 then s else { s with gpr := s.gpr.set r v }

/-- `f[n]` (R25). -/
def State.readSlot (s : State) (n : Slot) : Word := s.fpr[n]

/-- `f[n] <- v` (R25): no slot is hardwired. -/
def State.writeSlot (s : State) (n : Slot) (v : Word) : State := { s with fpr := s.fpr.set n v }

/-- Does the pair `(n, n+1)` exist? Pair 31 would need slot 32 (R27). -/
def pairExists (n : Slot) : Bool := decide (n ≠ 31)

/-- `D[n] = f[n+1] ++ f[n]` (R26). Used only where `pairExists n` has been checked. -/
def State.readPair (s : State) (n : Slot) : Double := s.readSlot (n + 1) ++ s.readSlot n

/-- `D[n] <- v`: `f[n+1] <- v[63:32]; f[n] <- v[31:0]` (R26, 44_fp_coprocessor.md R250). Used only
where `pairExists n` has been checked. -/
def State.writePair (s : State) (n : Slot) (v : Double) : State :=
  (s.writeSlot (n + 1) (v.extractLsb' 32 32)).writeSlot n (v.extractLsb' 0 32)

/-- `hi <- h` (R29). -/
def State.writeHi (s : State) (h : Word) : State := { s with hi := h }

/-- `lo <- l` (R29). -/
def State.writeLo (s : State) (l : Word) : State := { s with lo := l }

/-- `cc <- c` (R28). -/
def State.writeCc (s : State) (c : Bool) : State := { s with cc := c }

/-- `npc <- target`: the only way a behaviour redirects control (40_scheduler.md R114). -/
def State.redirect (s : State) (target : Word) : State := { s with npc := target }

/-! ### Free values (00_scope.md R14) -/

/-- Take one free value: the next one is another. -/
def State.draw (s : State) : State := { s with draws := s.draws + 1 }

/-! ### Faults (60_exceptions.md R300, R301) -/

/-- `raise Fault(reason)`: the step's outcome is the fault and the machine halts; nothing is saved,
no mode changes, control goes nowhere (R300), and the behaviour has written nothing (R301). -/
def raise (reason : FaultReason) (s : State) : Result :=
  .next { s with halted := true, outcome := .fault reason }

/-! ### The memory port (20_memory.md) -/

/-- The platform backs this address (R53). -/
def State.mapped (s : State) (a : Word) : Bool :=
  s.params.memMap.any (fun r => decide (r.base ≤ a.toNat) && decide (a.toNat < r.base + r.size))

/-- The platform backs the `n` bytes from `a` on, addresses modulo 2^32 (R52, R53). -/
def State.mappedRange (s : State) (a : Word) (n : Nat) : Bool :=
  (List.range n).all (fun k => s.mapped (a + BitVec.ofNat 32 k))

/-- An access to `n` bytes at `a`: outside MEM_MAP the agent is stuck (R53). -/
def State.access (s : State) (a : Word) (n : Nat) (go : Result) : Result :=
  if s.mappedRange a n then go else .fault .unmapped

/-- `addr[1:0] = 0` (R58). -/
def wordAligned (a : Word) : Bool := a.extractLsb' 0 2 == 0#2

/-- A word access: a misaligned one raises `AddressError` before any port call (R58). -/
def State.wordAccess (s : State) (a : Word) (n : Nat) (go : Result) : Result :=
  if wordAligned a then s.access a n go else raise .addressError s

/-- `addr & 0xFFFFFFFC`, the aligned word around an address (R58). -/
def alignDown (a : Word) : Word := a &&& 0xFFFFFFFC#32

/-- `read_byte` (R51, R52). -/
def State.readByte (s : State) (a : Word) : Byte := s.mem.read a.toNat

/-- `read_half`: `M[a] ++ M[a+1]` (R52), at any address (R57). -/
def State.readHalf (s : State) (a : Word) : Half := s.readByte a ++ s.readByte (a + 1#32)

/-- `read`: `M[a] ++ M[a+1] ++ M[a+2] ++ M[a+3]` (R52). -/
def State.readWord (s : State) (a : Word) : Word :=
  s.readByte a ++ s.readByte (a + 1#32) ++ s.readByte (a + 2#32) ++ s.readByte (a + 3#32)

/-- `write_byte` (R51, R52); the address joins the written ones (R67). -/
def State.writeByte (s : State) (a : Word) (b : Byte) : State :=
  { s with mem := s.mem.write a.toNat b, written := addrInsert s.written a.toNat }

/-- `write_half`, most significant byte first (R52). -/
def State.writeHalf (s : State) (a : Word) (v : Half) : State :=
  (s.writeByte a (v.extractLsb' 8 8)).writeByte (a + 1#32) (v.extractLsb' 0 8)

/-- `write`, most significant byte first (R52). -/
def State.writeWord (s : State) (a : Word) (v : Word) : State :=
  (((s.writeByte a (v.extractLsb' 24 8)).writeByte (a + 1#32) (v.extractLsb' 16 8)).writeByte
    (a + 2#32) (v.extractLsb' 8 8)).writeByte (a + 3#32) (v.extractLsb' 0 8)

/-! ### The step's own operations (40_scheduler.md) -/

/-- What a step does before the behaviour (R111, R112, R116): count the instruction, `pc <- npc`,
`npc <- pc + 4` with the new `pc`; the outcome starts as `Continue` and carries the fetch address
(R117). -/
def State.genericStep (s : State) : State :=
  { s with
    instrCounter := s.instrCounter + 1
    pc := s.npc
    npc := s.npc + 4#32
    outcome := .completed
    fetchAddr := s.pc }

/-- A fault at the fetch: "the only state change is `halted <- 1`" (R118); the outcome carries the
fetch address (R117). -/
def raiseAtFetch (reason : FaultReason) (s : State) : Result :=
  raise reason { s with fetchAddr := s.pc }

/-- Was any byte of the word at `a` stored to since launch? -/
def State.wordWritten (s : State) (a : Word) : Bool :=
  (List.range 4).any (fun k => s.written.contains (a + BitVec.ofNat 32 k).toNat)

/-- The word of the launch image at `a`: "the four bytes `a .. a+3` as loaded" (20_memory.md R67). -/
def State.imageWord (s : State) (a : Word) : Word :=
  s.image.read a.toNat ++ s.image.read (a + 1#32).toNat ++ s.image.read (a + 2#32).toNat ++
    s.image.read (a + 3#32).toNat

/-- `IFetch(a)` (20_memory.md R67). With IFETCH_COHERENT it reads the current memory; without it the
launch image, and a word stored to since launch is refused. -/
def State.fetchWord (s : State) (a : Word) : Host.Outcome Word Fault Refusal :=
  if !s.mappedRange a 4 then .fault .unmapped
  else if s.params.ifetchCoherent then .next (s.readWord a)
  else if s.wordWritten a then .refused .fetchOfStoredCode
  else .next (s.imageWord a)

/-! ### The Syscall Bridge (45_trap_syscall.md R281) -/

/-- The state as the bridge sees it: without the counter (10_state.md R34). -/
def State.bridgeView (s : State) : BridgeView where
  gpr := s.gpr
  fpr := s.fpr
  hi := s.hi
  lo := s.lo
  cc := s.cc
  pc := s.pc
  npc := s.npc
  mem := s.mem

/-- The answer of a finite bridge: "returning a sentinel failure value when the number is
unrecognized" (R281). -/
def tableReply (known : List (Word × BridgeReply)) (number : Word) : BridgeReply :=
  match known.find? (fun entry => entry.1 == number) with
  | some entry => entry.2
  | none => .fail

/-- `process_syscall(number)`. -/
def State.bridgeReply (s : State) (number : Word) : BridgeReply :=
  match s.params.bridge with
  | .external => Config.bridge s.draws number s.bridgeView
  | .table known => tableReply known number

/-- Bytes the bridge writes to memory, in order. Memory has no byte outside MEM_MAP (R52), so a
write there has no effect (DESIGN CHOICE, log entry 9). -/
def State.bridgeWrites (s : State) : List (Word × Byte) → State
  | [] => s
  | (a, b) :: rest =>
    State.bridgeWrites (if s.mapped a then s.writeByte a b else s) rest

end Sys2Proof.Machine
end

