-- ==== Sys2Proof/Machine/Float.lean ====
section
/-! DEFINITION. IEEE-754 binary64 arithmetic (spec/44_fp_coprocessor.md R250 to R253): every finite
pattern is an exact integer number of units of 2^-1074, the operation is computed exactly on
integers, and one function rounds the exact result to nearest, ties to even. -/

namespace Sys2Proof.Machine

/-- Bit 63 (R250). -/
def fSign (v : Double) : Bool := v.getLsbD 63

/-- Bits 62:52, the biased exponent (R250). -/
def fExp (v : Double) : Nat := (v.extractLsb' 52 11).toNat

/-- Bits 51:0, the fraction (R250). -/
def fFrac (v : Double) : Nat := (v.extractLsb' 0 52).toNat

/-- A NaN: exponent bits all ones and a nonzero fraction (00_scope.md R14). -/
def fIsNaN (v : Double) : Bool := fExp v == 2047 && fFrac v != 0

/-- An infinity: exponent bits all ones, fraction zero. -/
def fIsInf (v : Double) : Bool := fExp v == 2047 && fFrac v == 0

/-- The magnitude of a finite pattern in units of 2^-1074, subnormals "used as they are" (R252): the
fraction when the exponent field is 0, else `(2^52 + fraction) * 2^(exponent - 1)`. On an infinity
the same formula gives a number above every finite magnitude, which is how the compares order it. -/
def fMag (v : Double) : Nat :=
  if fExp v = 0 then fFrac v else (2 ^ 52 + fFrac v) * 2 ^ (fExp v - 1)

/-- The signed value of a finite pattern in units of 2^-1074; +0 and -0 are both 0. -/
def fValue (v : Double) : Int := if fSign v then -(fMag v : Int) else (fMag v : Int)

/-- The value 1 in units of 2^-1074, the smallest subnormal. -/
def unitsPerOne : Nat := 2 ^ 1074

/-- The magnitude bits (62:0) of an infinity. -/
def infMag : Nat := 2047 * 2 ^ 52

/-- The quotient of `num / den` rounded to an integer, to nearest, ties to even. -/
def roundDiv (num den : Nat) : Nat :=
  let q := num / den
  let r := num % den
  if den < 2 * r ∨ (2 * r = den ∧ q % 2 = 1) then q + 1 else q

/-- How many low bits of `num / den` (in units of 2^-1074) lie below the 53-bit significand. -/
def roundShift (num den : Nat) : Nat := (num / den).log2 - 52

/-- The magnitude bits (62:0) of the binary64 value nearest to `num / den` units of 2^-1074, ties to
even (R252). With the rounded significand `m` and shift `k` the bits are `k * 2^52 + m`: below 2^52
that is a subnormal, and a significand that rounds up to 2^53 carries into the exponent. "overflow
gives the infinity". -/
def roundMag (num den : Nat) : Nat :=
  let k := roundShift num den
  let bits := k * 2 ^ 52 + roundDiv num (den * 2 ^ k)
  if infMag ≤ bits then infMag else bits

/-- A pattern from its sign and its magnitude bits. -/
def fPack (sign : Bool) (mag : Nat) : Double := BitVec.ofBool sign ++ BitVec.ofNat 63 mag

/-- The result of an arithmetic operation: a pattern, or some NaN that no rule fixes (R253). -/
inductive FResult
  | value (v : Double)
  | anyNaN
  deriving DecidableEq, Repr

/-- `fadd64` (R252 to R254): "`x - x` and `x + (-x)` for finite `x` give +0; the sum of two zeros of
the same sign keeps that sign"; `inf - inf` is invalid. -/
def fAdd (a b : Double) : FResult :=
  if fIsNaN a || fIsNaN b then .anyNaN
  else if fIsInf a then (if fIsInf b && fSign a != fSign b then .anyNaN else .value a)
  else if fIsInf b then .value b
  else
    let x := fValue a + fValue b
    if x = 0 then .value (fPack (fSign a && fSign b) 0)
    else .value (fPack (decide (x < 0)) (roundMag x.natAbs 1))

/-- The sign-bit flip of `neg.d` (R258). -/
def fNeg (v : Double) : Double := v ^^^ 0x8000000000000000#64

/-- `fsub64` (R255): `a - b`. -/
def fSub (a b : Double) : FResult := fAdd a (fNeg b)

/-- `fmul64` (R252, R253, R256); `0 × inf` is invalid. -/
def fMul (a b : Double) : FResult :=
  let sign := fSign a != fSign b
  if fIsNaN a || fIsNaN b then .anyNaN
  else if fIsInf a || fIsInf b then
    (if fMag a = 0 ∨ fMag b = 0 then .anyNaN else .value (fPack sign infMag))
  else .value (fPack sign (roundMag (fMag a * fMag b) unitsPerOne))

/-- `fdiv64` (R252, R253, R257); `0 / 0` and `inf / inf` are invalid, "division of a nonzero finite
value by zero gives the infinity whose sign is the exclusive or of the operand signs". -/
def fDiv (a b : Double) : FResult :=
  let sign := fSign a != fSign b
  if fIsNaN a || fIsNaN b then .anyNaN
  else if fIsInf a then (if fIsInf b then .anyNaN else .value (fPack sign infMag))
  else if fIsInf b then .value (fPack sign 0)
  else if fMag b = 0 then
    (if fMag a = 0 then .anyNaN else .value (fPack sign infMag))
  else .value (fPack sign (roundMag (fMag a * unitsPerOne) (fMag b)))

/-- The binary64 value equal to a signed 32-bit integer (R260); zero converts to +0. -/
def fOfInt32 (w : Word) : Double :=
  fPack (decide (w.toInt < 0)) (roundMag (w.toInt.natAbs * unitsPerOne) 1)

/-- `trunc(v)` as a 32-bit two's complement value, or nothing where R261 leaves the result free: a
NaN, an infinity, or a value outside -2^31 .. 2^31 - 1. -/
def fTruncInt32 (v : Double) : Option Word :=
  let t := (fValue v).tdiv unitsPerOne
  if fIsNaN v || fIsInf v then none
  else if t < -(2 ^ 31) ∨ 2 ^ 31 - 1 < t then none
  else some (BitVec.ofInt 32 t)

/-- The NaN with the sign in bit 52 and the fraction in bits 51:0 of a draw; the zero fraction, which
would be an infinity, stands for the fraction 1, so that every NaN and nothing else is reached
(00_scope.md R14). -/
def nanOf (bits : BitVec 53) : Double :=
  let frac := bits.extractLsb' 0 52
  bits.extractLsb' 52 1 ++ 0x7FF#11 ++ (if frac = 0#52 then 1#52 else frac)

/-- `D[n] <- result`; some NaN is a free value (R253, log entry 5). -/
def State.writeResult (s : State) (n : Slot) : FResult → State
  | .value v => s.writePair n v
  | .anyNaN => (s.writePair n (nanOf (Config.anyNaNBits s.draws))).draw

end Sys2Proof.Machine
end

