-- ==== Sys2Proof/Machine/Flags.lean ====
section
/-! DEFINITION. Every flag and condition the spec computes. The hardware has one flag, `cc`, written
by the three compares (spec/10_state.md R28); signed overflow is a predicate that raises a fault, not
a flag (41_alu.md R129). -/

namespace Sys2Proof.Machine

/-- `overflow(a, b) = (a[31] = b[31]) and (s[31] != a[31])`, `s = a + b` (41_alu.md R129). -/
def addOverflows (a b : Word) : Bool := a.msb == b.msb && (a + b).msb != a.msb

/-- `c.eq.d`: false on a NaN, +0 and -0 equal (44_fp_coprocessor.md R262). -/
def condEq (a b : Double) : Bool :=
  !(fIsNaN a || fIsNaN b) && decide (fValue a = fValue b)

/-- `c.olt.d`: "ordered-less-than treats any NaN operand as \"false\"" (R263). -/
def condOlt (a b : Double) : Bool :=
  !(fIsNaN a || fIsNaN b) && decide (fValue a < fValue b)

/-- `c.un.d`: "unordered compare treats NaN operands as \"true\"" (R264). -/
def condUn (a b : Double) : Bool := fIsNaN a || fIsNaN b

/-- Signed tests against zero, of the branches (43_control_flow.md R241). -/
def isNegative (v : Word) : Bool := decide (v.toInt < 0)

/-- `signed(v) <= 0` (43_control_flow.md R241). -/
def isNonPositive (v : Word) : Bool := decide (v.toInt ≤ 0)

end Sys2Proof.Machine
end

