-- ==== Sys2Proof/Machine/Operands.lean ====
section
/-! DEFINITION. How operands are assembled from the instruction's fields (spec/30_encoding.md R89):
immediates, effective addresses, branch and jump targets, shift amounts, bit fields, the link
destination, the syscall number, and the two- and three-pair checks of the coprocessor. -/

namespace Sys2Proof.Machine

/-- `sext_32(imm)` (R89, 00_scope.md R9). -/
def sext16 (imm : BitVec 16) : Word := imm.signExtend 32

/-- `zext_32(imm)` (R89, 00_scope.md R9). -/
def zext16 (imm : BitVec 16) : Word := imm.setWidth 32

/-- `imm ++ 0^16`, the immediate of `lui` (R89). -/
def upperImm (imm : BitVec 16) : Word := imm ++ 0#16

/-- `x[base] + sext_32(offset)` modulo 2^32 (42_load_store.md R190). -/
def State.effAddr (s : State) (base : Reg) (offset : BitVec 16) : Word :=
  s.readGpr base + sext16 offset

/-- `x[base] + x[idx]` modulo 2^32 (42_load_store.md R190). -/
def State.effAddrIndexed (s : State) (base idx : Reg) : Word := s.readGpr base + s.readGpr idx

/-- `pc + (sext_32(offset) << 2)` (43_control_flow.md R240); `pc` is the value after the generic
step. -/
def branchTarget (pc : Word) (offset : BitVec 16) : Word := pc + (sext16 offset <<< 2)

/-- `(pc & 0xF0000000) | (index << 2)`, that is `pc[31:28] ++ index ++ 00` (43_control_flow.md R222). -/
def jumpTarget (pc : Word) (index : BitVec 26) : Word := pc.extractLsb' 28 4 ++ index ++ 0#2

/-- The return address of every link form, `pc + 4` (43_control_flow.md R221). -/
def State.linkValue (s : State) : Word := s.pc + 4#32

/-- `jalr`'s destination: "defaulting to the fixed link register when the destination field is zero"
(43_control_flow.md R225). -/
def linkDest (rd : Reg) : Reg := if rd = 0 then Config.linkReg else rd

/-- `x[rs][4:0]`, the amount of a variable shift (41_alu.md R151). -/
def shiftAmount (v : Word) : Nat := (v.extractLsb' 0 5).toNat

/-- `zext_32( v[pos+size-1 : pos] )` (41_alu.md R164). -/
def bitField (v : Word) (pos size : Nat) : Word := (v.extractLsb' pos size).setWidth 32

/-- "`code` if `code != 0`, else `x[2]`" (R89, 45_trap_syscall.md R280). -/
def State.syscallNumber (s : State) (code : BitVec 20) : Word :=
  if code = 0#20 then s.readGpr Config.sysNumReg else code.setWidth 32

/-- A double operand or result in pair 31 raises `ReservedInstruction` before any state change
(44_fp_coprocessor.md R251). -/
def State.withPair (s : State) (n : Slot) (go : Result) : Result :=
  if pairExists n then go else raise .reservedInstruction s

/-- The check of R251 for two pairs. -/
def State.withPairs (s : State) (m n : Slot) (go : Result) : Result :=
  s.withPair m (s.withPair n go)

end Sys2Proof.Machine
end

