-- ==== Sys2Proof/Machine/Alu.lean ====
section
/-! DEFINITION. The Integer ALU (spec/41_alu.md): one meaning for each of its 39 instructions. A
meaning runs after the generic step; none here reads `pc` or writes `npc`. -/

namespace Sys2Proof.Machine

/-! ### Shared shapes -/

/-- `x[dst] <- v`, outcome `Continue`. -/
def setReg (dst : Reg) (v : Word) (s : State) : Result := .next (s.writeGpr dst v)

/-- `x[dst] <- a + b` unless the signed sum overflows (R129). -/
def addTrapping (dst : Reg) (a b : Word) (s : State) : Result :=
  if addOverflows a b then raise .integerOverflow s else setReg dst (a + b) s

/-- The result of a set-on-less-than: "the 32-bit value 0 or 1" (R136). -/
def boolWord (b : Bool) : Word := if b then 1#32 else 0#32

/-- `hi <- p[63:32]; lo <- p[31:0]` (R154). -/
def setProduct (p : BitVec 64) (s : State) : Result :=
  .next ((s.writeHi (p.extractLsb' 32 32)).writeLo (p.extractLsb' 0 32))

/-- `lo <- q; hi <- r` (R156). -/
def setQuotient (q r : Word) (s : State) : Result := .next ((s.writeLo q).writeHi r)

/-- Division by zero under DIV0_POLICY (R156): the fault, or two free values, `hi` first. -/
def divideByZero (s : State) : Result :=
  match s.params.divZero with
  | .fault => raise .divideByZero s
  | .draw =>
    .next ((s.writeHi (Config.any32 s.draws)).writeLo (Config.any32 (s.draws + 1))).draw.draw

/-- Copy `v` to `x[dst]` if `c`, else "no side effect" (section 9). -/
def moveIf (c : Bool) (dst : Reg) (v : Word) (s : State) : Result :=
  if c then setReg dst v s else .next s

/-! ### Add and subtract -/

/-- R130. -/
def execAdd (rd rs rt : Reg) (s : State) : Result := addTrapping rd (s.readGpr rs) (s.readGpr rt) s

/-- R131. -/
def execAddu (rd rs rt : Reg) (s : State) : Result := setReg rd (s.readGpr rs + s.readGpr rt) s

/-- R132: "`sub` overflow detection is explicitly out of scope". -/
def execSub (rd rs rt : Reg) (s : State) : Result := setReg rd (s.readGpr rs - s.readGpr rt) s

/-- R133. -/
def execSubu (rd rs rt : Reg) (s : State) : Result := setReg rd (s.readGpr rs - s.readGpr rt) s

/-- R134. -/
def execAddi (rt rs : Reg) (imm : BitVec 16) (s : State) : Result :=
  addTrapping rt (s.readGpr rs) (sext16 imm) s

/-- R135. -/
def execAddiu (rt rs : Reg) (imm : BitVec 16) (s : State) : Result :=
  setReg rt (s.readGpr rs + sext16 imm) s

/-! ### Set on less than -/

/-- R136. -/
def execSlt (rd rs rt : Reg) (s : State) : Result :=
  setReg rd (boolWord ((s.readGpr rs).slt (s.readGpr rt))) s

/-- R137. -/
def execSltu (rd rs rt : Reg) (s : State) : Result :=
  setReg rd (boolWord ((s.readGpr rs).ult (s.readGpr rt))) s

/-- R138. -/
def execSlti (rt rs : Reg) (imm : BitVec 16) (s : State) : Result :=
  setReg rt (boolWord ((s.readGpr rs).slt (sext16 imm))) s

/-- R139: the immediate is sign-extended and then compared unsigned. -/
def execSltiu (rt rs : Reg) (imm : BitVec 16) (s : State) : Result :=
  setReg rt (boolWord ((s.readGpr rs).ult (sext16 imm))) s

/-! ### Bitwise operations -/

/-- R140. -/
def execAnd (rd rs rt : Reg) (s : State) : Result := setReg rd (s.readGpr rs &&& s.readGpr rt) s

/-- R141. -/
def execOr (rd rs rt : Reg) (s : State) : Result := setReg rd (s.readGpr rs ||| s.readGpr rt) s

/-- R142. -/
def execXor (rd rs rt : Reg) (s : State) : Result := setReg rd (s.readGpr rs ^^^ s.readGpr rt) s

/-- R143. -/
def execNor (rd rs rt : Reg) (s : State) : Result :=
  setReg rd (~~~(s.readGpr rs ||| s.readGpr rt)) s

/-- R144. -/
def execAndi (rt rs : Reg) (imm : BitVec 16) (s : State) : Result :=
  setReg rt (s.readGpr rs &&& zext16 imm) s

/-- R145. -/
def execOri (rt rs : Reg) (imm : BitVec 16) (s : State) : Result :=
  setReg rt (s.readGpr rs ||| zext16 imm) s

/-- R146. -/
def execXori (rt rs : Reg) (imm : BitVec 16) (s : State) : Result :=
  setReg rt (s.readGpr rs ^^^ zext16 imm) s

/-- R147. -/
def execLui (rt : Reg) (imm : BitVec 16) (s : State) : Result := setReg rt (upperImm imm) s

/-! ### Shifts -/

/-- R148. -/
def execSll (rd rt : Reg) (shamt : Nat) (s : State) : Result := setReg rd (s.readGpr rt <<< shamt) s

/-- R149. -/
def execSrl (rd rt : Reg) (shamt : Nat) (s : State) : Result := setReg rd (s.readGpr rt >>> shamt) s

/-- R150. -/
def execSra (rd rt : Reg) (shamt : Nat) (s : State) : Result :=
  setReg rd ((s.readGpr rt).sshiftRight shamt) s

/-- R151: only the low 5 bits of `x[rs]` count. -/
def execSllv (rd rt rs : Reg) (s : State) : Result :=
  setReg rd (s.readGpr rt <<< shiftAmount (s.readGpr rs)) s

/-- R152. -/
def execSrlv (rd rt rs : Reg) (s : State) : Result :=
  setReg rd (s.readGpr rt >>> shiftAmount (s.readGpr rs)) s

/-- R153. -/
def execSrav (rd rt rs : Reg) (s : State) : Result :=
  setReg rd ((s.readGpr rt).sshiftRight (shiftAmount (s.readGpr rs))) s

/-! ### Multiply and divide -/

/-- R154: the exact signed product. -/
def execMult (rs rt : Reg) (s : State) : Result :=
  setProduct (BitVec.ofInt 64 ((s.readGpr rs).toInt * (s.readGpr rt).toInt)) s

/-- R155: the exact unsigned product. -/
def execMultu (rs rt : Reg) (s : State) : Result :=
  setProduct (BitVec.ofNat 64 ((s.readGpr rs).toNat * (s.readGpr rt).toNat)) s

/-- R156: quotient truncated toward zero, remainder with the sign of the dividend; the one quotient
that does not fit wraps. -/
def execDiv (rs rt : Reg) (s : State) : Result :=
  let n := (s.readGpr rs).toInt
  let d := (s.readGpr rt).toInt
  if d = 0 then divideByZero s
  else setQuotient (BitVec.ofInt 32 (n.tdiv d)) (BitVec.ofInt 32 (n.tmod d)) s

/-- R157. -/
def execDivu (rs rt : Reg) (s : State) : Result :=
  let n := (s.readGpr rs).toNat
  let d := (s.readGpr rt).toNat
  if d = 0 then divideByZero s
  else setQuotient (BitVec.ofNat 32 (n / d)) (BitVec.ofNat 32 (n % d)) s

/-! ### Moves to and from hi and lo -/

/-- R158. -/
def execMfhi (rd : Reg) (s : State) : Result := setReg rd s.hi s

/-- R159. -/
def execMthi (rs : Reg) (s : State) : Result := .next (s.writeHi (s.readGpr rs))

/-- R160. -/
def execMflo (rd : Reg) (s : State) : Result := setReg rd s.lo s

/-- R161. -/
def execMtlo (rs : Reg) (s : State) : Result := .next (s.writeLo (s.readGpr rs))

/-! ### Sign extension and bit-field extract -/

/-- R162: `sext_32(x[rt][7:0])`. -/
def execSeb (rd rt : Reg) (s : State) : Result :=
  setReg rd (((s.readGpr rt).extractLsb' 0 8).signExtend 32) s

/-- R163: `sext_32(x[rt][15:0])`. -/
def execSeh (rd rt : Reg) (s : State) : Result :=
  setReg rd (((s.readGpr rt).extractLsb' 0 16).signExtend 32) s

/-- R164: a field that runs past bit 31 gives `any32`, a free value (log entry 4). -/
def execExt (rt rs : Reg) (pos size : Nat) (s : State) : Result :=
  if pos + size ≤ 32 then setReg rt (bitField (s.readGpr rs) pos size) s
  else .next (s.writeGpr rt (Config.any32 s.draws)).draw

/-! ### Conditional moves -/

/-- R165. -/
def execMovz (rd rs rt : Reg) (s : State) : Result :=
  moveIf (s.readGpr rt == 0#32) rd (s.readGpr rs) s

/-- R166. -/
def execMovn (rd rs rt : Reg) (s : State) : Result :=
  moveIf (s.readGpr rt != 0#32) rd (s.readGpr rs) s

/-- R167. -/
def execMovf (rd rs : Reg) (s : State) : Result := moveIf (!s.cc) rd (s.readGpr rs) s

/-- R168. -/
def execMovt (rd rs : Reg) (s : State) : Result := moveIf s.cc rd (s.readGpr rs) s

end Sys2Proof.Machine
end

