-- ==== Sys2Proof/Machine/Control.lean ====
section
/-! DEFINITION. The Branch/Jump Controller (spec/43_control_flow.md): one meaning for each of its 16
instructions. They act only by writing `npc` and, for the link forms, one general register (R220);
`s.pc` is the value after the generic step. -/

namespace Sys2Proof.Machine

/-! ### Shared shapes -/

/-- `if c then npc <- target`, the target of R240. -/
def branchIf (c : Bool) (offset : BitVec 16) (s : State) : Result :=
  if c then .next (s.redirect (branchTarget s.pc offset)) else .next s

/-- `x[31] <- pc + 4`, always, and then `if c then npc <- target` (R232). -/
def branchLinkIf (c : Bool) (offset : BitVec 16) (s : State) : Result :=
  branchIf c offset (s.writeGpr Config.linkReg s.linkValue)

/-! ### Jumps -/

/-- R222. -/
def execJ (index : BitVec 26) (s : State) : Result := .next (s.redirect (jumpTarget s.pc index))

/-- R223. -/
def execJal (index : BitVec 26) (s : State) : Result :=
  .next ((s.writeGpr Config.linkReg s.linkValue).redirect (jumpTarget s.pc index))

/-- R224: the target is not checked; a misaligned one faults at its fetch (R238). -/
def execJr (rs : Reg) (s : State) : Result := .next (s.redirect (s.readGpr rs))

/-- R225: the target is read before the link is written. -/
def execJalr (rd rs : Reg) (s : State) : Result :=
  .next ((s.writeGpr (linkDest rd) s.linkValue).redirect (s.readGpr rs))

/-! ### Integer branches -/

/-- R226. -/
def execBeq (rs rt : Reg) (offset : BitVec 16) (s : State) : Result :=
  branchIf (s.readGpr rs == s.readGpr rt) offset s

/-- R227. -/
def execBne (rs rt : Reg) (offset : BitVec 16) (s : State) : Result :=
  branchIf (s.readGpr rs != s.readGpr rt) offset s

/-- R228. -/
def execBlez (rs : Reg) (offset : BitVec 16) (s : State) : Result :=
  branchIf (isNonPositive (s.readGpr rs)) offset s

/-- R229. -/
def execBgtz (rs : Reg) (offset : BitVec 16) (s : State) : Result :=
  branchIf (!isNonPositive (s.readGpr rs)) offset s

/-- R230. -/
def execBltz (rs : Reg) (offset : BitVec 16) (s : State) : Result :=
  branchIf (isNegative (s.readGpr rs)) offset s

/-- R231. -/
def execBgez (rs : Reg) (offset : BitVec 16) (s : State) : Result :=
  branchIf (!isNegative (s.readGpr rs)) offset s

/-- R232: the condition is read before the link write. -/
def execBltzal (rs : Reg) (offset : BitVec 16) (s : State) : Result :=
  branchLinkIf (isNegative (s.readGpr rs)) offset s

/-- R233. -/
def execBgezal (rs : Reg) (offset : BitVec 16) (s : State) : Result :=
  branchLinkIf (!isNegative (s.readGpr rs)) offset s

/-! ### Floating-point branches: the likely forms do not annul (R236) -/

/-- R234. -/
def execBc1f (offset : BitVec 16) (s : State) : Result := branchIf (!s.cc) offset s

/-- R235. -/
def execBc1t (offset : BitVec 16) (s : State) : Result := branchIf s.cc offset s

/-- R236: "exactly rule R234". -/
def execBc1fl (offset : BitVec 16) (s : State) : Result := branchIf (!s.cc) offset s

/-- R237: "exactly rule R235; no annulment". -/
def execBc1tl (offset : BitVec 16) (s : State) : Result := branchIf s.cc offset s

end Sys2Proof.Machine
end

