-- ==== Sys2Proof/Machine/Fp.lean ====
section
/-! DEFINITION. The Floating-Point Coprocessor (spec/44_fp_coprocessor.md): one meaning for each of
its 15 instructions. Source pairs are read in full before any slot is written (R250). -/

namespace Sys2Proof.Machine

/-! ### Shared shapes -/

/-- `D[fd] <- op(D[fs], D[ft])` (R254). -/
def arith (op : Double → Double → FResult) (fd fs ft : Slot) (s : State) : Result :=
  s.withPair fs (s.withPair ft (s.withPair fd
    (.next (s.writeResult fd (op (s.readPair fs) (s.readPair ft))))))

/-- `D[fd] <- op(D[fs])`, a bit operation (R258, R259). -/
def bitOp (op : Double → Double) (fd fs : Slot) (s : State) : Result :=
  s.withPairs fs fd (.next (s.writePair fd (op (s.readPair fs))))

/-- `cc <- cond(D[fs], D[ft])` (R262). -/
def compareD (cond : Double → Double → Bool) (fs ft : Slot) (s : State) : Result :=
  s.withPairs fs ft (.next (s.writeCc (cond (s.readPair fs) (s.readPair ft))))

/-! ### Arithmetic -/

/-- R254. -/
def execAddD (fd fs ft : Slot) (s : State) : Result := arith fAdd fd fs ft s

/-- R255. -/
def execSubD (fd fs ft : Slot) (s : State) : Result := arith fSub fd fs ft s

/-- R256. -/
def execMulD (fd fs ft : Slot) (s : State) : Result := arith fMul fd fs ft s

/-- R257. -/
def execDivD (fd fs ft : Slot) (s : State) : Result := arith fDiv fd fs ft s

/-- R258: "flip the sign bit, nothing else". -/
def execNegD (fd fs : Slot) (s : State) : Result := bitOp fNeg fd fs s

/-- R259: "all 64 bits, unchanged". -/
def execMovD (fd fs : Slot) (s : State) : Result := bitOp id fd fs s

/-! ### Conversions -/

/-- R260: the source is the single slot `f[fs]`. -/
def execCvtDW (fd fs : Slot) (s : State) : Result :=
  s.withPair fd (.next (s.writePair fd (fOfInt32 (s.readSlot fs))))

/-- R261: the result goes to the single slot `f[fd]`; out of range it is `any32` (log entry 4). -/
def execTruncWD (fd fs : Slot) (s : State) : Result :=
  s.withPair fs
    (match fTruncInt32 (s.readPair fs) with
      | some w => .next (s.writeSlot fd w)
      | none => .next (s.writeSlot fd (Config.any32 s.draws)).draw)

/-! ### Compares -/

/-- R262. -/
def execCEqD (fs ft : Slot) (s : State) : Result := compareD condEq fs ft s

/-- R263. -/
def execCOltD (fs ft : Slot) (s : State) : Result := compareD condOlt fs ft s

/-- R264. -/
def execCUnD (fs ft : Slot) (s : State) : Result := compareD condUn fs ft s

/-! ### Transfers -/

/-- R265: any `fs`, 31 included. -/
def execMfc1 (rt : Reg) (fs : Slot) (s : State) : Result := .next (s.writeGpr rt (s.readSlot fs))

/-- R266: slot `fs + 1` is not written. -/
def execMtc1 (rt : Reg) (fs : Slot) (s : State) : Result := .next (s.writeSlot fs (s.readGpr rt))

/-- R267: `D[fs][63:32]`. -/
def execMfhc1 (rt : Reg) (fs : Slot) (s : State) : Result :=
  s.withPair fs (.next (s.writeGpr rt (s.readSlot (fs + 1))))

/-- R268: `f[fs]` unchanged. -/
def execMthc1 (rt : Reg) (fs : Slot) (s : State) : Result :=
  s.withPair fs (.next (s.writeSlot (fs + 1) (s.readGpr rt)))

end Sys2Proof.Machine
end

