-- ==== Sys2Proof/Machine/LoadStore.lean ====
section
/-! DEFINITION. The Load/Store Unit (spec/42_load_store.md): one meaning for each of its 18
instructions. Every check comes before any port call and any state change, the pair-31 check first
(R191). -/

namespace Sys2Proof.Machine

/-! ### Shared shapes -/

/-- A load of `n` bytes at `a` into `x[rt]`, with no alignment requirement. -/
def loadReg (rt : Reg) (a : Word) (n : Nat) (v : Word) (s : State) : Result :=
  s.access a n (.next (s.writeGpr rt v))

/-- An aligned word load into `x[rt]`. -/
def loadWordReg (rt : Reg) (a : Word) (s : State) : Result :=
  s.wordAccess a 4 (.next (s.writeGpr rt (s.readWord a)))

/-- Two aligned word loads, the lower address into slot `n + 1` (R206). -/
def loadPair (n : Slot) (a : Word) (s : State) : Result :=
  s.withPair n (s.wordAccess a 8
    (.next ((s.writeSlot (n + 1) (s.readWord a)).writeSlot n (s.readWord (a + 4#32)))))

/-- Two aligned word stores, slot `n + 1` to the lower address first (R207). -/
def storePair (n : Slot) (a : Word) (s : State) : Result :=
  s.withPair n (s.wordAccess a 8
    (.next ((s.writeWord a (s.readSlot (n + 1))).writeWord (a + 4#32) (s.readSlot n))))

/-- `addr mod 4` (R200). -/
def byteOffset (a : Word) : Nat := (a.extractLsb' 0 2).toNat

/-- The register after `lwl` at offset `k` of the aligned word `w` (R200). -/
def lwlMerge (k : Nat) (w old : Word) : Word :=
  (w <<< (8 * k)) ||| (old &&& BitVec.ofNat 32 (2 ^ (8 * k) - 1))

/-- The register after `lwr` at offset `k` of the aligned word `w` (R201). -/
def lwrMerge (k : Nat) (w old : Word) : Word :=
  (w >>> (8 * (3 - k))) ||| (old &&& (0xFFFFFFFF#32 &&& ~~~(0xFFFFFFFF#32 >>> (8 * (3 - k)))))

/-- The memory word after `swl` of `v` at offset `k` of the aligned word `w` (R202). -/
def swlMerge (k : Nat) (w v : Word) : Word :=
  (v >>> (8 * k)) ||| (w &&& (0xFFFFFFFF#32 &&& ~~~(0xFFFFFFFF#32 >>> (8 * k))))

/-- The memory word after `swr` of `v` at offset `k` of the aligned word `w` (R203). -/
def swrMerge (k : Nat) (w v : Word) : Word :=
  (v <<< (8 * (3 - k))) ||| (w &&& BitVec.ofNat 32 (2 ^ (8 * (3 - k)) - 1))

/-! ### Byte, halfword and word -/

/-- R192. -/
def execLb (rt base : Reg) (offset : BitVec 16) (s : State) : Result :=
  loadReg rt (s.effAddr base offset) 1 ((s.readByte (s.effAddr base offset)).signExtend 32) s

/-- R193. -/
def execLbu (rt base : Reg) (offset : BitVec 16) (s : State) : Result :=
  loadReg rt (s.effAddr base offset) 1 ((s.readByte (s.effAddr base offset)).setWidth 32) s

/-- R194: at any address. -/
def execLh (rt base : Reg) (offset : BitVec 16) (s : State) : Result :=
  loadReg rt (s.effAddr base offset) 2 ((s.readHalf (s.effAddr base offset)).signExtend 32) s

/-- R195. -/
def execLhu (rt base : Reg) (offset : BitVec 16) (s : State) : Result :=
  loadReg rt (s.effAddr base offset) 2 ((s.readHalf (s.effAddr base offset)).setWidth 32) s

/-- R196. -/
def execLw (rt base : Reg) (offset : BitVec 16) (s : State) : Result :=
  loadWordReg rt (s.effAddr base offset) s

/-- R197. -/
def execSb (rt base : Reg) (offset : BitVec 16) (s : State) : Result :=
  s.access (s.effAddr base offset) 1
    (.next (s.writeByte (s.effAddr base offset) ((s.readGpr rt).extractLsb' 0 8)))

/-- R198: at any address. -/
def execSh (rt base : Reg) (offset : BitVec 16) (s : State) : Result :=
  s.access (s.effAddr base offset) 2
    (.next (s.writeHalf (s.effAddr base offset) ((s.readGpr rt).extractLsb' 0 16)))

/-- R199. -/
def execSw (rt base : Reg) (offset : BitVec 16) (s : State) : Result :=
  s.wordAccess (s.effAddr base offset) 4
    (.next (s.writeWord (s.effAddr base offset) (s.readGpr rt)))

/-! ### Unaligned word loads and stores: the port sees the whole aligned word (20_memory.md R59) -/

/-- R200. -/
def execLwl (rt base : Reg) (offset : BitVec 16) (s : State) : Result :=
  let a := s.effAddr base offset
  s.access (alignDown a) 4
    (.next (s.writeGpr rt (lwlMerge (byteOffset a) (s.readWord (alignDown a)) (s.readGpr rt))))

/-- R201. -/
def execLwr (rt base : Reg) (offset : BitVec 16) (s : State) : Result :=
  let a := s.effAddr base offset
  s.access (alignDown a) 4
    (.next (s.writeGpr rt (lwrMerge (byteOffset a) (s.readWord (alignDown a)) (s.readGpr rt))))

/-- R202. -/
def execSwl (rt base : Reg) (offset : BitVec 16) (s : State) : Result :=
  let a := s.effAddr base offset
  s.access (alignDown a) 4
    (.next (s.writeWord (alignDown a)
      (swlMerge (byteOffset a) (s.readWord (alignDown a)) (s.readGpr rt))))

/-- R203. -/
def execSwr (rt base : Reg) (offset : BitVec 16) (s : State) : Result :=
  let a := s.effAddr base offset
  s.access (alignDown a) 4
    (.next (s.writeWord (alignDown a)
      (swrMerge (byteOffset a) (s.readWord (alignDown a)) (s.readGpr rt))))

/-! ### Load-linked and store-conditional: no reservation (R204, R205) -/

/-- R204: "modeled as a plain load". -/
def execLl (rt base : Reg) (offset : BitVec 16) (s : State) : Result :=
  loadWordReg rt (s.effAddr base offset) s

/-- R205: the store, of the value before the instruction, always happens; then `x[rt] <- 1`. -/
def execSc (rt base : Reg) (offset : BitVec 16) (s : State) : Result :=
  s.wordAccess (s.effAddr base offset) 4
    (.next ((s.writeWord (s.effAddr base offset) (s.readGpr rt)).writeGpr rt 1#32))

/-! ### Double-precision loads and stores -/

/-- R206. -/
def execLdc1 (ft : Slot) (base : Reg) (offset : BitVec 16) (s : State) : Result :=
  loadPair ft (s.effAddr base offset) s

/-- R207. -/
def execSdc1 (ft : Slot) (base : Reg) (offset : BitVec 16) (s : State) : Result :=
  storePair ft (s.effAddr base offset) s

/-- R208. -/
def execLdxc1 (fd : Slot) (idx base : Reg) (s : State) : Result :=
  loadPair fd (s.effAddrIndexed base idx) s

/-- R209. -/
def execSdxc1 (fs : Slot) (idx base : Reg) (s : State) : Result :=
  storePair fs (s.effAddrIndexed base idx) s

end Sys2Proof.Machine
end

