-- ==== Sys2Proof/Machine/Trap.lean ====
section
/-! DEFINITION. The Syscall/Trap Router (spec/45_trap_syscall.md): `syscall`, `teq`, `break`, and the
behaviour of the decoder's tag `reserved`. -/

namespace Sys2Proof.Machine

/-- What the core does with the bridge's answer (R280). On `Ok` the bridge's own memory writes happen
inside the call, before the registers are written; on `Halt` no register is written and the outcome
is `Continue`. -/
def State.serveReply (s : State) : BridgeReply → State
  | .fail => (s.writeGpr Config.sysNumReg Config.sysFail).writeGpr Config.sysErrReg 1#32
  | .ok retval writes =>
    ((s.bridgeWrites writes).writeGpr Config.sysNumReg retval).writeGpr Config.sysErrReg 0#32
  | .halt => { s with halted := true }

/-- R280: never a fault, never a redirect. The answer is one draw (log entry 8). -/
def execSyscall (code : BitVec 20) (s : State) : Result :=
  .next (s.serveReply (s.bridgeReply (s.syscallNumber code))).draw

/-- R282: `code` is ignored. -/
def execTeq (rs rt : Reg) (_code : BitVec 10) (s : State) : Result :=
  if s.readGpr rs = s.readGpr rt then raise .trapEqual s else .next s

/-- R283: always; `code` is ignored. -/
def execBrk (_code : BitVec 20) (s : State) : Result := raise .brk s

/-- R284: the behaviour of a word that is no instruction. -/
def execReserved (s : State) : Result := raise .reservedInstruction s

end Sys2Proof.Machine
end

