-- ==== Sys2Proof/Machine/Step.lean ====
section
/-! DEFINITION. The dispatch step (spec/40_scheduler.md R111) and how the host places the next
instruction. -/

namespace Sys2Proof.Machine

/-- One dispatch step (R111): no step when halted (R122); a misaligned `pc` faults at the fetch
(R118); then fetch at the old `pc`, the generic step, and the behaviour of the decoded word. -/
def step (s : State) : Host.Outcome State Fault Refusal :=
  if s.halted then .fault .halted
  else if !wordAligned s.pc then raiseAtFetch .addressError s
  else
    match s.fetchWord s.pc with
    | .fault r => .fault r
    | .refused r => .refused r
    | .next w =>
      match decodeWord w with
      | some i => exec i s.genericStep
      | none => execReserved s.genericStep

/-- Place the table word `w` where `step` fetches its next instruction: in the launch image and in
data memory, which the loader fills alike (70_reset_and_hazards.md R325), the four addresses being
no longer written ones. It stands for the loader (log entry 6). -/
def State.withFetchWord (s : State) (nbits w : Nat) : State :=
  let bytes := bytesOfWord (tableWord nbits w)
  { s with
    mem := s.mem.writeBytes s.pc bytes
    image := s.image.writeBytes s.pc bytes
    written := s.written.filter
      (fun a => !(List.range 4).any (fun k => (s.pc + BitVec.ofNat 32 k).toNat == a)) }

end Sys2Proof.Machine
end

