-- ==== Sys2Proof/Safety.lean ====
section
/-! DEFINITION. What counts as a safe run, the invariant of the machine, what an instruction may
change (its footprint), and the classifications of instructions that the spec's prose makes. -/

namespace Sys2Proof

/-! ### Runs -/

namespace Machine

/-- The latest step ended in a fault of the spec (40_scheduler.md R117). -/
def State.faulted (s : State) : Prop := s.halted = true ∧ s.outcome ≠ .completed

/-- "a halted state reached through the Syscall Bridge's halt" is "a normal end of run"
(40_scheduler.md R122, 45_trap_syscall.md R280). -/
def State.endedNormally (s : State) : Prop := s.halted = true ∧ s.outcome = .completed

/-- A run of at most `k` steps is safe: it reaches its `k`-th state, or stops because the machine has
halted normally; no step is stuck at an unmapped address, refused, or faulted. -/
def SafeRun : Nat → State → Prop
  | 0, _ => True
  | k + 1, s => s.endedNormally ∨ ∃ t, step s = .next t ∧ ¬ t.faulted ∧ SafeRun k t

/-! ### The invariant -/

/-- What every step keeps. -/
structure State.Inv (s : State) : Prop where
  /-- Data memory is in canonical form. -/
  memWf : s.mem.wf = true
  /-- So is the launch image. -/
  imageWf : s.image.wf = true
  /-- The written addresses are a strictly rising list inside the address space. -/
  writtenWf : addrsWf s.written = true
  /-- The cell of the hardwired register holds 0 (10_state.md R21). -/
  zeroCell : s.gpr[0] = 0#32
  /-- A byte that no store wrote is the launch image's byte (20_memory.md R64, R67). -/
  unwritten : ∀ a, a ∉ s.written → s.mem.read a = s.image.read a
  /-- A fault outcome halts the machine (40_scheduler.md R117). -/
  faultHalts : s.outcome ≠ .completed → s.halted = true

/-! ### Footprints: what a behaviour may change -/

/-- The parts of the state that a behaviour may change; `draws` is how many free values it takes. -/
structure Footprint where
  regs : List Reg := []
  slots : List Slot := []
  bytes : List Word := []
  hi : Bool := false
  lo : Bool := false
  cc : Bool := false
  npc : Bool := false
  draws : Nat := 0

/-- Everything outside the footprint is the same in `t` as in `s`, and the bytes stored to are the
addresses that join the written ones. `pc`, the counter, the outcome, `halted` and the launch data
are in no footprint. -/
structure Footprint.Keeps (f : Footprint) (s t : State) : Prop where
  regs : ∀ r, r ∉ f.regs → t.readGpr r = s.readGpr r
  slots : ∀ n, n ∉ f.slots → t.readSlot n = s.readSlot n
  bytes : ∀ a, a ∉ f.bytes → t.readByte a = s.readByte a
  written : ∀ k, k ∈ t.written ↔ k ∈ s.written ∨ ∃ a ∈ f.bytes, a.toNat = k
  hi : f.hi = false → t.hi = s.hi
  lo : f.lo = false → t.lo = s.lo
  cc : f.cc = false → t.cc = s.cc
  npc : f.npc = false → t.npc = s.npc
  draws : t.draws = s.draws + f.draws
  pc : t.pc = s.pc
  instrCounter : t.instrCounter = s.instrCounter
  halted : t.halted = s.halted
  outcome : t.outcome = s.outcome
  fetchAddr : t.fetchAddr = s.fetchAddr
  image : t.image = s.image
  params : t.params = s.params

/-- What `x[r]` reads after `v` has been written to it: a write to register 0 is discarded
(10_state.md R21). -/
def asRead (r : Reg) (v : Word) : Word := if r = 0 then 0#32 else v

/-- `i` completes in `s`, leaves `v` in `x[rd]` and changes nothing else. -/
def SetsReg (i : Instr) (s : State) (rd : Reg) (v : Word) : Prop :=
  ∃ t, exec i s = .next t ∧ t.readGpr rd = asRead rd v ∧ Footprint.Keeps { regs := [rd] } s t

/-- The `n` byte addresses from `a` on, modulo 2^32 (20_memory.md R52). -/
def bytesFrom (a : Word) (n : Nat) : List Word :=
  (List.range n).map (fun k => a + BitVec.ofNat 32 k)

/-- `i` completes in `s`, stores the bytes `bs` from address `a` on, lowest address first, and changes
nothing else. -/
def StoresBytes (i : Instr) (s : State) (a : Word) (bs : List Byte) : Prop :=
  ∃ t, exec i s = .next t ∧
    (∀ k b, bs[k]? = some b → t.readByte (a + BitVec.ofNat 32 k) = b) ∧
    Footprint.Keeps { bytes := bytesFrom a bs.length } s t

/-- `i` completes in `s` and changes nothing. -/
def ChangesNothing (i : Instr) (s : State) : Prop := exec i s = .next s

/-- `i` raises the fault `r` in `s`: the machine halts with that outcome and every other part of the
state is as it was (60_exceptions.md R300, R301). -/
def Faults (i : Instr) (s : State) (r : FaultReason) : Prop :=
  exec i s = .next { s with halted := true, outcome := .fault r }

/-- The word of `i` is the match column `pattern` under the row's `mask` (30_encoding.md R90). -/
def EncodedAs (i : Instr) (mask pattern : Word) : Prop := encode i &&& mask = pattern

/-- `i` completes in `s` in both cases of its condition: when `c` holds it writes
`npc <- pc + 4 * signed(offset)` (43_control_flow.md R240), when `c` fails it changes nothing. -/
def BranchesWhen (i : Instr) (s : State) (c : Prop) (offset : BitVec 16) : Prop :=
  (c → exec i s = .next { s with npc := s.pc + BitVec.ofInt 32 (4 * offset.toInt) }) ∧
  (¬ c → exec i s = .next s)

/-- `i` completes in `s`, leaves in `D[fd]` a pattern with the property `p`, takes `n` free values and
changes nothing else. -/
def SetsDouble (i : Instr) (s : State) (fd : Slot) (p : Double → Prop) (n : Nat := 0) : Prop :=
  ∃ t, exec i s = .next t ∧ p (t.readPair fd) ∧
    Footprint.Keeps { slots := [fd, fd + 1], draws := n } s t

/-- `i` completes in `s`, leaves `c` in `cc` and changes nothing else. -/
def SetsCc (i : Instr) (s : State) (c : Bool) : Prop :=
  ∃ t, exec i s = .next t ∧ t.cc = c ∧ Footprint.Keeps { cc := true } s t

/-- Byte `j` of a word, most significant first: byte 0 is bits 31:24 (20_memory.md R54). -/
def byteAt (v : Word) (j : Nat) : Byte := v.extractLsb' (24 - 8 * j) 8

end Machine

/-! ### What the spec's prose says of which instructions -/

/-- The instructions of the Branch/Jump Controller, the only ones that write `npc`
(43_control_flow.md R220). -/
def Instr.isControlFlow : Instr → Bool
  | .j _ | .jal _ | .jr _ | .jalr _ _ | .beq _ _ _ | .bne _ _ _ => true
  | .blez _ _ | .bgtz _ _ | .bltz _ _ | .bgez _ _ | .bltzal _ _ | .bgezal _ _ => true
  | .bc1f _ | .bc1t _ | .bc1fl _ | .bc1tl _ => true
  | _ => false

/-- The link destination, the one general register that a control-flow instruction may write
(43_control_flow.md R220): LINK_REG for `jal`, `bltzal` and `bgezal`, `linkDest rd` for `jalr` (R221,
R225), none for the other twelve. -/
def Instr.linksTo : Instr → Option Reg
  | .jal _ | .bltzal _ _ | .bgezal _ _ => some Config.linkReg
  | .jalr rd _ => some (Machine.linkDest rd)
  | _ => none

/-- "Written only by `c.eq.d`, `c.olt.d`, `c.un.d`" (10_state.md R28). -/
def Instr.writesCc : Instr → Bool
  | .cEqD _ _ | .cOltD _ _ | .cUnD _ _ => true
  | _ => false

/-- `hi` is written by `mult`, `multu`, `div`, `divu` and `mthi` (10_state.md R29). -/
def Instr.writesHi : Instr → Bool
  | .mult _ _ | .multu _ _ | .div _ _ | .divu _ _ | .mthi _ => true
  | _ => false

/-- `lo` is written by `mult`, `multu`, `div`, `divu` and `mtlo` (10_state.md R29). -/
def Instr.writesLo : Instr → Bool
  | .mult _ _ | .multu _ _ | .div _ _ | .divu _ _ | .mtlo _ => true
  | _ => false

/-- The instructions that may write memory: the eight stores, and `syscall` through the bridge
(20_memory.md R64). -/
def Instr.mayStore : Instr → Bool
  | .sb _ _ _ | .sh _ _ _ | .sw _ _ _ | .swl _ _ _ | .swr _ _ _ | .sc _ _ _ => true
  | .sdc1 _ _ _ | .sdxc1 _ _ _ | .syscall _ => true
  | _ => false

/-- The instructions that write floating-point slots (10_state.md, table of section 1). -/
def Instr.writesSlots : Instr → Bool
  | .mtc1 _ _ | .mthc1 _ _ | .ldc1 _ _ _ | .ldxc1 _ _ _ => true
  | .addD _ _ _ | .subD _ _ _ | .mulD _ _ _ | .divD _ _ _ => true
  | .negD _ _ | .movD _ _ | .cvtDW _ _ | .truncWD _ _ => true
  | _ => false

/-- Which behaviours may raise which reason (60_exceptions.md R291 to R296). -/
def Instr.mayRaise (i : Instr) : Machine.FaultReason → Bool
  | .integerOverflow => match i with
    | .add _ _ _ | .addi _ _ _ => true
    | _ => false
  | .trapEqual => match i with
    | .teq _ _ _ => true
    | _ => false
  | .brk => match i with
    | .brk _ => true
    | _ => false
  | .reservedInstruction => match i with
    | .addD _ _ _ | .subD _ _ _ | .mulD _ _ _ | .divD _ _ _ | .negD _ _ | .movD _ _ => true
    | .cvtDW _ _ | .truncWD _ _ | .cEqD _ _ | .cOltD _ _ | .cUnD _ _ => true
    | .mfhc1 _ _ | .mthc1 _ _ | .ldc1 _ _ _ | .sdc1 _ _ _ | .ldxc1 _ _ _ | .sdxc1 _ _ _ => true
    | _ => false
  | .divideByZero => match i with
    | .div _ _ | .divu _ _ => true
    | _ => false
  | .addressError => match i with
    | .lw _ _ _ | .sw _ _ _ | .ll _ _ _ | .sc _ _ _ => true
    | .ldc1 _ _ _ | .sdc1 _ _ _ | .ldxc1 _ _ _ | .sdxc1 _ _ _ => true
    | _ => false

/-- The floating-point fields an instruction uses as doubles (44_fp_coprocessor.md R251), in the
order they are checked. -/
def Instr.pairs : Instr → List Slot
  | .addD fd fs ft | .subD fd fs ft | .mulD fd fs ft | .divD fd fs ft => [fs, ft, fd]
  | .negD fd fs | .movD fd fs => [fs, fd]
  | .cvtDW fd _ => [fd]
  | .truncWD _ fs => [fs]
  | .cEqD fs ft | .cOltD fs ft | .cUnD fs ft => [fs, ft]
  | .mfhc1 _ fs | .mthc1 _ fs => [fs]
  | .ldc1 ft _ _ | .sdc1 ft _ _ => [ft]
  | .ldxc1 fd _ _ => [fd]
  | .sdxc1 fs _ _ => [fs]
  | _ => []

/-! ### Correct rounding, stated without the model's rounding function -/

namespace Machine

/-- The value, in units of 2^-1074, of a magnitude pattern (bits 62:0) up to and including the
infinity's, which stands for 2^1024, the value the next binade would start at. -/
def magValue (mag : Nat) : Nat :=
  if mag / 2 ^ 52 = 0 then mag % 2 ^ 52 else (2 ^ 52 + mag % 2 ^ 52) * 2 ^ (mag / 2 ^ 52 - 1)

/-- The distance between the value of `mag` and `num / den`, times `den`. -/
def magDistance (num den mag : Nat) : Nat := ((magValue mag * den : Int) - num).natAbs

/-- `mag` is the magnitude nearest to `num / den` units of 2^-1074: no magnitude is nearer, and of two
equally near ones it is the one with an even last bit (44_fp_coprocessor.md R252: "correctly rounded
result with round to nearest, ties to even; overflow gives the infinity"). -/
def IsNearestEven (num den mag : Nat) : Prop :=
  mag ≤ infMag ∧
  (∀ m, m ≤ infMag → magDistance num den mag ≤ magDistance num den m) ∧
  (∀ m, m ≤ infMag → m ≠ mag → magDistance num den m = magDistance num den mag → mag % 2 = 0)

/-- A pattern is finite: neither a NaN nor an infinity. -/
def fIsFinite (v : Double) : Bool := fExp v != 2047

/-- The infinity of a sign. -/
def infinityOf (negative : Bool) : Double :=
  if negative then 0xFFF0000000000000#64 else 0x7FF0000000000000#64

/-- The zero of a sign. -/
def zeroOf (negative : Bool) : Double :=
  if negative then 0x8000000000000000#64 else 0#64

/-- The magnitude bits 62:0. -/
def fMagBits (v : Double) : Nat := (v.extractLsb' 0 63).toNat

end Machine
end Sys2Proof
end

