-- ==== Sys2Proof/Certificates/Slice0/Obligations.lean ====
section
/-! DEFINITION. The obligations: what the spec's rules say, over every state and operand. Statements
about an instruction are about `exec`, which runs after the generic step: `s.pc` there is the address of
the delay slot (spec/40_scheduler.md R113). -/

section

open Sys2Proof Sys2Proof.Machine

/-- O1. Words written in the examples of files 41 to 45 decode to their instruction with the
fields the example names, at least one word of every family and format, and four reserved words
decode to none. (30_encoding.md R90, 30_encoding.md R96, 95_test_vectors.md) -/
def Obligations.SpecWordsDecodeAsWritten : Prop :=
  decodeWord 0x00221820#32 = some (.add 3 1 2) ∧
  decodeWord 0x2022FFFF#32 = some (.addi 2 1 0xFFFF#16) ∧
  decodeWord 0x00011100#32 = some (.sll 2 1 4) ∧
  decodeWord 0x00411804#32 = some (.sllv 3 1 2) ∧
  decodeWord 0x7C223A00#32 = some (.ext 2 1 8 8) ∧
  decodeWord 0x00211801#32 = some (.movt 3 1) ∧
  decodeWord 0x8C22FFFC#32 = some (.lw 2 1 0xFFFC#16) ∧
  decodeWord 0x4C230101#32 = some (.ldxc1 4 3 1) ∧
  decodeWord 0x4C232009#32 = some (.sdxc1 4 3 1) ∧
  decodeWord 0x08100040#32 = some (.j 0x0100040#26) ∧
  decodeWord 0x00A03009#32 = some (.jalr 6 5) ∧
  decodeWord 0x0430FFFE#32 = some (.bltzal 1 0xFFFE#16) ∧
  decodeWord 0x45020020#32 = some (.bc1fl 0x20#16) ∧
  decodeWord 0x46241181#32 = some (.subD 6 2 4) ∧
  decodeWord 0x468011A1#32 = some (.cvtDW 6 2) ∧
  decodeWord 0x46241034#32 = some (.cOltD 2 4) ∧
  decodeWord 0x44E51000#32 = some (.mthc1 5 2) ∧
  decodeWord 0x0003E90C#32 = some (.syscall 4004#20) ∧
  decodeWord 0x0022FFF4#32 = some (.teq 1 2 0x3FF#10) ∧
  decodeWord 0x000001CD#32 = some (.brk 7#20) ∧
  decodeWord 0xFFFFFFFF#32 = none ∧ decodeWord 0x70000002#32 = none ∧
  decodeWord 0x0000000F#32 = none ∧ decodeWord 0x46000000#32 = none

/-- O2. For each of the 91 constructors with every operand value the encoding admits (shift
amounts 0 to 31, ext positions 0 to 31 and sizes 1 to 32, every register, immediate, index and
code), decodeWord of encode is the instruction, and decoding its four bytes, whatever bytes
follow, gives the instruction and the bytes that follow. (30_encoding.md R81 to R95,
30_encoding.md R102) -/
def Obligations.DecodeOfEncodeIsTheInstruction : Prop :=
  ∀ i : Instr, i.wellFormed = true →
    decodeWord (encode i) = some i ∧
    ∀ rest : List Byte, decode (encodeBytes i ++ rest) = .ok (i, rest)

/-- O3. If a word decodes to an instruction then that instruction is well formed and encodes to
that word, so must-be-zero fields are checked and two words never decode to one instruction.
(30_encoding.md R90, 30_encoding.md R98, 30_encoding.md R102) -/
def Obligations.EncodeOfDecodeIsTheWord : Prop :=
  ∀ (w : Word) (i : Instr), decodeWord w = some i → i.wellFormed = true ∧ encode i = w

/-- O4. For every word: any row of the table that matches is the row the decoder takes; when no
row matches the word is reserved; and two places of the table that both match are the same
place. (30_encoding.md R90, 30_encoding.md R95, 30_encoding.md R96) -/
def Obligations.EveryMatchingRowIsTheDecodedOne : Prop :=
  ∀ w : Word,
    (∀ r ∈ opcodeTable, r.hits w = true → decodeWord w = some (r.build w)) ∧
    ((∀ r ∈ opcodeTable, r.hits w = false) → decodeWord w = none) ∧
    (∀ (j k : Nat) (r q : Row), opcodeTable[j]? = some r → opcodeTable[k]? = some q →
      r.hits w = true → q.hits w = true → j = k)

/-- O5. In a running machine with an aligned pc whose fetched word decodes to i, step is exec of
i on the state in which the counter is one higher, pc is the old npc, npc is the old npc plus 4,
the outcome starts as Continue and carries the fetch address, and everything else is as before.
The fields outcome and fetchAddr hold the outcome of R117; that they are fields of the state is
the model's choice (log entry 10). (40_scheduler.md R111, 40_scheduler.md R116, 40_scheduler.md
R119) -/
def Obligations.StepRunsDecodedInstruction : Prop :=
  ∀ (s : State) (w : Word) (i : Instr), s.halted = false → wordAligned s.pc = true →
    s.fetchWord s.pc = .next w → decodeWord w = some i →
    step s = exec i { s with
      instrCounter := s.instrCounter + 1, pc := s.npc, npc := s.npc + 4#32,
      outcome := .completed, fetchAddr := s.pc }

/-- O6. In a running machine with an aligned pc and a fetched word w there is a state g with pc
the old npc and npc the old npc plus 4, and all else but the counter and the outcome as before,
on which the behaviour of w runs, whether w decodes or is reserved. Whatever next state results,
its pc is the old npc. Its npc is the old npc plus 4 if the behaviour faulted or the word is no
control-flow instruction. (R112) -/
def Obligations.GenericStepComesBeforeEveryBehaviour : Prop :=
  ∀ (s : State) (w : Word), s.halted = false → wordAligned s.pc = true →
    s.fetchWord s.pc = .next w →
    ∃ g : State, g.pc = s.npc ∧ g.npc = s.npc + 4#32 ∧
      g = { s with
        pc := g.pc, npc := g.npc, instrCounter := g.instrCounter, outcome := g.outcome,
        fetchAddr := g.fetchAddr } ∧
      (∀ i, decodeWord w = some i → step s = exec i g) ∧
      (decodeWord w = none → step s = execReserved g) ∧
      ∀ t, step s = .next t →
        t.pc = s.npc ∧ (t.faulted → t.npc = s.npc + 4#32) ∧
        ((∀ i, decodeWord w = some i → i.isControlFlow = false) → t.npc = s.npc + 4#32)

/-- O7. In a running machine with an aligned pc whose fetched word is reserved, the step has a
next state: pc, npc and the counter are those of the generic step, the machine is halted, the
outcome is Fault(ReservedInstruction) with the fetch address, and everything else is as before.
(45_trap_syscall.md R284, 30_encoding.md R96, 40_scheduler.md R112, 92_eei_decisions.md D7) -/
def Obligations.ReservedWordFaultsAfterTheGenericStep : Prop :=
  ∀ (s : State) (w : Word), s.halted = false → wordAligned s.pc = true →
    s.fetchWord s.pc = .next w → decodeWord w = none →
    step s = .next { s with
      instrCounter := s.instrCounter + 1, pc := s.npc, npc := s.npc + 4#32,
      halted := true, outcome := .fault .reservedInstruction, fetchAddr := s.pc }

/-- O8. In a running machine whose pc is no multiple of 4 the step raises AddressError without a
fetch, without the generic step and without counting: only halted and the outcome (with its
fetch address) change. When halted is 1 the step answers the fault halted and no next state.
(40_scheduler.md R118, 40_scheduler.md R122, 60_exceptions.md R296, 60_exceptions.md R302,
92_eei_decisions.md D8, 92_eei_decisions.md D13) -/
def Obligations.MisalignedPcOnlyHaltsAndHaltedHasNoStep : Prop :=
  ∀ s : State,
    (s.halted = false → s.pc.toNat % 4 ≠ 0 → step s =
      .next { s with halted := true, outcome := .fault .addressError, fetchAddr := s.pc }) ∧
    (s.halted = true → step s = .fault .halted)

/-- O9. At four mapped bytes: with IFETCH_COHERENT the fetch gives the big-endian word of the
current memory; without it, the big-endian word of the launch image when none of the four bytes
was stored to since launch, and a refusal when one was. (20_memory.md R67, 20_memory.md R54,
92_eei_decisions.md D23) -/
def Obligations.FetchReadsImageOrMemoryOrIsRefused : Prop :=
  ∀ (s : State) (a : Word), s.mappedRange a 4 = true →
    (s.params.ifetchCoherent = true → s.fetchWord a = .next
      (s.readByte a ++ s.readByte (a + 1#32) ++ s.readByte (a + 2#32) ++ s.readByte (a + 3#32))) ∧
    (s.params.ifetchCoherent = false → (∀ b ∈ bytesFrom a 4, b.toNat ∉ s.written) →
      s.fetchWord a = .next
        (s.image.read a.toNat ++ s.image.read (a + 1#32).toNat ++
          s.image.read (a + 2#32).toNat ++ s.image.read (a + 3#32).toNat)) ∧
    (s.params.ifetchCoherent = false → (∃ b ∈ bytesFrom a 4, b.toNat ∈ s.written) →
      s.fetchWord a = .refused .fetchOfStoredCode)

/-- O10. After sw to an aligned mapped address a, a fetch at a gives the stored word when
IFETCH_COHERENT is true, and is refused when it is false. (20_memory.md R67,
70_reset_and_hazards.md R331, 92_eei_decisions.md D23) -/
def Obligations.StoredWordIsFetchedOrRefused : Prop :=
  ∀ (rt base : Reg) (offset : BitVec 16) (s : State), s.mem.wf = true →
    wordAligned (s.effAddr base offset) = true → s.mappedRange (s.effAddr base offset) 4 = true →
    ∃ t, exec (.sw rt base offset) s = .next t ∧
      (s.params.ifetchCoherent = true →
        t.fetchWord (s.effAddr base offset) = .next (s.readGpr rt)) ∧
      (s.params.ifetchCoherent = false →
        t.fetchWord (s.effAddr base offset) = .refused .fetchOfStoredCode)

/-- O11. In a running machine with an aligned pc over mapped addresses, placing the encoding of
a well-formed instruction where the next fetch reads makes the next step run exactly that
instruction after the generic step. The loader withFetchWord is the model's (log entry 6).
(70_reset_and_hazards.md R325, 20_memory.md R67, 40_scheduler.md R111) -/
def Obligations.PlacedWordRunsNext : Prop :=
  ∀ (s : State) (i : Instr), s.halted = false → wordAligned s.pc = true →
    s.mappedRange s.pc 4 = true → s.mem.wf = true → s.image.wf = true → i.wellFormed = true →
    step (s.withFetchWord 32 (encode i).toNat) =
      exec i (s.withFetchWord 32 (encode i).toNat).genericStep

/-- O12. In straight-line code at an aligned A, a step over any control-flow instruction
completes with pc = A+4 and the machine running. The next step executes the instruction at A+4
as any other (likely branches included, taken or not). Whatever that leaves, its pc is the npc
that the transfer left. (40_scheduler.md R120, 40_scheduler.md R124, 70_reset_and_hazards.md
R327) -/
def Obligations.TakenTransferRunsItsDelaySlot : Prop :=
  ∀ (s : State) (w : Word) (i : Instr), s.halted = false → wordAligned s.pc = true →
    s.npc = s.pc + 4#32 → s.fetchWord s.pc = .next w → decodeWord w = some i →
    i.isControlFlow = true →
    ∃ t, step s = .next t ∧ t.pc = s.pc + 4#32 ∧ t.halted = false ∧
      (∀ w' i', s.fetchWord (s.pc + 4#32) = .next w' → decodeWord w' = some i' →
        step t = exec i' t.genericStep) ∧
      (∀ u, step t = .next u → u.pc = t.npc)

/-- O13. For every instruction and state: exec is never a refusal, and if exec is a fault of the
model it is the stuck access, the fault unmapped of log entry 12, and some address is unmapped.
If the machine runs, every address is mapped, and the fetch is coherent or the word at pc was
not stored to (else the fetch is refused, log entry 13), then the step answers a next state: no
instruction and no operand value leaves the machine without one. (40_scheduler.md R111,
20_memory.md R53, 20_memory.md R67, 60_exceptions.md R297, 60_exceptions.md R300,
60_exceptions.md R303, 92_eei_decisions.md D24) -/
def Obligations.MachineIsStuckOnlyOutsideTheMapOrOnStoredCode : Prop :=
  (∀ (i : Instr) (s : State),
    (∀ r, exec i s ≠ .refused r) ∧
    (∀ r, exec i s = .fault r → r = .unmapped ∧ ∃ a, s.mapped a = false)) ∧
  (∀ s : State, s.halted = false → (∀ a, s.mapped a = true) →
    (s.params.ifetchCoherent = true ∨ s.wordWritten s.pc = false) → ∃ t, step s = .next t)

/-- O14. The invariant: memory and the launch image are in canonical form; the written addresses
are a rising list inside the address space; the cell of register 0 holds 0; every byte not
stored to since launch is the launch image's byte; a fault outcome means halted. From every
state with the invariant, a step that answers a next state leaves the invariant. (10_state.md
R21, 20_memory.md R52, 20_memory.md R64, 40_scheduler.md R117) -/
def Obligations.InvariantPreservedByEveryStep : Prop :=
  ∀ s t : State, s.Inv → step s = .next t → t.Inv

/-- O15. State.reset has the invariant, and so has applyReset of every state whose memory is
canonical. (70_reset_and_hazards.md R320, 70_reset_and_hazards.md R325) -/
def Obligations.ResetSatisfiesTheInvariant : Prop :=
  State.reset.Inv ∧ ∀ s : State, s.mem.wf = true → s.applyReset.Inv

/-- O16. After reset of any state, and in State.reset, every general register is 0 (the cell and
what a read gives), hi and lo are 0, and npc is pc + 4. (R322, R24) -/
def Obligations.ResetLeavesTheStatedValues : Prop :=
  (∀ s : State, s.applyReset.gpr = Vector.replicate 32 0#32 ∧
    (∀ r, s.applyReset.readGpr r = 0#32) ∧ s.applyReset.hi = 0#32 ∧ s.applyReset.lo = 0#32 ∧
    s.applyReset.npc = s.applyReset.pc + 4#32) ∧
  (∀ r, State.reset.readGpr r = 0#32) ∧ State.reset.hi = 0#32 ∧ State.reset.lo = 0#32 ∧
    State.reset.npc = State.reset.pc + 4#32

/-- O17. From every state: pc is the parameter ENTRY_PC, the counter is 0, halted is cleared,
fpr, cc, memory and the parameters are what they were. That memory at reset becomes the launch
image and that no address counts as written is the model's choice (log entry 7).
(70_reset_and_hazards.md R320, 70_reset_and_hazards.md R321, 70_reset_and_hazards.md R323,
92_eei_decisions.md D2, 92_eei_decisions.md D3) -/
def Obligations.ResetSetsEntryAndLeavesSlotsFlagAndMemory : Prop :=
  ∀ s : State, s.applyReset.pc = s.params.entryPc ∧ s.applyReset.instrCounter = 0 ∧
    s.applyReset.halted = false ∧ s.applyReset.fpr = s.fpr ∧ s.applyReset.cc = s.cc ∧
    s.applyReset.mem = s.mem ∧ s.applyReset.params = s.params ∧
    s.applyReset.image = s.mem ∧ s.applyReset.written = []

/-- O18. If a step answers a next state, the parameters and the launch image are the same, and
the counter is one higher when the pc was aligned (a dispatch, faulting or not) and the same
when it was not (a fetch fault). For every instruction, syscall included, if exec answers a next
state then with another counter value it answers that state with that counter value, and if it
answers the fault of a stuck access it answers the same fault (exec is never a refusal, O13).
(00_scope.md R7, 20_memory.md R67, 10_state.md R34, 40_scheduler.md R116, 60_exceptions.md R304,
92_eei_decisions.md D27) -/
def Obligations.LaunchDataNeverChangeAndTheCounterOnlyCounts : Prop :=
  (∀ s t : State, step s = .next t →
    t.params = s.params ∧ t.image = s.image ∧
    t.instrCounter = s.instrCounter + (if wordAligned s.pc = true then 1 else 0)) ∧
  (∀ (i : Instr) (s : State) (n : Nat),
    (∀ t, exec i s = .next t →
      exec i { s with instrCounter := n } = .next { t with instrCounter := n }) ∧
    (∀ r, exec i s = .fault r → exec i { s with instrCounter := n } = .fault r))

/-- O19. For every instruction whose behaviour answers a next state: pc is unchanged, and npc is
unchanged unless the instruction is one of the sixteen of the Control-Flow Unit; those raise no
fault and leave cc, hi, lo, memory, the slots and every general register but the link
destination unchanged. The link destination is LINK_REG for jal, bltzal and bgezal, linkDest rd
for jalr (rd, or LINK_REG when rd is 0); the other twelve have none and change no general
register. (40_scheduler.md R114, 10_state.md R31, 43_control_flow.md R220, 43_control_flow.md
R221, 43_control_flow.md R225) -/
def Obligations.OnlyControlFlowWritesNpcAndNothingWritesPc : Prop :=
  ∀ (i : Instr) (s t : State), exec i s = .next t →
    t.pc = s.pc ∧ (i.isControlFlow = false → t.npc = s.npc) ∧
    (i.isControlFlow = true → t.halted = s.halted ∧ t.outcome = s.outcome ∧ t.cc = s.cc ∧
      t.hi = s.hi ∧ t.lo = s.lo ∧ t.mem = s.mem ∧ t.fpr = s.fpr ∧
      ∀ r, i.linksTo ≠ some r → t.readGpr r = s.readGpr r)

/-- O20. For every instruction whose behaviour answers a next state: cc is unchanged unless it
is a compare; hi unless mult, multu, div, divu or mthi; lo unless mult, multu, div, divu or
mtlo; the slots unless it is mtc1, mthc1, ldc1, ldxc1, double arithmetic, neg.d, mov.d, cvt.d.w
or trunc.w.d; memory and the stored-to addresses unless it is one of the eight stores or
syscall. (10_state.md R28, 10_state.md R29, 44_fp_coprocessor.md R269, 41_alu.md R128,
20_memory.md R64, 45_trap_syscall.md R287) -/
def Obligations.EachPartOfTheStateHasOnlyItsWriters : Prop :=
  ∀ (i : Instr) (s t : State), exec i s = .next t →
    (i.writesCc = false → t.cc = s.cc) ∧ (i.writesHi = false → t.hi = s.hi) ∧
    (i.writesLo = false → t.lo = s.lo) ∧ (i.writesSlots = false → t.fpr = s.fpr) ∧
    (i.mayStore = false → t.mem = s.mem ∧ t.written = s.written)

/-- O21. If a behaviour that started with outcome Continue answers a next state with a fault
outcome, that state is the starting one with halted set and that outcome: no register, slot, hi,
lo, cc, npc or memory byte differs. The reason is IntegerOverflow only for add and addi,
TrapEqual for teq, Break for break, DivideByZero for div and divu, AddressError for the word and
double accesses, ReservedInstruction only for a form that names pair 31 as a double.
(60_exceptions.md R291 to R297, 60_exceptions.md R300, 60_exceptions.md R301, 40_scheduler.md
R117, 92_eei_decisions.md D8) -/
def Obligations.FaultWritesNothingAndHasItsReasons : Prop :=
  ∀ (i : Instr) (s t : State) (r : FaultReason), s.outcome = .completed →
    exec i s = .next t → t.outcome = .fault r →
    t = { s with halted := true, outcome := .fault r } ∧
    i.mayRaise r = true ∧ (r = .reservedInstruction → 31 ∈ i.pairs)

/-- O22. If a running machine with outcome Continue is halted by a behaviour and the outcome is
still Continue, then the instruction is syscall and the bridge answered Halt to its number.
(40_scheduler.md R122, 45_trap_syscall.md R280, 60_exceptions.md R302, 92_eei_decisions.md D28) -/
def Obligations.OnlySyscallEndsARunNormally : Prop :=
  ∀ (i : Instr) (s t : State), s.halted = false → s.outcome = .completed →
    exec i s = .next t → t.halted = true → t.outcome = .completed →
    ∃ code, i = .syscall code ∧
      s.bridgeReply (if code = 0#20 then s.readGpr 2 else code.setWidth 32) = .halt

/-- O23. If a field that one of the seventeen forms uses as a double is 31, its behaviour raises
ReservedInstruction, whatever the data address. Otherwise lw, sw, ll, sc, ldc1, sdc1, ldxc1 and
sdxc1 raise AddressError when the effective address modulo 4 is not 0. In both cases nothing is
read, written or checked against MEM_MAP, and only halted and the outcome change. (10_state.md
R27, 44_fp_coprocessor.md R251, 42_load_store.md R191, 20_memory.md R58, 60_exceptions.md R296,
60_exceptions.md R299, 92_eei_decisions.md D12, 92_eei_decisions.md D20, 92_eei_decisions.md
D34) -/
def Obligations.PairThirtyOneAndMisalignedAccessFault : Prop :=
  (∀ (i : Instr) (s : State), 31 ∈ i.pairs → Faults i s .reservedInstruction) ∧
  (∀ (s : State) (rt base idx : Reg) (n : Slot) (offset : BitVec 16),
    ((s.effAddr base offset).toNat % 4 ≠ 0 →
      Faults (.lw rt base offset) s .addressError ∧ Faults (.sw rt base offset) s .addressError ∧
      Faults (.ll rt base offset) s .addressError ∧ Faults (.sc rt base offset) s .addressError ∧
      (n ≠ 31 → Faults (.ldc1 n base offset) s .addressError ∧
        Faults (.sdc1 n base offset) s .addressError)) ∧
    ((s.effAddrIndexed base idx).toNat % 4 ≠ 0 → n ≠ 31 →
      Faults (.ldxc1 n idx base) s .addressError ∧ Faults (.sdxc1 n idx base) s .addressError))

/-- O24. With b the second operand (x[rt], or the sign-extended immediate): when bit 31 of the
operands agree and bit 31 of the sum differs the instruction raises IntegerOverflow and changes
nothing else (the destination keeps its value, also when it is register 0); otherwise it
completes with the sum modulo 2^32 in the destination and nothing else changed. The words match
0x00000020 under 0xFC0007FF and 0x20000000 under 0xFC000000. (41_alu.md R129, 41_alu.md R130,
41_alu.md R134, 60_exceptions.md R291, 92_eei_decisions.md D8) -/
def Obligations.AddAndAddiCommitOrFaultOnOverflow : Prop :=
  ∀ (rd rs rt : Reg) (imm : BitVec 16) (s : State),
    let a := s.readGpr rs
    let b := s.readGpr rt
    let c := imm.signExtend 32
    EncodedAs (.add rd rs rt) 0xFC0007FF#32 0x00000020#32 ∧
    EncodedAs (.addi rt rs imm) 0xFC000000#32 0x20000000#32 ∧
    (a.msb = b.msb ∧ (a + b).msb ≠ a.msb → Faults (.add rd rs rt) s .integerOverflow) ∧
    (¬(a.msb = b.msb ∧ (a + b).msb ≠ a.msb) → SetsReg (.add rd rs rt) s rd (a + b)) ∧
    (a.msb = c.msb ∧ (a + c).msb ≠ a.msb → Faults (.addi rt rs imm) s .integerOverflow) ∧
    (¬(a.msb = c.msb ∧ (a + c).msb ≠ a.msb) → SetsReg (.addi rt rs imm) s rt (a + c))

/-- O25. add completes iff the sum of the two signed operands lies in -2^31 to 2^31-1, and then
the signed value written is that exact sum; addi the same with the signed immediate. Otherwise
the step faults. (41_alu.md R129, 41_alu.md R130, 41_alu.md R134) -/
def Obligations.AddFaultsExactlyWhenTheSignedSumDoesNotFit : Prop :=
  ∀ (rd rs rt : Reg) (imm : BitVec 16) (s : State),
    (let x := (s.readGpr rs).toInt + (s.readGpr rt).toInt
     (-(2 ^ 31) ≤ x ∧ x < 2 ^ 31 → SetsReg (.add rd rs rt) s rd (BitVec.ofInt 32 x) ∧
        (BitVec.ofInt 32 x).toInt = x) ∧
     (x < -(2 ^ 31) ∨ 2 ^ 31 ≤ x → Faults (.add rd rs rt) s .integerOverflow)) ∧
    (let x := (s.readGpr rs).toInt + imm.toInt
     (-(2 ^ 31) ≤ x ∧ x < 2 ^ 31 → SetsReg (.addi rt rs imm) s rt (BitVec.ofInt 32 x) ∧
        (BitVec.ofInt 32 x).toInt = x) ∧
     (x < -(2 ^ 31) ∨ 2 ^ 31 ≤ x → Faults (.addi rt rs imm) s .integerOverflow))

/-- O26. addu rd, rs, rt writes x[rs] + x[rt], sub and subu write x[rs] - x[rt], modulo 2^32, in
every state: no overflow is checked (not even for sub), nothing but rd changes, and a write to
register 0 is discarded. Their words match 0x21, 0x22 and 0x23 under 0xFC0007FF. (R131, R132,
R133) -/
def Obligations.AdduSubSubuWrap : Prop :=
  ∀ (rd rs rt : Reg) (s : State),
    (EncodedAs (.addu rd rs rt) 0xFC0007FF#32 0x00000021#32 ∧
      SetsReg (.addu rd rs rt) s rd (s.readGpr rs + s.readGpr rt)) ∧
    (EncodedAs (.sub rd rs rt) 0xFC0007FF#32 0x00000022#32 ∧
      SetsReg (.sub rd rs rt) s rd (s.readGpr rs - s.readGpr rt)) ∧
    (EncodedAs (.subu rd rs rt) 0xFC0007FF#32 0x00000023#32 ∧
      SetsReg (.subu rd rs rt) s rd (s.readGpr rs - s.readGpr rt))

/-- O27. addiu adds the signed immediate modulo 2^32. slt and slti compare signed values, sltu
and sltiu unsigned values, the immediate of both immediate forms being sign-extended first; the
result is the word 1 or 0. All complete in every state. (41_alu.md R135, 41_alu.md R136,
41_alu.md R137, 41_alu.md R138, 41_alu.md R139) -/
def Obligations.AddiuAndSetOnLessThan : Prop :=
  ∀ (rd rs rt : Reg) (imm : BitVec 16) (s : State),
    let a := s.readGpr rs
    let b := s.readGpr rt
    let c := BitVec.ofInt 32 imm.toInt
    SetsReg (.addiu rt rs imm) s rt (BitVec.ofInt 32 (a.toInt + imm.toInt)) ∧
    SetsReg (.slt rd rs rt) s rd (if a.toInt < b.toInt then 1#32 else 0#32) ∧
    SetsReg (.sltu rd rs rt) s rd (if a.toNat < b.toNat then 1#32 else 0#32) ∧
    SetsReg (.slti rt rs imm) s rt (if a.toInt < imm.toInt then 1#32 else 0#32) ∧
    SetsReg (.sltiu rt rs imm) s rt (if a.toNat < c.toNat then 1#32 else 0#32)

/-- O28. and, or, xor and nor combine the operands bit by bit; andi, ori and xori do so with the
zero-extended immediate; lui puts the immediate in bits 31:16 over zeros. Each completes in
every state and changes its destination only. (41_alu.md R140 to R147) -/
def Obligations.BitwiseAndLui : Prop :=
  ∀ (rd rs rt : Reg) (imm : BitVec 16) (s : State),
    let a := s.readGpr rs
    let b := s.readGpr rt
    SetsReg (.and rd rs rt) s rd (a &&& b) ∧
    SetsReg (.or rd rs rt) s rd (a ||| b) ∧
    SetsReg (.xor rd rs rt) s rd (a ^^^ b) ∧
    SetsReg (.nor rd rs rt) s rd (~~~(a ||| b)) ∧
    SetsReg (.andi rt rs imm) s rt (a &&& (0#16 ++ imm)) ∧
    SetsReg (.ori rt rs imm) s rt (a ||| (0#16 ++ imm)) ∧
    SetsReg (.xori rt rs imm) s rt (a ^^^ (0#16 ++ imm)) ∧
    SetsReg (.lui rt imm) s rt (imm ++ 0#16)

/-- O29. With n the shamt field, or the low 5 bits of x[rs] for the variable forms: sll and sllv
write x[rt] * 2^n modulo 2^32; srl and srlv write the unsigned x[rt] / 2^n rounded down; sra and
srav write the signed x[rt] / 2^n rounded down (the sign bit fills). Each completes in every
state and changes its destination only. (41_alu.md R148 to R153) -/
def Obligations.ShiftsAreScalingByPowersOfTwo : Prop :=
  ∀ (rd rs rt : Reg) (shamt : Nat) (s : State), shamt < 32 →
    let v := s.readGpr rt
    let n := (s.readGpr rs).toNat % 32
    (∃ r : Word, r.toNat = v.toNat * 2 ^ shamt % 2 ^ 32 ∧ SetsReg (.sll rd rt shamt) s rd r) ∧
    (∃ r : Word, r.toNat = v.toNat / 2 ^ shamt ∧ SetsReg (.srl rd rt shamt) s rd r) ∧
    (∃ r : Word, r.toInt = v.toInt / 2 ^ shamt ∧ SetsReg (.sra rd rt shamt) s rd r) ∧
    (∃ r : Word, r.toNat = v.toNat * 2 ^ n % 2 ^ 32 ∧ SetsReg (.sllv rd rt rs) s rd r) ∧
    (∃ r : Word, r.toNat = v.toNat / 2 ^ n ∧ SetsReg (.srlv rd rt rs) s rd r) ∧
    (∃ r : Word, r.toInt = v.toInt / 2 ^ n ∧ SetsReg (.srav rd rt rs) s rd r)

/-- O30. In every state mult completes with hi ++ lo, read as a signed 64-bit number, equal to
the product of the signed operands, and multu with hi ++ lo, read unsigned, equal to the product
of the unsigned operands; nothing but hi and lo changes. Their words match 0x18 and 0x19 under
0xFC00FFFF. (R154, R155) -/
def Obligations.MultiplyGivesTheExactProduct : Prop :=
  ∀ (rs rt : Reg) (s : State),
    (EncodedAs (.mult rs rt) 0xFC00FFFF#32 0x00000018#32 ∧
      ∃ t, exec (.mult rs rt) s = .next t ∧
        (t.hi ++ t.lo).toInt = (s.readGpr rs).toInt * (s.readGpr rt).toInt ∧
        Footprint.Keeps { hi := true, lo := true } s t) ∧
    (EncodedAs (.multu rs rt) 0xFC00FFFF#32 0x00000019#32 ∧
      ∃ t, exec (.multu rs rt) s = .next t ∧
        (t.hi ++ t.lo).toNat = (s.readGpr rs).toNat * (s.readGpr rt).toNat ∧
        Footprint.Keeps { hi := true, lo := true } s t)

/-- O31. For a nonzero divisor div completes with signed dividend = lo * divisor + hi, |hi| <
|divisor| and hi zero or of the dividend's sign, except -2^31 / -1, which leaves lo = 0x80000000
and hi = 0; divu completes with the unsigned quotient in lo and remainder in hi. Nothing but hi
and lo changes. (41_alu.md R156, 41_alu.md R157, 92_eei_decisions.md D10) -/
def Obligations.DivideGivesQuotientAndRemainder : Prop :=
  ∀ (rs rt : Reg) (s : State),
    let a := s.readGpr rs
    let b := s.readGpr rt
    b ≠ 0#32 →
    (∃ t, exec (.div rs rt) s = .next t ∧ Footprint.Keeps { hi := true, lo := true } s t ∧
      (a = 0x80000000#32 ∧ b = 0xFFFFFFFF#32 → t.lo = 0x80000000#32 ∧ t.hi = 0#32) ∧
      (¬(a = 0x80000000#32 ∧ b = 0xFFFFFFFF#32) →
        a.toInt = t.lo.toInt * b.toInt + t.hi.toInt ∧
        t.hi.toInt.natAbs < b.toInt.natAbs ∧
        (t.hi.toInt = 0 ∨ (t.hi.toInt < 0 ↔ a.toInt < 0)))) ∧
    (∃ t, exec (.divu rs rt) s = .next t ∧ Footprint.Keeps { hi := true, lo := true } s t ∧
      a.toNat = t.lo.toNat * b.toNat + t.hi.toNat ∧ t.hi.toNat < b.toNat)

/-- O32. With x[rt] = 0: under DIV0_POLICY fault div and divu raise DivideByZero and hi, lo and
everything else stay; under draw they complete with hi and lo each a free value (the model's
draw number n and n+1, log entry 4) and nothing else changed. (41_alu.md R156, 41_alu.md R157,
60_exceptions.md R295, 92_eei_decisions.md D9) -/
def Obligations.DivideByZeroFollowsThePolicy : Prop :=
  ∀ (rs rt : Reg) (s : State), s.readGpr rt = 0#32 →
    (s.params.divZero = .fault →
      Faults (.div rs rt) s .divideByZero ∧ Faults (.divu rs rt) s .divideByZero) ∧
    (s.params.divZero = .draw → ∃ t, exec (.div rs rt) s = .next t ∧
      exec (.divu rs rt) s = .next t ∧ t.hi = Config.any32 s.draws ∧
      t.lo = Config.any32 (s.draws + 1) ∧
      Footprint.Keeps { hi := true, lo := true, draws := 2 } s t)

/-- O33. seb and seh write the signed value of the low byte and halfword of x[rt]. ext with pos
+ size at most 32 writes the number in bits pos to pos+size-1 of x[rs]; with a larger sum it
still completes and writes a free value (log entry 4). Nothing but the destination changes.
(41_alu.md R162, 41_alu.md R163, 41_alu.md R164, 00_scope.md R14, 92_eei_decisions.md D11) -/
def Obligations.SignExtensionAndBitFieldExtract : Prop :=
  ∀ (rd rs rt : Reg) (pos size : Nat) (s : State), 1 ≤ size ∧ size ≤ 32 ∧ pos < 32 →
    SetsReg (.seb rd rt) s rd (BitVec.ofInt 32 ((s.readGpr rt).extractLsb' 0 8).toInt) ∧
    SetsReg (.seh rd rt) s rd (BitVec.ofInt 32 ((s.readGpr rt).extractLsb' 0 16).toInt) ∧
    (pos + size ≤ 32 → ∃ r : Word, r.toNat = (s.readGpr rs).toNat / 2 ^ pos % 2 ^ size ∧
      SetsReg (.ext rt rs pos size) s rt r) ∧
    (32 < pos + size → ∃ t, exec (.ext rt rs pos size) s = .next t ∧
      t.readGpr rt = asRead rt (Config.any32 s.draws) ∧
      Footprint.Keeps { regs := [rt], draws := 1 } s t)

/-- O34. mfhi rd and mflo rd write hi and lo to rd; mthi rs and mtlo rs write x[rs] to hi and to
lo, each leaving the other. movz copies x[rs] to rd when x[rt] is zero, movn when it is not,
movf when cc is 0, movt when cc is 1; when the condition fails nothing changes. All complete in
every state. (41_alu.md R158 to R161, 41_alu.md R165 to R168) -/
def Obligations.HiLoMovesAndConditionalMoves : Prop :=
  ∀ (rd rs rt : Reg) (s : State),
    SetsReg (.mfhi rd) s rd s.hi ∧ SetsReg (.mflo rd) s rd s.lo ∧
    (∃ t, exec (.mthi rs) s = .next t ∧ t.hi = s.readGpr rs ∧
      Footprint.Keeps { hi := true } s t) ∧
    (∃ t, exec (.mtlo rs) s = .next t ∧ t.lo = s.readGpr rs ∧
      Footprint.Keeps { lo := true } s t) ∧
    (s.readGpr rt = 0#32 → SetsReg (.movz rd rs rt) s rd (s.readGpr rs) ∧
      ChangesNothing (.movn rd rs rt) s) ∧
    (s.readGpr rt ≠ 0#32 → SetsReg (.movn rd rs rt) s rd (s.readGpr rs) ∧
      ChangesNothing (.movz rd rs rt) s) ∧
    (s.cc = false → SetsReg (.movf rd rs) s rd (s.readGpr rs) ∧ ChangesNothing (.movt rd rs) s) ∧
    (s.cc = true → SetsReg (.movt rd rs) s rd (s.readGpr rs) ∧ ChangesNothing (.movf rd rs) s)

/-- O35. At mapped bytes: lb writes the signed and lbu the unsigned value of the byte at the
effective address; lh and lhu those of the two bytes at that address and the next, the first the
more significant, odd addresses included; lw, at a multiple of 4, the four bytes, most
significant first. In every state ll answers exactly what lw answers: no reservation is
recorded. Nothing but the destination changes. (42_load_store.md R192 to R196, 42_load_store.md
R204, 20_memory.md R54, 20_memory.md R57, 20_memory.md R66, 92_eei_decisions.md D1) -/
def Obligations.LoadsReadBigEndianBytes : Prop :=
  ∀ (rt base : Reg) (offset : BitVec 16) (s : State),
    let a := s.effAddr base offset
    let h := (s.readByte a).toNat * 256 + (s.readByte (a + 1#32)).toNat
    (s.mappedRange a 1 = true →
      SetsReg (.lb rt base offset) s rt (BitVec.ofInt 32 (s.readByte a).toInt) ∧
      SetsReg (.lbu rt base offset) s rt (BitVec.ofNat 32 (s.readByte a).toNat)) ∧
    (s.mappedRange a 2 = true →
      SetsReg (.lh rt base offset) s rt
        (BitVec.ofInt 32 (if h < 2 ^ 15 then (h : Int) else (h : Int) - 2 ^ 16)) ∧
      SetsReg (.lhu rt base offset) s rt (BitVec.ofNat 32 h)) ∧
    (a.toNat % 4 = 0 → s.mappedRange a 4 = true →
      SetsReg (.lw rt base offset) s rt
        (BitVec.ofNat 32 (h * 2 ^ 16 + (s.readByte (a + 2#32)).toNat * 256 +
          (s.readByte (a + 3#32)).toNat)) ∧
      SetsReg (.ll rt base offset) s rt
        (BitVec.ofNat 32 (h * 2 ^ 16 + (s.readByte (a + 2#32)).toNat * 256 +
          (s.readByte (a + 3#32)).toNat))) ∧
    exec (.ll rt base offset) s = exec (.lw rt base offset) s

/-- O36. With canonical memory and mapped bytes: sb stores the low byte at the effective
address, sh the low halfword at that address and the next (odd addresses included), sw at a
multiple of 4 all four bytes. Every other byte reads as before and nothing else changes.
(42_load_store.md R197, 42_load_store.md R198, 42_load_store.md R199, 20_memory.md R52,
20_memory.md R57, 92_eei_decisions.md D1) -/
def Obligations.StoresWriteTheirBytesOnly : Prop :=
  ∀ (rt base : Reg) (offset : BitVec 16) (s : State), s.mem.wf = true →
    let a := s.effAddr base offset
    let v := s.readGpr rt
    (s.mappedRange a 1 = true → StoresBytes (.sb rt base offset) s a [byteAt v 3]) ∧
    (s.mappedRange a 2 = true → StoresBytes (.sh rt base offset) s a [byteAt v 2, byteAt v 3]) ∧
    (s.mappedRange a 4 = true → a.toNat % 4 = 0 → StoresBytes (.sw rt base offset) s a
      [byteAt v 0, byteAt v 1, byteAt v 2, byteAt v 3])

/-- O37. With canonical memory, four mapped bytes and an address that is a multiple of 4, sc
stores the bytes of the value x[rt] had before, then writes 1 to rt (discarded for rt = 0), and
changes nothing else: no preceding ll is needed. (42_load_store.md R205, 20_memory.md R66,
20_memory.md R58, 92_eei_decisions.md D12) -/
def Obligations.StoreConditionalAlwaysSucceeds : Prop :=
  ∀ (rt base : Reg) (offset : BitVec 16) (s : State), s.mem.wf = true →
    let a := s.effAddr base offset
    a.toNat % 4 = 0 → s.mappedRange a 4 = true →
    ∃ t, exec (.sc rt base offset) s = .next t ∧ t.readGpr rt = asRead rt 1#32 ∧
      (∀ k < 4, t.readByte (a + BitVec.ofNat 32 k) = byteAt (s.readGpr rt) k) ∧
      Footprint.Keeps { regs := [rt], bytes := bytesFrom a 4 } s t

/-- O38. With k the effective address a modulo 4 and the aligned word mapped: after lwl the 4-k
most significant bytes of rt are the memory bytes from a up and the k lowest are kept; after lwr
the k+1 least significant bytes are the memory bytes up to a and the 3-k highest are kept.
Neither faults, and nothing but rt changes. (42_load_store.md R200, 42_load_store.md R201,
92_eei_decisions.md D1) -/
def Obligations.UnalignedLoadsMergeBytewise : Prop :=
  ∀ (rt base : Reg) (offset : BitVec 16) (s : State),
    let a := s.effAddr base offset
    let k := a.toNat % 4
    s.mappedRange (a - BitVec.ofNat 32 k) 4 = true →
    (∃ v : Word, SetsReg (.lwl rt base offset) s rt v ∧ ∀ j < 4, byteAt v j =
      if j < 4 - k then s.readByte (a + BitVec.ofNat 32 j) else byteAt (s.readGpr rt) j) ∧
    (∃ v : Word, SetsReg (.lwr rt base offset) s rt v ∧ ∀ j < 4, byteAt v j =
      if 3 - k ≤ j then s.readByte (a - BitVec.ofNat 32 (3 - j)) else byteAt (s.readGpr rt) j)

/-- O39. With offset' naming the address a+3 and the two aligned words mapped, and rt not the
base (or register 0): lwl then lwr, and lwr then lwl, both complete and leave in rt the word of
the four bytes at a to a+3, whatever rt held, and nothing else changed. (42_load_store.md R210,
90_conflicts.md C3) -/
def Obligations.UnalignedLoadPairReconstructsTheWord : Prop :=
  ∀ (rt base : Reg) (offset offset' : BitVec 16) (s : State), (rt = 0 ∨ rt ≠ base) →
    let a := s.effAddr base offset
    s.effAddr base offset' = a + 3#32 → s.mappedRange (alignDown a) 4 = true →
    s.mappedRange (alignDown (a + 3#32)) 4 = true →
    (∃ t u, exec (.lwl rt base offset) s = .next t ∧ exec (.lwr rt base offset') t = .next u ∧
      u.readGpr rt = asRead rt (s.readWord a) ∧ Footprint.Keeps { regs := [rt] } s u) ∧
    (∃ t u, exec (.lwr rt base offset') s = .next t ∧ exec (.lwl rt base offset) t = .next u ∧
      u.readGpr rt = asRead rt (s.readWord a) ∧ Footprint.Keeps { regs := [rt] } s u)

/-- O40. With k the effective address a modulo 4, canonical memory and the aligned word mapped:
swl puts the 4-k most significant bytes of x[rt] at a up to the end of the aligned word, swr the
k+1 least significant bytes from its start up to a. Every other byte reads as before, the
aligned word is what the port writes, and nothing else changes. (42_load_store.md R202,
42_load_store.md R203, 20_memory.md R59, 92_eei_decisions.md D1) -/
def Obligations.UnalignedStoresMergeBytewise : Prop :=
  ∀ (rt base : Reg) (offset : BitVec 16) (s : State), s.mem.wf = true →
    let a := s.effAddr base offset
    let k := a.toNat % 4
    let w := a - BitVec.ofNat 32 k
    s.mappedRange w 4 = true →
    (∃ t, exec (.swl rt base offset) s = .next t ∧
      (∀ j < 4 - k, t.readByte (a + BitVec.ofNat 32 j) = byteAt (s.readGpr rt) j) ∧
      (∀ c, c ∉ bytesFrom a (4 - k) → t.readByte c = s.readByte c) ∧
      Footprint.Keeps { bytes := bytesFrom w 4 } s t) ∧
    (∃ t, exec (.swr rt base offset) s = .next t ∧
      (∀ j ≤ k, t.readByte (a - BitVec.ofNat 32 j) = byteAt (s.readGpr rt) (3 - j)) ∧
      (∀ c, c ∉ bytesFrom w (k + 1) → t.readByte c = s.readByte c) ∧
      Footprint.Keeps { bytes := bytesFrom w 4 } s t)

/-- O41. With offset' naming the address a+3, canonical memory and the two aligned words mapped:
swl then swr complete, the bytes at a to a+3 are those of x[rt], most significant first, and
every other byte of memory reads as before. (42_load_store.md R211, 90_conflicts.md C3) -/
def Obligations.UnalignedStorePairWritesTheWord : Prop :=
  ∀ (rt base : Reg) (offset offset' : BitVec 16) (s : State), s.mem.wf = true →
    let a := s.effAddr base offset
    s.effAddr base offset' = a + 3#32 → s.mappedRange (alignDown a) 4 = true →
    s.mappedRange (alignDown (a + 3#32)) 4 = true →
    ∃ t u, exec (.swl rt base offset) s = .next t ∧ exec (.swr rt base offset') t = .next u ∧
      (∀ j < 4, u.readByte (a + BitVec.ofNat 32 j) = byteAt (s.readGpr rt) j) ∧
      (∀ c, c ∉ bytesFrom a 4 → u.readByte c = s.readByte c) ∧
      (∀ r, u.readGpr r = s.readGpr r)

/-- O42. For pairs 0 to 30 (odd ones included), eight mapped bytes and an address that is a
multiple of 4: slot n+1 gets the word at the address, slot n the word 4 bytes on, so D[n] is the
eight bytes big-endian. Nothing else changes. (42_load_store.md R206, 42_load_store.md R208,
10_state.md R26, 92_eei_decisions.md D38) -/
def Obligations.DoubleLoadsFillThePair : Prop :=
  ∀ (n : Slot) (base idx : Reg) (offset : BitVec 16) (s : State), n ≠ 31 →
    let a := s.effAddr base offset
    let x := s.effAddrIndexed base idx
    (a.toNat % 4 = 0 → s.mappedRange a 8 = true → ∃ t, exec (.ldc1 n base offset) s = .next t ∧
      t.readSlot (n + 1) = s.readWord a ∧ t.readSlot n = s.readWord (a + 4#32) ∧
      t.readPair n = s.readWord a ++ s.readWord (a + 4#32) ∧
      Footprint.Keeps { slots := [n, n + 1] } s t) ∧
    (x.toNat % 4 = 0 → s.mappedRange x 8 = true → ∃ t, exec (.ldxc1 n idx base) s = .next t ∧
      t.readSlot (n + 1) = s.readWord x ∧ t.readSlot n = s.readWord (x + 4#32) ∧
      t.readPair n = s.readWord x ++ s.readWord (x + 4#32) ∧
      Footprint.Keeps { slots := [n, n + 1] } s t)

/-- O43. For pairs 0 to 30, canonical memory, eight mapped bytes and an address that is a
multiple of 4: the four bytes of slot n+1 go to the address, those of slot n 4 bytes on. Every
other byte reads as before and nothing else changes. (42_load_store.md R207, 42_load_store.md
R209, 20_memory.md R55, 92_eei_decisions.md D38) -/
def Obligations.DoubleStoresWriteThePair : Prop :=
  ∀ (n : Slot) (base idx : Reg) (offset : BitVec 16) (s : State), n ≠ 31 → s.mem.wf = true →
    let a := s.effAddr base offset
    let x := s.effAddrIndexed base idx
    let bytes := (List.range 4).map (byteAt (s.readSlot (n + 1))) ++
      (List.range 4).map (byteAt (s.readSlot n))
    (a.toNat % 4 = 0 → s.mappedRange a 8 = true → StoresBytes (.sdc1 n base offset) s a bytes) ∧
    (x.toNat % 4 = 0 → s.mappedRange x 8 = true → StoresBytes (.sdxc1 n idx base) s x bytes)

/-- O44. For pairs n and m (0 to 30), canonical memory and an aligned mapped address: sdc1 of n
followed by ldc1 of m there leaves D[m] equal to the old D[n], NaN patterns included; ldc1 of n
followed by sdc1 of n there leaves every byte of memory as it was. (42_load_store.md R206,
42_load_store.md R207, 90_conflicts.md) -/
def Obligations.DoubleStoreThenLoadKeepsEveryPattern : Prop :=
  ∀ (n m : Slot) (base : Reg) (offset : BitVec 16) (s : State), n ≠ 31 → m ≠ 31 →
    s.mem.wf = true → wordAligned (s.effAddr base offset) = true →
    s.mappedRange (s.effAddr base offset) 8 = true →
    (∃ t u, exec (.sdc1 n base offset) s = .next t ∧ exec (.ldc1 m base offset) t = .next u ∧
      u.readPair m = s.readPair n) ∧
    (∃ t u, exec (.ldc1 n base offset) s = .next t ∧ exec (.sdc1 n base offset) t = .next u ∧
      ∀ c, u.readByte c = s.readByte c)

/-- O45. j writes (pc & 0xF0000000) | (index << 2) to npc, jr writes x[rs], unchecked; pc is the
value after the generic step. Both complete in every state and change nothing else. Their words
match 0x08000000 under 0xFC000000 and 0x00000008 under 0xFC1FFFFF. (R222, R224) -/
def Obligations.JumpAndJumpRegister : Prop :=
  ∀ (index : BitVec 26) (rs : Reg) (s : State),
    (EncodedAs (.j index) 0xFC000000#32 0x08000000#32 ∧
      exec (.j index) s = .next { s with
        npc := (s.pc &&& 0xF0000000#32) ||| (index.setWidth 32 <<< 2) }) ∧
    (EncodedAs (.jr rs) 0xFC1FFFFF#32 0x00000008#32 ∧
      exec (.jr rs) s = .next { s with npc := s.readGpr rs })

/-- O46. jal links through register 31 and jumps as j does. jalr links through rd, or through
register 31 when rd is 0, and jumps to the value x[rs] had before the link write. The link value
is pc + 4 with pc after the generic step. Nothing else changes. (43_control_flow.md R223,
43_control_flow.md R225, 43_control_flow.md R221, 92_eei_decisions.md D14, 92_eei_decisions.md
D22) -/
def Obligations.LinkingJumps : Prop :=
  ∀ (index : BitVec 26) (rd rs : Reg) (s : State),
    (∃ t, exec (.jal index) s = .next t ∧ t.readGpr 31 = s.pc + 4#32 ∧
      t.npc = (s.pc &&& 0xF0000000#32) ||| (index.setWidth 32 <<< 2) ∧
      Footprint.Keeps { regs := [31], npc := true } s t) ∧
    (∃ t, exec (.jalr rd rs) s = .next t ∧
      t.readGpr (if rd = 0 then 31 else rd) = s.pc + 4#32 ∧ t.npc = s.readGpr rs ∧
      Footprint.Keeps { regs := [if rd = 0 then 31 else rd], npc := true } s t)

/-- O47. When the predicate holds (equal; not equal; signed x[rs] at most, above, below, at
least zero; cc 0 for bc1f and bc1fl; cc 1 for bc1t and bc1tl) npc becomes pc plus four times the
signed offset modulo 2^32, pc being the delay slot's address; otherwise nothing changes, so the
likely forms annul nothing. All complete in every state. (43_control_flow.md R226 to R231,
43_control_flow.md R234 to R237, 43_control_flow.md R240, 43_control_flow.md R241,
92_eei_decisions.md D30) -/
def Obligations.BranchesFollowTheirPredicate : Prop :=
  ∀ (rs rt : Reg) (offset : BitVec 16) (s : State),
    let a := s.readGpr rs
    BranchesWhen (.beq rs rt offset) s (a = s.readGpr rt) offset ∧
    BranchesWhen (.bne rs rt offset) s (a ≠ s.readGpr rt) offset ∧
    BranchesWhen (.blez rs offset) s (a.toInt ≤ 0) offset ∧
    BranchesWhen (.bgtz rs offset) s (0 < a.toInt) offset ∧
    BranchesWhen (.bltz rs offset) s (a.msb = true) offset ∧
    BranchesWhen (.bgez rs offset) s (a.msb = false) offset ∧
    BranchesWhen (.bc1f offset) s (s.cc = false) offset ∧
    BranchesWhen (.bc1t offset) s (s.cc = true) offset ∧
    BranchesWhen (.bc1fl offset) s (s.cc = false) offset ∧
    BranchesWhen (.bc1tl offset) s (s.cc = true) offset

/-- O48. Both complete in every state with pc + 4 in register 31, taken or not. npc is the
branch target when the predicate on the value of x[rs] before the link write holds (also for rs
= 31), and unchanged otherwise. Nothing else changes. (43_control_flow.md R232,
43_control_flow.md R233, 43_control_flow.md R240, 92_eei_decisions.md D14, 92_eei_decisions.md
D22) -/
def Obligations.LinkingBranches : Prop :=
  ∀ (rs : Reg) (offset : BitVec 16) (s : State),
    let target := s.pc + BitVec.ofInt 32 (4 * offset.toInt)
    (∃ t, exec (.bltzal rs offset) s = .next t ∧ t.readGpr 31 = s.pc + 4#32 ∧
      t.npc = (if (s.readGpr rs).toInt < 0 then target else s.npc) ∧
      Footprint.Keeps { regs := [31], npc := true } s t) ∧
    (∃ t, exec (.bgezal rs offset) s = .next t ∧ t.readGpr 31 = s.pc + 4#32 ∧
      t.npc = (if 0 ≤ (s.readGpr rs).toInt then target else s.npc) ∧
      Footprint.Keeps { regs := [31], npc := true } s t)

/-- O49. For pairs 0 to 30 and finite operands: when the exact sum (difference) is not zero the
result has its sign and the magnitude nearest to it among all doubles and the infinity, of two
equally near ones the one with an even last bit; when it is zero the result is -0 if both
addends are negative zeros (for sub.d: -0 minus +0), else +0. Subnormals are included. Only the
pair changes. (44_fp_coprocessor.md R252, 44_fp_coprocessor.md R254, 44_fp_coprocessor.md R255,
92_eei_decisions.md D17) -/
def Obligations.DoubleAddAndSubtractRoundToNearestEven : Prop :=
  ∀ (fd fs ft : Slot) (s : State), fd ≠ 31 → fs ≠ 31 → ft ≠ 31 →
    let a := s.readPair fs
    let b := s.readPair ft
    fIsFinite a = true → fIsFinite b = true →
    SetsDouble (.addD fd fs ft) s fd (fun r =>
      let x := fValue a + fValue b
      if x = 0 then r = zeroOf (fSign a && fSign b)
      else fSign r = decide (x < 0) ∧ IsNearestEven x.natAbs 1 (fMagBits r)) ∧
    SetsDouble (.subD fd fs ft) s fd (fun r =>
      let x := fValue a - fValue b
      if x = 0 then r = zeroOf (fSign a && !fSign b)
      else fSign r = decide (x < 0) ∧ IsNearestEven x.natAbs 1 (fMagBits r))

/-- O50. For pairs 0 to 30 and finite operands (the divisor of div.d not a zero): the sign is
the exclusive or of the operand signs and the magnitude is the one nearest to the exact product
(quotient) among all doubles and the infinity, ties to even, subnormals included. That a zero
product or quotient keeps this sign, one that rounds to zero included, is the model's inference
(log entry 17). Only the pair changes. (44_fp_coprocessor.md R252, 44_fp_coprocessor.md R256,
44_fp_coprocessor.md R257, 92_eei_decisions.md D17) -/
def Obligations.DoubleMultiplyAndDivideRoundToNearestEven : Prop :=
  ∀ (fd fs ft : Slot) (s : State), fd ≠ 31 → fs ≠ 31 → ft ≠ 31 →
    let a := s.readPair fs
    let b := s.readPair ft
    fIsFinite a = true → fIsFinite b = true →
    SetsDouble (.mulD fd fs ft) s fd (fun r =>
      fSign r = (fSign a != fSign b) ∧
      IsNearestEven (fMag a * fMag b) unitsPerOne (fMagBits r)) ∧
    (fMagBits b ≠ 0 → SetsDouble (.divD fd fs ft) s fd (fun r =>
      fSign r = (fSign a != fSign b) ∧
      IsNearestEven (fMag a * unitsPerOne) (fMag b) (fMagBits r)))

/-- O51. For pairs 0 to 30: any NaN operand, inf - inf, 0 times inf, 0 / 0 and inf / inf
complete with a NaN in the destination pair, of which nothing else is said (one free value is
taken, log entry 5); no fault, no flag, nothing else changed. (44_fp_coprocessor.md R253,
00_scope.md R14, 92_eei_decisions.md D18) -/
def Obligations.DoubleArithmeticOnNaNsGivesSomeNaN : Prop :=
  ∀ (fd fs ft : Slot) (s : State), fd ≠ 31 → fs ≠ 31 → ft ≠ 31 →
    let a := s.readPair fs
    let b := s.readPair ft
    let nan := fun r => fIsNaN r = true
    (fIsNaN a = true ∨ fIsNaN b = true →
      SetsDouble (.addD fd fs ft) s fd nan 1 ∧ SetsDouble (.subD fd fs ft) s fd nan 1 ∧
      SetsDouble (.mulD fd fs ft) s fd nan 1 ∧ SetsDouble (.divD fd fs ft) s fd nan 1) ∧
    (∀ x, a = infinityOf x → b = infinityOf (!x) → SetsDouble (.addD fd fs ft) s fd nan 1) ∧
    (∀ x, a = infinityOf x → b = infinityOf x → SetsDouble (.subD fd fs ft) s fd nan 1) ∧
    (∀ x y, a = infinityOf x ∧ b = zeroOf y ∨ a = zeroOf x ∧ b = infinityOf y →
      SetsDouble (.mulD fd fs ft) s fd nan 1) ∧
    (∀ x y, a = infinityOf x ∧ b = infinityOf y ∨ a = zeroOf x ∧ b = zeroOf y →
      SetsDouble (.divD fd fs ft) s fd nan 1)

/-- O52. For pairs 0 to 30: an infinity plus or minus a finite value (or an infinity that does
not cancel it) is that infinity, a finite value minus an infinity the opposite one; an infinity
times a nonzero value is an infinity, an infinity over a finite value an infinity, a finite
value over an infinity a zero, a nonzero finite value over zero an infinity, each with the
exclusive or of the signs. (44_fp_coprocessor.md R252, 44_fp_coprocessor.md R254 to R257,
92_eei_decisions.md D17) -/
def Obligations.DoubleArithmeticWithInfinitiesAndZeroDivisors : Prop :=
  ∀ (fd fs ft : Slot) (s : State), fd ≠ 31 → fs ≠ 31 → ft ≠ 31 →
    let a := s.readPair fs
    let b := s.readPair ft
    (∀ x, a = infinityOf x → fIsFinite b = true ∨ b = infinityOf x →
      SetsDouble (.addD fd fs ft) s fd (· = infinityOf x)) ∧
    (∀ x, b = infinityOf x → fIsFinite a = true →
      SetsDouble (.addD fd fs ft) s fd (· = infinityOf x) ∧
      SetsDouble (.subD fd fs ft) s fd (· = infinityOf (!x))) ∧
    (∀ x, a = infinityOf x → fIsFinite b = true ∨ b = infinityOf (!x) →
      SetsDouble (.subD fd fs ft) s fd (· = infinityOf x)) ∧
    (∀ x, (a = infinityOf x ∧ fIsNaN b = false ∨ b = infinityOf x ∧ fIsNaN a = false) →
      fMagBits a ≠ 0 → fMagBits b ≠ 0 →
      SetsDouble (.mulD fd fs ft) s fd (· = infinityOf (fSign a != fSign b))) ∧
    (∀ x, a = infinityOf x → fIsFinite b = true →
      SetsDouble (.divD fd fs ft) s fd (· = infinityOf (fSign a != fSign b))) ∧
    (∀ x, b = infinityOf x → fIsFinite a = true →
      SetsDouble (.divD fd fs ft) s fd (· = zeroOf (fSign a != fSign b))) ∧
    (∀ x, b = zeroOf x → fIsFinite a = true → fMagBits a ≠ 0 →
      SetsDouble (.divD fd fs ft) s fd (· = infinityOf (fSign a != fSign b)))

/-- O53. For pairs 0 to 30 both complete: after neg.d the sign bit of the result is the opposite
and the other 63 bits are the same, after mov.d all bits are the same. Overlapping pairs are
included; only the destination pair changes. (44_fp_coprocessor.md R258, 44_fp_coprocessor.md
R259, 92_eei_decisions.md D37) -/
def Obligations.NegateFlipsTheSignAndMoveCopies : Prop :=
  ∀ (fd fs : Slot) (s : State), fd ≠ 31 → fs ≠ 31 →
    SetsDouble (.negD fd fs) s fd (fun r =>
      fSign r = !fSign (s.readPair fs) ∧ fMagBits r = fMagBits (s.readPair fs)) ∧
    SetsDouble (.movD fd fs) s fd (fun r => r = s.readPair fs)

/-- O54. For destination pairs 0 to 30 and any source slot (31 included) cvt.d.w completes with
a finite double whose value (in units of 2^-1074) is the signed integer times 2^1074; zero gives
+0. Only the destination pair changes. (44_fp_coprocessor.md R260) -/
def Obligations.IntegerToDoubleIsExact : Prop :=
  ∀ (fd fs : Slot) (s : State), fd ≠ 31 →
    SetsDouble (.cvtDW fd fs) s fd (fun r =>
      fIsFinite r = true ∧ fValue r = (s.readSlot fs).toInt * unitsPerOne ∧
      (s.readSlot fs = 0#32 → r = 0#64))

/-- O55. For source pairs 0 to 30 and any destination slot (31 included) trunc.w.d completes: if
the source is finite and its value truncated toward zero lies in -2^31 to 2^31-1 the slot's
signed value is that integer; for a NaN, an infinity or a value outside the slot gets a free
value (log entry 4). Only that slot changes. (44_fp_coprocessor.md R261, 00_scope.md R14,
92_eei_decisions.md D19) -/
def Obligations.TruncateRoundsTowardZeroOrDraws : Prop :=
  ∀ (fd fs : Slot) (s : State), fs ≠ 31 →
    let v := s.readPair fs
    let x := (fValue v).tdiv unitsPerOne
    (fIsFinite v = true ∧ -(2 ^ 31) ≤ x ∧ x ≤ 2 ^ 31 - 1 →
      ∃ t, exec (.truncWD fd fs) s = .next t ∧ (t.readSlot fd).toInt = x ∧
        Footprint.Keeps { slots := [fd] } s t) ∧
    (¬(fIsFinite v = true ∧ -(2 ^ 31) ≤ x ∧ x ≤ 2 ^ 31 - 1) →
      ∃ t, exec (.truncWD fd fs) s = .next t ∧ t.readSlot fd = Config.any32 s.draws ∧
        Footprint.Keeps { slots := [fd], draws := 1 } s t)

/-- O56. For pairs 0 to 30 the three complete and change cc only. With a NaN operand c.eq.d and
c.olt.d give 0 and c.un.d gives 1. Otherwise c.un.d gives 0, and c.eq.d and c.olt.d compare
values: of finite operands the exact values (+0 equals -0); with an infinity, equality is that
of the patterns, -infinity is below all else and all else is below +infinity.
(44_fp_coprocessor.md R262, 44_fp_coprocessor.md R263, 44_fp_coprocessor.md R264, 10_state.md
R28) -/
def Obligations.ComparesOrderDoublesAndSeeNaNs : Prop :=
  ∀ (fs ft : Slot) (s : State), fs ≠ 31 → ft ≠ 31 →
    let a := s.readPair fs
    let b := s.readPair ft
    (fIsNaN a = true ∨ fIsNaN b = true →
      SetsCc (.cEqD fs ft) s false ∧ SetsCc (.cOltD fs ft) s false ∧ SetsCc (.cUnD fs ft) s true) ∧
    (fIsNaN a = false → fIsNaN b = false → SetsCc (.cUnD fs ft) s false ∧
      (fIsFinite a = true → fIsFinite b = true →
        SetsCc (.cEqD fs ft) s (decide (fValue a = fValue b)) ∧
        SetsCc (.cOltD fs ft) s (decide (fValue a < fValue b))) ∧
      (fIsFinite a = false ∨ fIsFinite b = false →
        SetsCc (.cEqD fs ft) s (decide (a = b)) ∧
        SetsCc (.cOltD fs ft) s (decide (a = infinityOf true ∧ b ≠ infinityOf true ∨
          b = infinityOf false ∧ a ≠ infinityOf false))))

/-- O57. In every state and for every slot, 31 included, mfc1 writes f[fs] to rt and mtc1 writes
x[rt] to f[fs]; no other slot and nothing else changes. Their words match 0x44000000 and
0x44800000 under 0xFFE007FF. (R265, R266) -/
def Obligations.WordTransfers : Prop :=
  ∀ (rt : Reg) (fs : Slot) (s : State),
    (EncodedAs (.mfc1 rt fs) 0xFFE007FF#32 0x44000000#32 ∧
      SetsReg (.mfc1 rt fs) s rt (s.readSlot fs)) ∧
    (EncodedAs (.mtc1 rt fs) 0xFFE007FF#32 0x44800000#32 ∧
      ∃ t, exec (.mtc1 rt fs) s = .next t ∧ t.readSlot fs = s.readGpr rt ∧
        Footprint.Keeps { slots := [fs] } s t)

/-- O58. For pairs 0 to 30 mfhc1 writes bits 63:32 of D[fs] to rt, and mthc1 leaves D[fs] with
x[rt] in bits 63:32 and its lower 32 bits as before, changing slot fs+1 only. For pair 31 both
raise ReservedInstruction with nothing written. (44_fp_coprocessor.md R267, 44_fp_coprocessor.md
R268, 44_fp_coprocessor.md R251) -/
def Obligations.HighWordTransfers : Prop :=
  ∀ (rt : Reg) (fs : Slot) (s : State),
    (fs ≠ 31 → SetsReg (.mfhc1 rt fs) s rt ((s.readPair fs).extractLsb' 32 32) ∧
      ∃ t, exec (.mthc1 rt fs) s = .next t ∧
        t.readPair fs = s.readGpr rt ++ (s.readPair fs).extractLsb' 0 32 ∧
        Footprint.Keeps { slots := [fs + 1] } s t) ∧
    (fs = 31 → Faults (.mfhc1 rt fs) s .reservedInstruction ∧
      Faults (.mthc1 rt fs) s .reservedInstruction)

/-- O59. The number is the code field if nonzero, else x[2]. On Fail x[2] becomes 0xFFFFFFFF and
x[7] becomes 1. On Ok x[2] becomes the value, x[7] becomes 0, and each byte of memory is the
last one the bridge wrote there (writes outside MEM_MAP are dropped, log entry 9) or as before.
On Halt only halted is set. Nothing else of the machine changes; the model's own draw counter
goes up by one (log entry 8). (45_trap_syscall.md R280, 45_trap_syscall.md R281,
45_trap_syscall.md R287, 92_eei_decisions.md D15, 92_eei_decisions.md D16) -/
def Obligations.SyscallRegisterProtocol : Prop :=
  ∀ (code : BitVec 20) (s : State),
    let number := if code = 0#20 then s.readGpr 2 else code.setWidth 32
    (s.bridgeReply number = .fail → ∃ t, exec (.syscall code) s = .next t ∧
      t.readGpr 2 = 0xFFFFFFFF#32 ∧ t.readGpr 7 = 1#32 ∧
      Footprint.Keeps { regs := [2, 7], draws := 1 } s t) ∧
    (∀ v ws, s.bridgeReply number = .ok v ws → s.mem.wf = true →
      ∃ t, exec (.syscall code) s = .next t ∧ t.readGpr 2 = v ∧ t.readGpr 7 = 0#32 ∧
        (∀ a, t.readByte a = (((ws.filter (fun p => p.1 == a && s.mapped a)).getLast?).map
          Prod.snd).getD (s.readByte a)) ∧
        Footprint.Keeps { regs := [2, 7], draws := 1,
                          bytes := (ws.filter (fun p => s.mapped p.1)).map Prod.fst } s t) ∧
    (s.bridgeReply number = .halt →
      exec (.syscall code) s = .next { s with halted := true, draws := s.draws + 1 })

/-- O60. teq rs, rt completes changing nothing when the two registers differ and raises
TrapEqual when they are equal; break raises Break in every state, with no register changed and
the machine halted. The code field has no effect. (45_trap_syscall.md R282, 45_trap_syscall.md
R283, 60_exceptions.md R292, 60_exceptions.md R293, 90_conflicts.md C2) -/
def Obligations.TrapIfEqualAndBreak : Prop :=
  ∀ (rs rt : Reg) (c : BitVec 10) (code : BitVec 20) (s : State),
    (s.readGpr rs ≠ s.readGpr rt → ChangesNothing (.teq rs rt c) s) ∧
    (s.readGpr rs = s.readGpr rt → Faults (.teq rs rt c) s .trapEqual) ∧
    Faults (.brk code) s .brk

end
end

