-- ==== Sys2Proof/Laws/Decode.lean ====
section
/-! SUPPORT. Laws of the layouts of Decode.lean: what masking and field extraction give on a word put
together by a layout. The per-instruction lemmas of Laws/PerInstr.lean cite them. -/

namespace Sys2Proof

/-! ### Masking a layout masks each field -/

theorem layoutR_and (op op' : BitVec 6) (a a' b b' c c' d d' : BitVec 5) (f f' : BitVec 6) :
    layoutR op a b c d f &&& layoutR op' a' b' c' d' f' =
      layoutR (op &&& op') (a &&& a') (b &&& b') (c &&& c') (d &&& d') (f &&& f') := by
  show (op ++ a ++ b ++ c ++ d ++ f : BitVec (6 + 5 + 5 + 5 + 5 + 6)) &&& (op' ++ a' ++ b' ++ c' ++ d' ++ f') = _
  simp only [BitVec.and_append, layoutR]

theorem layoutI_and (op op' : BitVec 6) (a a' b b' : BitVec 5) (imm imm' : BitVec 16) :
    layoutI op a b imm &&& layoutI op' a' b' imm' =
      layoutI (op &&& op') (a &&& a') (b &&& b') (imm &&& imm') := by
  show (op ++ a ++ b ++ imm : BitVec (6 + 5 + 5 + 16)) &&& (op' ++ a' ++ b' ++ imm') = _
  simp only [BitVec.and_append, layoutI]

theorem layoutJ_and (op op' : BitVec 6) (x x' : BitVec 26) :
    layoutJ op x &&& layoutJ op' x' = layoutJ (op &&& op') (x &&& x') := by
  show (op ++ x : BitVec (6 + 26)) &&& (op' ++ x') = _
  simp only [BitVec.and_append, layoutJ]

theorem layoutC_and (op op' : BitVec 6) (x x' : BitVec 20) (f f' : BitVec 6) :
    layoutC op x f &&& layoutC op' x' f' = layoutC (op &&& op') (x &&& x') (f &&& f') := by
  show (op ++ x ++ f : BitVec (6 + 20 + 6)) &&& (op' ++ x' ++ f') = _
  simp only [BitVec.and_append, layoutC]

theorem layoutT_and (op op' : BitVec 6) (a a' b b' : BitVec 5) (x x' : BitVec 10) (f f' : BitVec 6) :
    layoutT op a b x f &&& layoutT op' a' b' x' f' =
      layoutT (op &&& op') (a &&& a') (b &&& b') (x &&& x') (f &&& f') := by
  show (op ++ a ++ b ++ x ++ f : BitVec (6 + 5 + 5 + 10 + 6)) &&& (op' ++ a' ++ b' ++ x' ++ f') = _
  simp only [BitVec.and_append, layoutT]

/-! ### Fields of a layout -/

/-- The low field of an append. -/
theorem extract_append_low {m n : Nat} (x : BitVec m) (y : BitVec n) :
    (x ++ y).extractLsb' 0 n = y := by
  ext i hi
  simp [BitVec.getLsbD_append, hi]

/-- A field above the low one. -/
theorem extract_append_high {m n : Nat} (x : BitVec m) (y : BitVec n) (lo len : Nat) :
    (x ++ y).extractLsb' (n + lo) len = x.extractLsb' lo len := by
  ext i hi
  simp only [BitVec.getElem_extractLsb', BitVec.getLsbD_append]
  simp [show ¬ n + lo + i < n by omega, show n + lo + i - n = lo + i by omega]

variable (op f : BitVec 6) (a b c d : BitVec 5)

theorem layoutR_fields : (layoutR op a b c d f).extractLsb' 6 5 = d ∧
    (layoutR op a b c d f).extractLsb' 11 5 = c ∧
    (layoutR op a b c d f).extractLsb' 16 5 = b ∧
    (layoutR op a b c d f).extractLsb' 21 5 = a := by
  unfold layoutR
  refine ⟨?_, ?_, ?_, ?_⟩
  · exact (extract_append_high _ f 0 5).trans (extract_append_low _ d)
  · exact (extract_append_high _ f 5 5).trans
      ((extract_append_high _ d 0 5).trans (extract_append_low _ c))
  · exact (extract_append_high _ f 10 5).trans ((extract_append_high _ d 5 5).trans
      ((extract_append_high _ c 0 5).trans (extract_append_low _ b)))
  · exact (extract_append_high _ f 15 5).trans ((extract_append_high _ d 10 5).trans
      ((extract_append_high _ c 5 5).trans
        ((extract_append_high _ b 0 5).trans (extract_append_low _ a))))

theorem layoutI_fields (imm : BitVec 16) : (layoutI op a b imm).extractLsb' 0 16 = imm ∧
    (layoutI op a b imm).extractLsb' 16 5 = b ∧
    (layoutI op a b imm).extractLsb' 21 5 = a := by
  unfold layoutI
  refine ⟨extract_append_low _ imm, ?_, ?_⟩
  · exact (extract_append_high _ imm 0 5).trans (extract_append_low _ b)
  · exact (extract_append_high _ imm 5 5).trans
      ((extract_append_high _ b 0 5).trans (extract_append_low _ a))

theorem layoutJ_fields (x : BitVec 26) : (layoutJ op x).extractLsb' 0 26 = x :=
  extract_append_low _ x

theorem layoutC_fields (x : BitVec 20) : (layoutC op x f).extractLsb' 6 20 = x :=
  (extract_append_high _ f 0 20).trans (extract_append_low _ x)

theorem layoutT_fields (x : BitVec 10) : (layoutT op a b x f).extractLsb' 6 10 = x ∧
    (layoutT op a b x f).extractLsb' 16 5 = b ∧
    (layoutT op a b x f).extractLsb' 21 5 = a := by
  unfold layoutT
  refine ⟨?_, ?_, ?_⟩
  · exact (extract_append_high _ f 0 10).trans (extract_append_low _ x)
  · exact (extract_append_high _ f 10 5).trans
      ((extract_append_high _ x 0 5).trans (extract_append_low _ b))
  · exact (extract_append_high _ f 15 5).trans ((extract_append_high _ x 5 5).trans
      ((extract_append_high _ b 0 5).trans (extract_append_low _ a)))

/-! ### The field readers on a layout -/

@[simp] theorem regBits_toFin (r : Fin 32) : (regBits r).toFin = r := by
  revert r; decide

@[simp] theorem regBits_zero : regBits 0 = 0#5 := rfl

@[simp] theorem regAt_layoutR_6 : regAt (layoutR op a b c d f) 6 = d.toFin :=
  congrArg BitVec.toFin (layoutR_fields op f a b c d).1
@[simp] theorem regAt_layoutR_11 : regAt (layoutR op a b c d f) 11 = c.toFin :=
  congrArg BitVec.toFin (layoutR_fields op f a b c d).2.1
@[simp] theorem regAt_layoutR_16 : regAt (layoutR op a b c d f) 16 = b.toFin :=
  congrArg BitVec.toFin (layoutR_fields op f a b c d).2.2.1
@[simp] theorem regAt_layoutR_21 : regAt (layoutR op a b c d f) 21 = a.toFin :=
  congrArg BitVec.toFin (layoutR_fields op f a b c d).2.2.2
@[simp] theorem fieldAt_layoutR_6 : fieldAt (layoutR op a b c d f) 6 = d.toNat :=
  congrArg BitVec.toNat (layoutR_fields op f a b c d).1
@[simp] theorem fieldAt_layoutR_11 : fieldAt (layoutR op a b c d f) 11 = c.toNat :=
  congrArg BitVec.toNat (layoutR_fields op f a b c d).2.1
@[simp] theorem regAt_layoutI_16 (imm : BitVec 16) : regAt (layoutI op a b imm) 16 = b.toFin :=
  congrArg BitVec.toFin (layoutI_fields op a b imm).2.1
@[simp] theorem regAt_layoutI_21 (imm : BitVec 16) : regAt (layoutI op a b imm) 21 = a.toFin :=
  congrArg BitVec.toFin (layoutI_fields op a b imm).2.2
@[simp] theorem immAt_layoutI (imm : BitVec 16) : immAt (layoutI op a b imm) = imm :=
  (layoutI_fields op a b imm).1
@[simp] theorem indexAt_layoutJ (x : BitVec 26) : indexAt (layoutJ op x) = x :=
  layoutJ_fields op x
@[simp] theorem trapCodeAt_layoutC (x : BitVec 20) : trapCodeAt (layoutC op x f) = x :=
  layoutC_fields op f x
@[simp] theorem teqCodeAt_layoutT (x : BitVec 10) : teqCodeAt (layoutT op a b x f) = x :=
  (layoutT_fields op f a b x).1
@[simp] theorem regAt_layoutT_16 (x : BitVec 10) : regAt (layoutT op a b x f) 16 = b.toFin :=
  congrArg BitVec.toFin (layoutT_fields op f a b x).2.1
@[simp] theorem regAt_layoutT_21 (x : BitVec 10) : regAt (layoutT op a b x f) 21 = a.toFin :=
  congrArg BitVec.toFin (layoutT_fields op f a b x).2.2

/-! ### The mask columns of the opcode table on a layout (30_encoding.md R90) -/

theorem and_ones6 (x : BitVec 6) : x &&& 0x3F#6 = x := by revert x; decide

theorem and_ones5 (x : BitVec 5) : x &&& 0x1F#5 = x := by revert x; decide

@[simp] theorem layoutR_and_FC0007FF :
    layoutR op a b c d f &&& 0xFC0007FF#32 = layoutR op 0#5 0#5 0#5 d f := by
  rw [show 0xFC0007FF#32 = layoutR 0x3F#6 0x0#5 0x0#5 0x0#5 0x1F#5 0x3F#6 by decide, layoutR_and]
  simp [and_ones6, and_ones5]
@[simp] theorem layoutR_and_FFE0003F :
    layoutR op a b c d f &&& 0xFFE0003F#32 = layoutR op a 0#5 0#5 0#5 f := by
  rw [show 0xFFE0003F#32 = layoutR 0x3F#6 0x1F#5 0x0#5 0x0#5 0x0#5 0x3F#6 by decide, layoutR_and]
  simp [and_ones6, and_ones5]
@[simp] theorem layoutR_and_FC00FFFF :
    layoutR op a b c d f &&& 0xFC00FFFF#32 = layoutR op 0#5 0#5 c d f := by
  rw [show 0xFC00FFFF#32 = layoutR 0x3F#6 0x0#5 0x0#5 0x1F#5 0x1F#5 0x3F#6 by decide, layoutR_and]
  simp [and_ones6, and_ones5]
@[simp] theorem layoutR_and_FFFF07FF :
    layoutR op a b c d f &&& 0xFFFF07FF#32 = layoutR op a b 0#5 d f := by
  rw [show 0xFFFF07FF#32 = layoutR 0x3F#6 0x1F#5 0x1F#5 0x0#5 0x1F#5 0x3F#6 by decide, layoutR_and]
  simp [and_ones6, and_ones5]
@[simp] theorem layoutR_and_FC1FFFFF :
    layoutR op a b c d f &&& 0xFC1FFFFF#32 = layoutR op 0#5 b c d f := by
  rw [show 0xFC1FFFFF#32 = layoutR 0x3F#6 0x0#5 0x1F#5 0x1F#5 0x1F#5 0x3F#6 by decide, layoutR_and]
  simp [and_ones6, and_ones5]
@[simp] theorem layoutR_and_FFE007FF :
    layoutR op a b c d f &&& 0xFFE007FF#32 = layoutR op a 0#5 0#5 d f := by
  rw [show 0xFFE007FF#32 = layoutR 0x3F#6 0x1F#5 0x0#5 0x0#5 0x1F#5 0x3F#6 by decide, layoutR_and]
  simp [and_ones6, and_ones5]
@[simp] theorem layoutR_and_FC00003F :
    layoutR op a b c d f &&& 0xFC00003F#32 = layoutR op 0#5 0#5 0#5 0#5 f := by
  rw [show 0xFC00003F#32 = layoutR 0x3F#6 0x0#5 0x0#5 0x0#5 0x0#5 0x3F#6 by decide, layoutR_and]
  simp [and_ones6]
@[simp] theorem layoutR_and_FC1F07FF :
    layoutR op a b c d f &&& 0xFC1F07FF#32 = layoutR op 0#5 b 0#5 d f := by
  rw [show 0xFC1F07FF#32 = layoutR 0x3F#6 0x0#5 0x1F#5 0x0#5 0x1F#5 0x3F#6 by decide, layoutR_and]
  simp [and_ones6, and_ones5]
@[simp] theorem layoutR_and_FC00F83F :
    layoutR op a b c d f &&& 0xFC00F83F#32 = layoutR op 0#5 0#5 c 0#5 f := by
  rw [show 0xFC00F83F#32 = layoutR 0x3F#6 0x0#5 0x0#5 0x1F#5 0x0#5 0x3F#6 by decide, layoutR_and]
  simp [and_ones6, and_ones5]
@[simp] theorem layoutR_and_FFFF003F :
    layoutR op a b c d f &&& 0xFFFF003F#32 = layoutR op a b 0#5 0#5 f := by
  rw [show 0xFFFF003F#32 = layoutR 0x3F#6 0x1F#5 0x1F#5 0x0#5 0x0#5 0x3F#6 by decide, layoutR_and]
  simp [and_ones6, and_ones5]
@[simp] theorem layoutI_and_FC000000 (imm : BitVec 16) :
    layoutI op a b imm &&& 0xFC000000#32 = layoutI op 0#5 0#5 0#16 := by
  rw [show 0xFC000000#32 = layoutI 0x3F#6 0x0#5 0x0#5 0x0#16 by decide, layoutI_and]
  simp [and_ones6]
@[simp] theorem layoutI_and_FFE00000 (imm : BitVec 16) :
    layoutI op a b imm &&& 0xFFE00000#32 = layoutI op a 0#5 0#16 := by
  rw [show 0xFFE00000#32 = layoutI 0x3F#6 0x1F#5 0x0#5 0x0#16 by decide, layoutI_and]
  simp [and_ones6, and_ones5]
@[simp] theorem layoutI_and_FC1F0000 (imm : BitVec 16) :
    layoutI op a b imm &&& 0xFC1F0000#32 = layoutI op 0#5 b 0#16 := by
  rw [show 0xFC1F0000#32 = layoutI 0x3F#6 0x0#5 0x1F#5 0x0#16 by decide, layoutI_and]
  simp [and_ones6, and_ones5]
@[simp] theorem layoutI_and_FFFF0000 (imm : BitVec 16) :
    layoutI op a b imm &&& 0xFFFF0000#32 = layoutI op a b 0#16 := by
  rw [show 0xFFFF0000#32 = layoutI 0x3F#6 0x1F#5 0x1F#5 0x0#16 by decide, layoutI_and]
  simp [and_ones6, and_ones5]
@[simp] theorem layoutJ_and_FC000000 (x : BitVec 26) :
    layoutJ op x &&& 0xFC000000#32 = layoutJ op 0#26 := by
  rw [show 0xFC000000#32 = layoutJ 0x3F#6 0x0#26 by decide, layoutJ_and]
  simp [and_ones6]
@[simp] theorem layoutC_and_FC00003F (x : BitVec 20) :
    layoutC op x f &&& 0xFC00003F#32 = layoutC op 0#20 f := by
  rw [show 0xFC00003F#32 = layoutC 0x3F#6 0x0#20 0x3F#6 by decide, layoutC_and]
  simp [and_ones6]
@[simp] theorem layoutT_and_FC00003F (x : BitVec 10) :
    layoutT op a b x f &&& 0xFC00003F#32 = layoutT op 0#5 0#5 0#10 f := by
  rw [show 0xFC00003F#32 = layoutT 0x3F#6 0x0#5 0x0#5 0x0#10 0x3F#6 by decide, layoutT_and]
  simp [and_ones6]

end Sys2Proof
end

