-- ==== Sys2Proof/Laws/Memory.lean ====
section
/-! SUPPORT. The laws of byte memory (read after write, frame, canonical form) and of the set of
written addresses. -/

namespace Sys2Proof.Machine

/-! ### Canonical form is stable under a lower bound and under writing -/

theorem Memory.wfFrom_mono {m : Memory} {lo lo' : Nat} (hle : lo' ≤ lo)
    (h : Memory.wfFrom lo m = true) : Memory.wfFrom lo' m = true := by
  cases m with
  | nil => rfl
  | cons c m =>
    obtain ⟨k, b⟩ := c
    simp only [Memory.wfFrom, Bool.and_eq_true, decide_eq_true_eq] at h ⊢
    exact ⟨⟨⟨by omega, h.1.1.2⟩, h.1.2⟩, h.2⟩

theorem Memory.read_of_wfFrom_lt {m : Memory} {lo a : Nat} (h : Memory.wfFrom lo m = true)
    (ha : a < lo) : m.read a = Memory.unlisted := by
  induction m generalizing lo with
  | nil => rfl
  | cons c m ih =>
    obtain ⟨k, b⟩ := c
    simp only [Memory.wfFrom, Bool.and_eq_true, decide_eq_true_eq] at h
    have hne : k ≠ a := by omega
    simp only [Memory.read, if_neg hne]
    exact ih h.2 (by omega)

theorem Memory.write_wfFrom {m : Memory} {lo a : Nat} (b : Byte) (h : Memory.wfFrom lo m = true)
    (hlo : lo ≤ a) (ha : a < 4294967296) : Memory.wfFrom lo (m.write a b) = true := by
  induction m generalizing lo with
  | nil =>
    by_cases hb : b = Memory.unlisted <;> simp [Memory.write, Memory.wfFrom, hb, hlo, ha]
  | cons c m ih =>
    obtain ⟨k, d⟩ := c
    simp only [Memory.wfFrom, Bool.and_eq_true, decide_eq_true_eq] at h
    obtain ⟨⟨⟨hk, hk32⟩, hd⟩, hm⟩ := h
    by_cases hlt : a < k
    · by_cases hb : b = Memory.unlisted <;>
        simp_all [Memory.write, Memory.wfFrom]
    · by_cases heq : a = k
      · subst heq
        by_cases hb : b = Memory.unlisted
        · simpa [Memory.write, hb] using Memory.wfFrom_mono (by omega) hm
        · simp_all [Memory.write, Memory.wfFrom]
      · have hrec := ih hm (by omega)
        rw [Memory.write, if_neg hlt, if_neg heq]
        simp [Memory.wfFrom, hk, hk32, hd, hrec]

/-- Every write keeps the canonical form. -/
theorem Memory.write_wf {m : Memory} {a : Nat} (b : Byte) (h : m.wf = true)
    (ha : a < 4294967296) : (m.write a b).wf = true :=
  Memory.write_wfFrom b h (Nat.zero_le a) ha

theorem Memory.writeBytes_wf {m : Memory} (a : Word) (bs : List Byte) (h : m.wf = true) :
    (m.writeBytes a bs).wf = true := by
  induction bs generalizing m a with
  | nil => exact h
  | cons b bs ih => exact ih _ (Memory.write_wf b h a.isLt)

/-! ### Read after write -/

theorem Memory.read_write_other {m : Memory} {a c : Nat} (b : Byte) (hne : c ≠ a) :
    (m.write a b).read c = m.read c := by
  induction m with
  | nil => by_cases hb : b = Memory.unlisted <;> simp [Memory.write, Memory.read, hb, hne.symm]
  | cons e m ih =>
    obtain ⟨k, d⟩ := e
    by_cases hlt : a < k
    · by_cases hb : b = Memory.unlisted <;> simp [Memory.write, Memory.read, hlt, hb, hne.symm]
    · by_cases heq : a = k
      · subst heq
        by_cases hb : b = Memory.unlisted <;> simp [Memory.write, Memory.read, hb, hne.symm]
      · simp [Memory.write, Memory.read, hlt, heq, ih]

theorem Memory.read_write_same_from {m : Memory} {lo a : Nat} (b : Byte)
    (h : Memory.wfFrom lo m = true) : (m.write a b).read a = b := by
  induction m generalizing lo with
  | nil => by_cases hb : b = Memory.unlisted <;> simp [Memory.write, Memory.read, hb]
  | cons e m ih =>
    obtain ⟨k, d⟩ := e
    simp only [Memory.wfFrom, Bool.and_eq_true, decide_eq_true_eq] at h
    by_cases hlt : a < k
    · by_cases hb : b = Memory.unlisted
      · have hm := Memory.read_of_wfFrom_lt h.2 (a := a) (by omega)
        simp [Memory.write, Memory.read, hlt, hb, show k ≠ a by omega, hm]
      · simp [Memory.write, Memory.read, hlt, hb]
    · by_cases heq : a = k
      · subst heq
        by_cases hb : b = Memory.unlisted
        · have hm := Memory.read_of_wfFrom_lt h.2 (a := a) (by omega)
          simp [Memory.write, hb, hm]
        · simp [Memory.write, Memory.read, hb]
      · simp [Memory.write, Memory.read, hlt, heq, show k ≠ a by omega, ih h.2]

/-- A read after a write to the same address gives the byte written. -/
theorem Memory.read_write_same {m : Memory} {a : Nat} (b : Byte) (h : m.wf = true) :
    (m.write a b).read a = b :=
  Memory.read_write_same_from b h

/-- Two canonical memories that read alike everywhere are the same list. -/
theorem Memory.ext_of_wfFrom {m m' : Memory} {lo : Nat} (h : Memory.wfFrom lo m = true)
    (h' : Memory.wfFrom lo m' = true) (hr : ∀ a, lo ≤ a → m.read a = m'.read a) : m = m' := by
  induction m generalizing m' lo with
  | nil =>
    cases m' with
    | nil => rfl
    | cons e m' =>
      obtain ⟨k, b⟩ := e
      simp only [Memory.wfFrom, Bool.and_eq_true, decide_eq_true_eq, bne_iff_ne] at h'
      have := hr k h'.1.1.1
      simp only [Memory.read, if_true] at this
      exact absurd this.symm h'.1.2
  | cons e m ih =>
    obtain ⟨k, b⟩ := e
    have hm := h
    simp only [Memory.wfFrom, Bool.and_eq_true, decide_eq_true_eq, bne_iff_ne] at hm
    cases m' with
    | nil =>
      have := hr k hm.1.1.1
      simp only [Memory.read, if_true] at this
      exact absurd this hm.1.2
    | cons e' m' =>
      obtain ⟨k', b'⟩ := e'
      have hm' := h'
      simp only [Memory.wfFrom, Bool.and_eq_true, decide_eq_true_eq, bne_iff_ne] at hm'
      have hk : k = k' := by
        rcases Nat.lt_trichotomy k k' with hlt | heq | hgt
        · have := hr k hm.1.1.1
          rw [Memory.read_of_wfFrom_lt (m := (k', b') :: m') (lo := k')
            (by simp [Memory.wfFrom, hm']) hlt] at this
          simp only [Memory.read, if_true] at this
          exact absurd this hm.1.2
        · exact heq
        · have := hr k' hm'.1.1.1
          rw [Memory.read_of_wfFrom_lt (m := (k, b) :: m) (lo := k)
            (by simp [Memory.wfFrom, hm]) hgt] at this
          simp only [Memory.read, if_true] at this
          exact absurd this.symm hm'.1.2
      subst hk
      have hb : b = b' := by simpa [Memory.read] using hr k hm.1.1.1
      subst hb
      have htail : m = m' := by
        refine ih hm.2 hm'.2 fun a ha => ?_
        have := hr a (by omega)
        simpa [Memory.read, show k ≠ a by omega] using this
      rw [htail]

/-- Equal memories are equal data. -/
theorem Memory.ext_of_wf {m m' : Memory} (h : m.wf = true) (h' : m'.wf = true)
    (hr : ∀ a, m.read a = m'.read a) : m = m' :=
  Memory.ext_of_wfFrom h h' fun a _ => hr a

/-! ### The set of written addresses -/

theorem mem_addrInsert {l : List Nat} {a c : Nat} : c ∈ addrInsert l a ↔ c = a ∨ c ∈ l := by
  induction l with
  | nil => simp [addrInsert]
  | cons k l ih =>
    by_cases hlt : a < k
    · simp [addrInsert, hlt]
    · by_cases heq : a = k
      · subst heq; simp [addrInsert]
      · simp only [addrInsert, hlt, heq, if_false, List.mem_cons, ih]; tauto

theorem addrInsert_wfFrom {l : List Nat} {lo a : Nat} (h : addrsWfFrom lo l = true)
    (hlo : lo ≤ a) (ha : a < 4294967296) : addrsWfFrom lo (addrInsert l a) = true := by
  induction l generalizing lo with
  | nil => simp [addrInsert, addrsWfFrom, hlo, ha]
  | cons k l ih =>
    simp only [addrsWfFrom, Bool.and_eq_true, decide_eq_true_eq] at h
    by_cases hlt : a < k
    · simp_all [addrInsert, addrsWfFrom]
    · by_cases heq : a = k
      · simp_all [addrInsert, addrsWfFrom]
      · have hrec := ih h.2 (by omega)
        rw [addrInsert, if_neg hlt, if_neg heq]
        simp [addrsWfFrom, h.1.1, h.1.2, hrec]

/-- Adding an address keeps the canonical form. -/
theorem addrInsert_wf {l : List Nat} {a : Nat} (h : addrsWf l = true) (ha : a < 4294967296) :
    addrsWf (addrInsert l a) = true :=
  addrInsert_wfFrom h (Nat.zero_le a) ha

end Sys2Proof.Machine
end

