-- ==== Sys2Proof/Laws/State.lean ====
section
/-! SUPPORT. One lemma per field per update of the state, so that no later proof unfolds a record
update. -/

namespace Sys2Proof.Machine.State

variable (s : State)

/-! ### `writeGpr` -/

@[simp] theorem writeGpr_fpr (r : Reg) (v : Word) :
    (s.writeGpr r v).fpr = s.fpr := by unfold writeGpr; split <;> rfl
@[simp] theorem writeGpr_hi (r : Reg) (v : Word) :
    (s.writeGpr r v).hi = s.hi := by unfold writeGpr; split <;> rfl
@[simp] theorem writeGpr_lo (r : Reg) (v : Word) :
    (s.writeGpr r v).lo = s.lo := by unfold writeGpr; split <;> rfl
@[simp] theorem writeGpr_cc (r : Reg) (v : Word) :
    (s.writeGpr r v).cc = s.cc := by unfold writeGpr; split <;> rfl
@[simp] theorem writeGpr_pc (r : Reg) (v : Word) :
    (s.writeGpr r v).pc = s.pc := by unfold writeGpr; split <;> rfl
@[simp] theorem writeGpr_npc (r : Reg) (v : Word) :
    (s.writeGpr r v).npc = s.npc := by unfold writeGpr; split <;> rfl
@[simp] theorem writeGpr_instrCounter (r : Reg) (v : Word) :
    (s.writeGpr r v).instrCounter = s.instrCounter := by unfold writeGpr; split <;> rfl
@[simp] theorem writeGpr_halted (r : Reg) (v : Word) :
    (s.writeGpr r v).halted = s.halted := by unfold writeGpr; split <;> rfl
@[simp] theorem writeGpr_mem (r : Reg) (v : Word) :
    (s.writeGpr r v).mem = s.mem := by unfold writeGpr; split <;> rfl
@[simp] theorem writeGpr_image (r : Reg) (v : Word) :
    (s.writeGpr r v).image = s.image := by unfold writeGpr; split <;> rfl
@[simp] theorem writeGpr_written (r : Reg) (v : Word) :
    (s.writeGpr r v).written = s.written := by unfold writeGpr; split <;> rfl
@[simp] theorem writeGpr_outcome (r : Reg) (v : Word) :
    (s.writeGpr r v).outcome = s.outcome := by unfold writeGpr; split <;> rfl
@[simp] theorem writeGpr_fetchAddr (r : Reg) (v : Word) :
    (s.writeGpr r v).fetchAddr = s.fetchAddr := by unfold writeGpr; split <;> rfl
@[simp] theorem writeGpr_draws (r : Reg) (v : Word) :
    (s.writeGpr r v).draws = s.draws := by unfold writeGpr; split <;> rfl
@[simp] theorem writeGpr_params (r : Reg) (v : Word) :
    (s.writeGpr r v).params = s.params := by unfold writeGpr; split <;> rfl

/-! ### `writeSlot` -/

@[simp] theorem writeSlot_gpr (n : Slot) (v : Word) : (s.writeSlot n v).gpr = s.gpr := rfl
@[simp] theorem writeSlot_fpr (n : Slot) (v : Word) : (s.writeSlot n v).fpr = s.fpr.set n v := rfl
@[simp] theorem writeSlot_hi (n : Slot) (v : Word) : (s.writeSlot n v).hi = s.hi := rfl
@[simp] theorem writeSlot_lo (n : Slot) (v : Word) : (s.writeSlot n v).lo = s.lo := rfl
@[simp] theorem writeSlot_cc (n : Slot) (v : Word) : (s.writeSlot n v).cc = s.cc := rfl
@[simp] theorem writeSlot_pc (n : Slot) (v : Word) : (s.writeSlot n v).pc = s.pc := rfl
@[simp] theorem writeSlot_npc (n : Slot) (v : Word) : (s.writeSlot n v).npc = s.npc := rfl
@[simp] theorem writeSlot_instrCounter (n : Slot) (v : Word) :
    (s.writeSlot n v).instrCounter = s.instrCounter := rfl
@[simp] theorem writeSlot_halted (n : Slot) (v : Word) : (s.writeSlot n v).halted = s.halted := rfl
@[simp] theorem writeSlot_mem (n : Slot) (v : Word) : (s.writeSlot n v).mem = s.mem := rfl
@[simp] theorem writeSlot_image (n : Slot) (v : Word) : (s.writeSlot n v).image = s.image := rfl
@[simp] theorem writeSlot_written (n : Slot) (v : Word) :
    (s.writeSlot n v).written = s.written := rfl
@[simp] theorem writeSlot_outcome (n : Slot) (v : Word) :
    (s.writeSlot n v).outcome = s.outcome := rfl
@[simp] theorem writeSlot_fetchAddr (n : Slot) (v : Word) :
    (s.writeSlot n v).fetchAddr = s.fetchAddr := rfl
@[simp] theorem writeSlot_draws (n : Slot) (v : Word) : (s.writeSlot n v).draws = s.draws := rfl
@[simp] theorem writeSlot_params (n : Slot) (v : Word) : (s.writeSlot n v).params = s.params := rfl

/-! ### `writeHi` -/

@[simp] theorem writeHi_gpr (v : Word) : (s.writeHi v).gpr = s.gpr := rfl
@[simp] theorem writeHi_fpr (v : Word) : (s.writeHi v).fpr = s.fpr := rfl
@[simp] theorem writeHi_hi (v : Word) : (s.writeHi v).hi = v := rfl
@[simp] theorem writeHi_lo (v : Word) : (s.writeHi v).lo = s.lo := rfl
@[simp] theorem writeHi_cc (v : Word) : (s.writeHi v).cc = s.cc := rfl
@[simp] theorem writeHi_pc (v : Word) : (s.writeHi v).pc = s.pc := rfl
@[simp] theorem writeHi_npc (v : Word) : (s.writeHi v).npc = s.npc := rfl
@[simp] theorem writeHi_instrCounter (v : Word) : (s.writeHi v).instrCounter = s.instrCounter := rfl
@[simp] theorem writeHi_halted (v : Word) : (s.writeHi v).halted = s.halted := rfl
@[simp] theorem writeHi_mem (v : Word) : (s.writeHi v).mem = s.mem := rfl
@[simp] theorem writeHi_image (v : Word) : (s.writeHi v).image = s.image := rfl
@[simp] theorem writeHi_written (v : Word) : (s.writeHi v).written = s.written := rfl
@[simp] theorem writeHi_outcome (v : Word) : (s.writeHi v).outcome = s.outcome := rfl
@[simp] theorem writeHi_fetchAddr (v : Word) : (s.writeHi v).fetchAddr = s.fetchAddr := rfl
@[simp] theorem writeHi_draws (v : Word) : (s.writeHi v).draws = s.draws := rfl
@[simp] theorem writeHi_params (v : Word) : (s.writeHi v).params = s.params := rfl

/-! ### `writeLo` -/

@[simp] theorem writeLo_gpr (v : Word) : (s.writeLo v).gpr = s.gpr := rfl
@[simp] theorem writeLo_fpr (v : Word) : (s.writeLo v).fpr = s.fpr := rfl
@[simp] theorem writeLo_hi (v : Word) : (s.writeLo v).hi = s.hi := rfl
@[simp] theorem writeLo_lo (v : Word) : (s.writeLo v).lo = v := rfl
@[simp] theorem writeLo_cc (v : Word) : (s.writeLo v).cc = s.cc := rfl
@[simp] theorem writeLo_pc (v : Word) : (s.writeLo v).pc = s.pc := rfl
@[simp] theorem writeLo_npc (v : Word) : (s.writeLo v).npc = s.npc := rfl
@[simp] theorem writeLo_instrCounter (v : Word) : (s.writeLo v).instrCounter = s.instrCounter := rfl
@[simp] theorem writeLo_halted (v : Word) : (s.writeLo v).halted = s.halted := rfl
@[simp] theorem writeLo_mem (v : Word) : (s.writeLo v).mem = s.mem := rfl
@[simp] theorem writeLo_image (v : Word) : (s.writeLo v).image = s.image := rfl
@[simp] theorem writeLo_written (v : Word) : (s.writeLo v).written = s.written := rfl
@[simp] theorem writeLo_outcome (v : Word) : (s.writeLo v).outcome = s.outcome := rfl
@[simp] theorem writeLo_fetchAddr (v : Word) : (s.writeLo v).fetchAddr = s.fetchAddr := rfl
@[simp] theorem writeLo_draws (v : Word) : (s.writeLo v).draws = s.draws := rfl
@[simp] theorem writeLo_params (v : Word) : (s.writeLo v).params = s.params := rfl

/-! ### `writeCc` -/

@[simp] theorem writeCc_gpr (c : Bool) : (s.writeCc c).gpr = s.gpr := rfl
@[simp] theorem writeCc_fpr (c : Bool) : (s.writeCc c).fpr = s.fpr := rfl
@[simp] theorem writeCc_hi (c : Bool) : (s.writeCc c).hi = s.hi := rfl
@[simp] theorem writeCc_lo (c : Bool) : (s.writeCc c).lo = s.lo := rfl
@[simp] theorem writeCc_cc (c : Bool) : (s.writeCc c).cc = c := rfl
@[simp] theorem writeCc_pc (c : Bool) : (s.writeCc c).pc = s.pc := rfl
@[simp] theorem writeCc_npc (c : Bool) : (s.writeCc c).npc = s.npc := rfl
@[simp] theorem writeCc_instrCounter (c : Bool) : (s.writeCc c).instrCounter = s.instrCounter := rfl
@[simp] theorem writeCc_halted (c : Bool) : (s.writeCc c).halted = s.halted := rfl
@[simp] theorem writeCc_mem (c : Bool) : (s.writeCc c).mem = s.mem := rfl
@[simp] theorem writeCc_image (c : Bool) : (s.writeCc c).image = s.image := rfl
@[simp] theorem writeCc_written (c : Bool) : (s.writeCc c).written = s.written := rfl
@[simp] theorem writeCc_outcome (c : Bool) : (s.writeCc c).outcome = s.outcome := rfl
@[simp] theorem writeCc_fetchAddr (c : Bool) : (s.writeCc c).fetchAddr = s.fetchAddr := rfl
@[simp] theorem writeCc_draws (c : Bool) : (s.writeCc c).draws = s.draws := rfl
@[simp] theorem writeCc_params (c : Bool) : (s.writeCc c).params = s.params := rfl

/-! ### `redirect` -/

@[simp] theorem redirect_gpr (target : Word) : (s.redirect target).gpr = s.gpr := rfl
@[simp] theorem redirect_fpr (target : Word) : (s.redirect target).fpr = s.fpr := rfl
@[simp] theorem redirect_hi (target : Word) : (s.redirect target).hi = s.hi := rfl
@[simp] theorem redirect_lo (target : Word) : (s.redirect target).lo = s.lo := rfl
@[simp] theorem redirect_cc (target : Word) : (s.redirect target).cc = s.cc := rfl
@[simp] theorem redirect_pc (target : Word) : (s.redirect target).pc = s.pc := rfl
@[simp] theorem redirect_npc (target : Word) : (s.redirect target).npc = target := rfl
@[simp] theorem redirect_instrCounter (target : Word) :
    (s.redirect target).instrCounter = s.instrCounter := rfl
@[simp] theorem redirect_halted (target : Word) : (s.redirect target).halted = s.halted := rfl
@[simp] theorem redirect_mem (target : Word) : (s.redirect target).mem = s.mem := rfl
@[simp] theorem redirect_image (target : Word) : (s.redirect target).image = s.image := rfl
@[simp] theorem redirect_written (target : Word) : (s.redirect target).written = s.written := rfl
@[simp] theorem redirect_outcome (target : Word) : (s.redirect target).outcome = s.outcome := rfl
@[simp] theorem redirect_fetchAddr (target : Word) :
    (s.redirect target).fetchAddr = s.fetchAddr := rfl
@[simp] theorem redirect_draws (target : Word) : (s.redirect target).draws = s.draws := rfl
@[simp] theorem redirect_params (target : Word) : (s.redirect target).params = s.params := rfl

/-! ### `draw` -/

@[simp] theorem draw_gpr : s.draw.gpr = s.gpr := rfl
@[simp] theorem draw_fpr : s.draw.fpr = s.fpr := rfl
@[simp] theorem draw_hi : s.draw.hi = s.hi := rfl
@[simp] theorem draw_lo : s.draw.lo = s.lo := rfl
@[simp] theorem draw_cc : s.draw.cc = s.cc := rfl
@[simp] theorem draw_pc : s.draw.pc = s.pc := rfl
@[simp] theorem draw_npc : s.draw.npc = s.npc := rfl
@[simp] theorem draw_instrCounter : s.draw.instrCounter = s.instrCounter := rfl
@[simp] theorem draw_halted : s.draw.halted = s.halted := rfl
@[simp] theorem draw_mem : s.draw.mem = s.mem := rfl
@[simp] theorem draw_image : s.draw.image = s.image := rfl
@[simp] theorem draw_written : s.draw.written = s.written := rfl
@[simp] theorem draw_outcome : s.draw.outcome = s.outcome := rfl
@[simp] theorem draw_fetchAddr : s.draw.fetchAddr = s.fetchAddr := rfl
@[simp] theorem draw_draws : s.draw.draws = s.draws + 1 := rfl
@[simp] theorem draw_params : s.draw.params = s.params := rfl

/-! ### `writeByte` -/

@[simp] theorem writeByte_gpr (a : Word) (b : Byte) : (s.writeByte a b).gpr = s.gpr := rfl
@[simp] theorem writeByte_fpr (a : Word) (b : Byte) : (s.writeByte a b).fpr = s.fpr := rfl
@[simp] theorem writeByte_hi (a : Word) (b : Byte) : (s.writeByte a b).hi = s.hi := rfl
@[simp] theorem writeByte_lo (a : Word) (b : Byte) : (s.writeByte a b).lo = s.lo := rfl
@[simp] theorem writeByte_cc (a : Word) (b : Byte) : (s.writeByte a b).cc = s.cc := rfl
@[simp] theorem writeByte_pc (a : Word) (b : Byte) : (s.writeByte a b).pc = s.pc := rfl
@[simp] theorem writeByte_npc (a : Word) (b : Byte) : (s.writeByte a b).npc = s.npc := rfl
@[simp] theorem writeByte_instrCounter (a : Word) (b : Byte) :
    (s.writeByte a b).instrCounter = s.instrCounter := rfl
@[simp] theorem writeByte_halted (a : Word) (b : Byte) : (s.writeByte a b).halted = s.halted := rfl
@[simp] theorem writeByte_mem (a : Word) (b : Byte) :
    (s.writeByte a b).mem = s.mem.write a.toNat b := rfl
@[simp] theorem writeByte_image (a : Word) (b : Byte) : (s.writeByte a b).image = s.image := rfl
@[simp] theorem writeByte_written (a : Word) (b : Byte) :
    (s.writeByte a b).written = addrInsert s.written a.toNat := rfl
@[simp] theorem writeByte_outcome (a : Word) (b : Byte) :
    (s.writeByte a b).outcome = s.outcome := rfl
@[simp] theorem writeByte_fetchAddr (a : Word) (b : Byte) :
    (s.writeByte a b).fetchAddr = s.fetchAddr := rfl
@[simp] theorem writeByte_draws (a : Word) (b : Byte) : (s.writeByte a b).draws = s.draws := rfl
@[simp] theorem writeByte_params (a : Word) (b : Byte) : (s.writeByte a b).params = s.params := rfl

/-! ### `genericStep` -/

@[simp] theorem genericStep_gpr : s.genericStep.gpr = s.gpr := rfl
@[simp] theorem genericStep_fpr : s.genericStep.fpr = s.fpr := rfl
@[simp] theorem genericStep_hi : s.genericStep.hi = s.hi := rfl
@[simp] theorem genericStep_lo : s.genericStep.lo = s.lo := rfl
@[simp] theorem genericStep_cc : s.genericStep.cc = s.cc := rfl
@[simp] theorem genericStep_pc : s.genericStep.pc = s.npc := rfl
@[simp] theorem genericStep_npc : s.genericStep.npc = s.npc + 4#32 := rfl
@[simp] theorem genericStep_instrCounter : s.genericStep.instrCounter = s.instrCounter + 1 := rfl
@[simp] theorem genericStep_halted : s.genericStep.halted = s.halted := rfl
@[simp] theorem genericStep_mem : s.genericStep.mem = s.mem := rfl
@[simp] theorem genericStep_image : s.genericStep.image = s.image := rfl
@[simp] theorem genericStep_written : s.genericStep.written = s.written := rfl
@[simp] theorem genericStep_outcome : s.genericStep.outcome = .completed := rfl
@[simp] theorem genericStep_fetchAddr : s.genericStep.fetchAddr = s.pc := rfl
@[simp] theorem genericStep_draws : s.genericStep.draws = s.draws := rfl
@[simp] theorem genericStep_params : s.genericStep.params = s.params := rfl

/-! ### `applyReset` -/

@[simp] theorem applyReset_gpr : s.applyReset.gpr = Vector.replicate 32 0#32 := rfl
@[simp] theorem applyReset_fpr : s.applyReset.fpr = s.fpr := rfl
@[simp] theorem applyReset_hi : s.applyReset.hi = 0#32 := rfl
@[simp] theorem applyReset_lo : s.applyReset.lo = 0#32 := rfl
@[simp] theorem applyReset_cc : s.applyReset.cc = s.cc := rfl
@[simp] theorem applyReset_pc : s.applyReset.pc = s.params.entryPc := rfl
@[simp] theorem applyReset_npc : s.applyReset.npc = s.params.entryPc + 4#32 := rfl
@[simp] theorem applyReset_instrCounter : s.applyReset.instrCounter = 0 := rfl
@[simp] theorem applyReset_halted : s.applyReset.halted = false := rfl
@[simp] theorem applyReset_mem : s.applyReset.mem = s.mem := rfl
@[simp] theorem applyReset_image : s.applyReset.image = s.mem := rfl
@[simp] theorem applyReset_written : s.applyReset.written = [] := rfl
@[simp] theorem applyReset_outcome : s.applyReset.outcome = .completed := rfl
@[simp] theorem applyReset_fetchAddr : s.applyReset.fetchAddr = s.params.entryPc := rfl
@[simp] theorem applyReset_draws : s.applyReset.draws = s.draws := rfl
@[simp] theorem applyReset_params : s.applyReset.params = s.params := rfl

/-! ### `writeHalf` -/

@[simp] theorem writeHalf_gpr (a : Word) (v : Half) :
    (s.writeHalf a v).gpr = s.gpr := rfl
@[simp] theorem writeHalf_fpr (a : Word) (v : Half) :
    (s.writeHalf a v).fpr = s.fpr := rfl
@[simp] theorem writeHalf_hi (a : Word) (v : Half) :
    (s.writeHalf a v).hi = s.hi := rfl
@[simp] theorem writeHalf_lo (a : Word) (v : Half) :
    (s.writeHalf a v).lo = s.lo := rfl
@[simp] theorem writeHalf_cc (a : Word) (v : Half) :
    (s.writeHalf a v).cc = s.cc := rfl
@[simp] theorem writeHalf_pc (a : Word) (v : Half) :
    (s.writeHalf a v).pc = s.pc := rfl
@[simp] theorem writeHalf_npc (a : Word) (v : Half) :
    (s.writeHalf a v).npc = s.npc := rfl
@[simp] theorem writeHalf_instrCounter (a : Word) (v : Half) :
    (s.writeHalf a v).instrCounter = s.instrCounter := rfl
@[simp] theorem writeHalf_halted (a : Word) (v : Half) :
    (s.writeHalf a v).halted = s.halted := rfl
@[simp] theorem writeHalf_image (a : Word) (v : Half) :
    (s.writeHalf a v).image = s.image := rfl
@[simp] theorem writeHalf_outcome (a : Word) (v : Half) :
    (s.writeHalf a v).outcome = s.outcome := rfl
@[simp] theorem writeHalf_fetchAddr (a : Word) (v : Half) :
    (s.writeHalf a v).fetchAddr = s.fetchAddr := rfl
@[simp] theorem writeHalf_draws (a : Word) (v : Half) :
    (s.writeHalf a v).draws = s.draws := rfl
@[simp] theorem writeHalf_params (a : Word) (v : Half) :
    (s.writeHalf a v).params = s.params := rfl

/-! ### `writeWord` -/

@[simp] theorem writeWord_gpr (a v : Word) :
    (s.writeWord a v).gpr = s.gpr := rfl
@[simp] theorem writeWord_fpr (a v : Word) :
    (s.writeWord a v).fpr = s.fpr := rfl
@[simp] theorem writeWord_hi (a v : Word) :
    (s.writeWord a v).hi = s.hi := rfl
@[simp] theorem writeWord_lo (a v : Word) :
    (s.writeWord a v).lo = s.lo := rfl
@[simp] theorem writeWord_cc (a v : Word) :
    (s.writeWord a v).cc = s.cc := rfl
@[simp] theorem writeWord_pc (a v : Word) :
    (s.writeWord a v).pc = s.pc := rfl
@[simp] theorem writeWord_npc (a v : Word) :
    (s.writeWord a v).npc = s.npc := rfl
@[simp] theorem writeWord_instrCounter (a v : Word) :
    (s.writeWord a v).instrCounter = s.instrCounter := rfl
@[simp] theorem writeWord_halted (a v : Word) :
    (s.writeWord a v).halted = s.halted := rfl
@[simp] theorem writeWord_image (a v : Word) :
    (s.writeWord a v).image = s.image := rfl
@[simp] theorem writeWord_outcome (a v : Word) :
    (s.writeWord a v).outcome = s.outcome := rfl
@[simp] theorem writeWord_fetchAddr (a v : Word) :
    (s.writeWord a v).fetchAddr = s.fetchAddr := rfl
@[simp] theorem writeWord_draws (a v : Word) :
    (s.writeWord a v).draws = s.draws := rfl
@[simp] theorem writeWord_params (a v : Word) :
    (s.writeWord a v).params = s.params := rfl

/-! ### `writePair` -/

@[simp] theorem writePair_gpr (n : Slot) (v : Double) :
    (s.writePair n v).gpr = s.gpr := rfl
@[simp] theorem writePair_hi (n : Slot) (v : Double) :
    (s.writePair n v).hi = s.hi := rfl
@[simp] theorem writePair_lo (n : Slot) (v : Double) :
    (s.writePair n v).lo = s.lo := rfl
@[simp] theorem writePair_cc (n : Slot) (v : Double) :
    (s.writePair n v).cc = s.cc := rfl
@[simp] theorem writePair_pc (n : Slot) (v : Double) :
    (s.writePair n v).pc = s.pc := rfl
@[simp] theorem writePair_npc (n : Slot) (v : Double) :
    (s.writePair n v).npc = s.npc := rfl
@[simp] theorem writePair_instrCounter (n : Slot) (v : Double) :
    (s.writePair n v).instrCounter = s.instrCounter := rfl
@[simp] theorem writePair_halted (n : Slot) (v : Double) :
    (s.writePair n v).halted = s.halted := rfl
@[simp] theorem writePair_mem (n : Slot) (v : Double) :
    (s.writePair n v).mem = s.mem := rfl
@[simp] theorem writePair_image (n : Slot) (v : Double) :
    (s.writePair n v).image = s.image := rfl
@[simp] theorem writePair_written (n : Slot) (v : Double) :
    (s.writePair n v).written = s.written := rfl
@[simp] theorem writePair_outcome (n : Slot) (v : Double) :
    (s.writePair n v).outcome = s.outcome := rfl
@[simp] theorem writePair_fetchAddr (n : Slot) (v : Double) :
    (s.writePair n v).fetchAddr = s.fetchAddr := rfl
@[simp] theorem writePair_draws (n : Slot) (v : Double) :
    (s.writePair n v).draws = s.draws := rfl
@[simp] theorem writePair_params (n : Slot) (v : Double) :
    (s.writePair n v).params = s.params := rfl

end Sys2Proof.Machine.State
end

