-- ==== Sys2Proof/Laws/Registers.lean ====
section
/-! SUPPORT. Read after write for registers, slots, pairs and bytes: one lemma per accessor and
update. -/

namespace Sys2Proof.Machine.State

variable (s : State)

/-! ### General registers -/

@[simp] theorem readGpr_zero : s.readGpr 0 = 0#32 := rfl

@[simp] theorem writeGpr_zero (v : Word) : s.writeGpr 0 v = s := rfl

theorem writeGpr_of_ne_zero {r : Reg} (hr : r ≠ 0) (v : Word) :
    s.writeGpr r v = { s with gpr := s.gpr.set r v } := if_neg hr

theorem readGpr_writeGpr_same {r : Reg} (hr : r ≠ 0) (v : Word) :
    (s.writeGpr r v).readGpr r = v := by
  simp [readGpr, writeGpr, hr]

theorem readGpr_writeGpr_other {r q : Reg} (hne : q ≠ r) (v : Word) :
    (s.writeGpr r v).readGpr q = s.readGpr q := by
  have : (r : Nat) ≠ q := fun h => hne (Fin.ext h.symm)
  unfold readGpr writeGpr
  split <;> [rfl; (split <;> [rfl; simp [this]])]

/-- What a read gives after a write, whichever registers they name (10_state.md R21). -/
theorem readGpr_writeGpr (r q : Reg) (v : Word) :
    (s.writeGpr r v).readGpr q = if q = r ∧ r ≠ 0 then v else s.readGpr q := by
  by_cases hr : r = 0
  · simp [hr]
  · by_cases hq : q = r
    · subst hq; simp [readGpr_writeGpr_same, hr]
    · simp [readGpr_writeGpr_other, hq]

@[simp] theorem readGpr_writeSlot (n : Slot) (v : Word) (r : Reg) :
    (s.writeSlot n v).readGpr r = s.readGpr r := rfl
@[simp] theorem readGpr_writeHi (v : Word) (r : Reg) : (s.writeHi v).readGpr r = s.readGpr r := rfl
@[simp] theorem readGpr_writeLo (v : Word) (r : Reg) : (s.writeLo v).readGpr r = s.readGpr r := rfl
@[simp] theorem readGpr_writeCc (c : Bool) (r : Reg) : (s.writeCc c).readGpr r = s.readGpr r := rfl
@[simp] theorem readGpr_redirect (t : Word) (r : Reg) :
    (s.redirect t).readGpr r = s.readGpr r := rfl
@[simp] theorem readGpr_draw (r : Reg) : s.draw.readGpr r = s.readGpr r := rfl
@[simp] theorem readGpr_writeByte (a : Word) (b : Byte) (r : Reg) :
    (s.writeByte a b).readGpr r = s.readGpr r := rfl
@[simp] theorem readGpr_writeHalf (a : Word) (v : Half) (r : Reg) :
    (s.writeHalf a v).readGpr r = s.readGpr r := rfl
@[simp] theorem readGpr_writeWord (a v : Word) (r : Reg) :
    (s.writeWord a v).readGpr r = s.readGpr r := rfl
@[simp] theorem readGpr_genericStep (r : Reg) : s.genericStep.readGpr r = s.readGpr r := rfl

/-! ### Floating-point slots and pairs -/

/-- What a slot reads after a write to a slot (10_state.md R25). -/
theorem readSlot_writeSlot (n m : Slot) (v : Word) :
    (s.writeSlot n v).readSlot m = if m = n then v else s.readSlot m := by
  by_cases h : m = n
  · subst h; simp [readSlot, writeSlot]
  · have : (n : Nat) ≠ m := fun e => h (Fin.ext e.symm)
    simp [readSlot, writeSlot, this, h]

@[simp] theorem readSlot_writeGpr (r : Reg) (v : Word) (n : Slot) :
    (s.writeGpr r v).readSlot n = s.readSlot n := by simp [readSlot]
@[simp] theorem readSlot_writeHi (v : Word) (n : Slot) : (s.writeHi v).readSlot n = s.readSlot n := rfl
@[simp] theorem readSlot_writeLo (v : Word) (n : Slot) : (s.writeLo v).readSlot n = s.readSlot n := rfl
@[simp] theorem readSlot_writeCc (c : Bool) (n : Slot) : (s.writeCc c).readSlot n = s.readSlot n := rfl
@[simp] theorem readSlot_redirect (t : Word) (n : Slot) :
    (s.redirect t).readSlot n = s.readSlot n := rfl
@[simp] theorem readSlot_draw (n : Slot) : s.draw.readSlot n = s.readSlot n := rfl
@[simp] theorem readSlot_writeByte (a : Word) (b : Byte) (n : Slot) :
    (s.writeByte a b).readSlot n = s.readSlot n := rfl
@[simp] theorem readSlot_writeWord (a v : Word) (n : Slot) :
    (s.writeWord a v).readSlot n = s.readSlot n := rfl
@[simp] theorem readSlot_genericStep (n : Slot) : s.genericStep.readSlot n = s.readSlot n := rfl

theorem succ_ne_of_pair {n : Slot} (h : pairExists n = true) : n + 1 ≠ n ∧ n ≠ n + 1 := by
  revert n; decide

/-- A pair reads back what was written to it (10_state.md R26). -/
theorem readPair_writePair_same {n : Slot} (h : pairExists n = true) (v : Double) :
    (s.writePair n v).readPair n = v := by
  have hn := succ_ne_of_pair h
  simp only [readPair, writePair, readSlot_writeSlot, if_true, if_neg hn.1]
  ext i hi
  simp only [BitVec.getElem_append, BitVec.getElem_extractLsb']
  split
  · simp [BitVec.getLsbD_eq_getElem (x := v) hi]
  · next hlt => simp [show 32 + (i - 32) = i by omega, BitVec.getLsbD_eq_getElem (x := v) hi]

/-- A pair write leaves every slot outside the pair alone (10_state.md R26). -/
theorem readSlot_writePair_other {n m : Slot} (h1 : m ≠ n) (h2 : m ≠ n + 1) (v : Double) :
    (s.writePair n v).readSlot m = s.readSlot m := by
  simp [writePair, readSlot_writeSlot, h1, h2]

@[simp] theorem readGpr_writePair (n : Slot) (v : Double) (r : Reg) :
    (s.writePair n v).readGpr r = s.readGpr r := rfl

/-! ### Bytes of memory -/

@[simp] theorem readByte_writeGpr (r : Reg) (v a : Word) :
    (s.writeGpr r v).readByte a = s.readByte a := by simp [readByte]
@[simp] theorem readByte_writeSlot (n : Slot) (v a : Word) :
    (s.writeSlot n v).readByte a = s.readByte a := rfl
@[simp] theorem readByte_writePair (n : Slot) (v : Double) (a : Word) :
    (s.writePair n v).readByte a = s.readByte a := rfl
@[simp] theorem readByte_writeHi (v a : Word) : (s.writeHi v).readByte a = s.readByte a := rfl
@[simp] theorem readByte_writeLo (v a : Word) : (s.writeLo v).readByte a = s.readByte a := rfl
@[simp] theorem readByte_writeCc (c : Bool) (a : Word) : (s.writeCc c).readByte a = s.readByte a := rfl
@[simp] theorem readByte_redirect (t a : Word) : (s.redirect t).readByte a = s.readByte a := rfl
@[simp] theorem readByte_draw (a : Word) : s.draw.readByte a = s.readByte a := rfl
@[simp] theorem readByte_genericStep (a : Word) : s.genericStep.readByte a = s.readByte a := rfl

end Sys2Proof.Machine.State
end

