-- ==== Sys2Proof/Laws/Ops.lean ====
section
/-! SUPPORT. For each shared operation of Machine/Ops.lean and Machine/Operands.lean, one lemma that
says once everything it can do; callers cite it instead of unfolding the operation. -/

namespace Sys2Proof.Machine

/-! ### Faults and checks -/

/-- Raising a fault always answers a next state, this one. -/
theorem raise_eq (r : FaultReason) (s : State) :
    raise r s = .next { s with halted := true, outcome := .fault r } := rfl

theorem raise_next {r : FaultReason} {s t : State} (h : raise r s = .next t) :
    t = { s with halted := true, outcome := .fault r } := by
  simpa [raise, eq_comm] using h

theorem access_of_mapped {s : State} {a : Word} {n : Nat} (hm : s.mappedRange a n = true)
    (go : Result) : s.access a n go = go := if_pos hm

/-- An access either goes on, or is stuck outside MEM_MAP. -/
theorem access_cases (s : State) (a : Word) (n : Nat) (go : Result) :
    (s.mappedRange a n = true ∧ s.access a n go = go) ∨
      (s.mappedRange a n = false ∧ s.access a n go = .fault .unmapped) := by
  cases h : s.mappedRange a n <;> simp [State.access, h]

theorem wordAccess_of_aligned {s : State} {a : Word} {n : Nat} (ha : wordAligned a = true)
    (hm : s.mappedRange a n = true) (go : Result) : s.wordAccess a n go = go := by
  simp [State.wordAccess, State.access, ha, hm]

/-- A word access goes on, raises `AddressError`, or is stuck. -/
theorem wordAccess_cases (s : State) (a : Word) (n : Nat) (go : Result) :
    (wordAligned a = true ∧ s.mappedRange a n = true ∧ s.wordAccess a n go = go) ∨
      (wordAligned a = true ∧ s.mappedRange a n = false ∧ s.wordAccess a n go = .fault .unmapped) ∨
      (wordAligned a = false ∧ s.wordAccess a n go = raise .addressError s) := by
  cases ha : wordAligned a <;> cases hm : s.mappedRange a n <;>
    simp [State.wordAccess, State.access, ha, hm]

/-- A pair check goes on, or raises `ReservedInstruction` for pair 31. -/
theorem withPair_cases (s : State) (n : Slot) (go : Result) :
    (n ≠ 31 ∧ s.withPair n go = go) ∨
      (n = 31 ∧ s.withPair n go = raise .reservedInstruction s) := by
  by_cases h : n = 31 <;> simp [State.withPair, pairExists, h]

theorem withPair_of_ne {s : State} {n : Slot} (h : n ≠ 31) (go : Result) :
    s.withPair n go = go := by
  simp [State.withPair, pairExists, h]

theorem withPairs_of_ne {s : State} {m n : Slot} (hm : m ≠ 31) (hn : n ≠ 31) (go : Result) :
    s.withPairs m n go = go := by
  rw [State.withPairs, withPair_of_ne hm, withPair_of_ne hn]

/-- Two pair checks go on, or raise `ReservedInstruction`. -/
theorem withPairs_cases (s : State) (m n : Slot) (go : Result) :
    (m ≠ 31 ∧ n ≠ 31 ∧ s.withPairs m n go = go) ∨
      ((m = 31 ∨ n = 31) ∧ s.withPairs m n go = raise .reservedInstruction s) := by
  by_cases h : m = 31 <;> by_cases h' : n = 31 <;>
    simp [State.withPairs, State.withPair, pairExists, h, h']

/-! ### What operands and checks depend on -/

/-- MEM_MAP is a parameter, so a check depends on the parameters alone. -/
theorem mappedRange_congr {s t : State} (h : t.params = s.params) (a : Word) (n : Nat) :
    t.mappedRange a n = s.mappedRange a n := by
  simp [State.mappedRange, State.mapped, h]

/-- An effective address depends on its base register alone. -/
theorem effAddr_congr {s t : State} {base : Reg} (h : t.readGpr base = s.readGpr base)
    (offset : BitVec 16) : t.effAddr base offset = s.effAddr base offset := by
  simp [State.effAddr, h]

/-- A word read depends on the bytes of memory alone. -/
theorem readWord_congr {s t : State} (h : ∀ c, t.readByte c = s.readByte c) (a : Word) :
    t.readWord a = s.readWord a := by
  simp [State.readWord, h]

/-! ### Alignment -/

theorem wordAligned_iff (a : Word) : wordAligned a = true ↔ a.toNat % 4 = 0 := by
  simp [wordAligned, ← BitVec.toNat_inj]

/-! ### Stores -/

/-- A byte store: the byte there, every other byte kept (20_memory.md R52). -/
theorem readByte_writeByte {s : State} (hwf : s.mem.wf = true) (a c : Word) (b : Byte) :
    (s.writeByte a b).readByte c = if c = a then b else s.readByte c := by
  by_cases h : c = a
  · subst h; simp [State.readByte, Memory.read_write_same b hwf]
  · have hne : c.toNat ≠ a.toNat := fun e => h (BitVec.eq_of_toNat_eq e)
    simp [State.readByte, Memory.read_write_other b hne, h]

theorem readByte_writeByte_other {s : State} {a c : Word} (b : Byte) (h : c ≠ a) :
    (s.writeByte a b).readByte c = s.readByte c := by
  have hne : c.toNat ≠ a.toNat := fun e => h (BitVec.eq_of_toNat_eq e)
  simp [State.readByte, Memory.read_write_other b hne]

@[simp] theorem writeByte_mem_wf {s : State} (hwf : s.mem.wf = true) (a : Word) (b : Byte) :
    (s.writeByte a b).mem.wf = true := Memory.write_wf b hwf a.isLt

@[simp] theorem writeByte_written_wf {s : State} (hwf : addrsWf s.written = true) (a : Word)
    (b : Byte) : addrsWf (s.writeByte a b).written = true := addrInsert_wf hwf a.isLt

/-- The addresses written after a byte store. -/
theorem mem_writeByte_written (s : State) (a : Word) (b : Byte) (k : Nat) :
    k ∈ (s.writeByte a b).written ↔ k = a.toNat ∨ k ∈ s.written := by
  simp [mem_addrInsert]

/-- A word store keeps every byte outside the four stored ones. -/
theorem readByte_writeWord_other {s : State} {a c : Word} (v : Word) (h0 : c ≠ a)
    (h1 : c ≠ a + 1#32) (h2 : c ≠ a + 2#32) (h3 : c ≠ a + 3#32) :
    (s.writeWord a v).readByte c = s.readByte c := by
  simp [State.writeWord, readByte_writeByte_other, h0, h1, h2, h3]

theorem readByte_writeHalf_other {s : State} {a c : Word} (v : Half) (h0 : c ≠ a)
    (h1 : c ≠ a + 1#32) : (s.writeHalf a v).readByte c = s.readByte c := by
  simp [State.writeHalf, readByte_writeByte_other, h0, h1]

theorem add_const_ne (a : Word) :
    a ≠ a + 1#32 ∧ a ≠ a + 2#32 ∧ a ≠ a + 3#32 ∧ a + 1#32 ≠ a + 2#32 ∧ a + 1#32 ≠ a + 3#32 ∧
      a + 2#32 ≠ a + 3#32 := by
  refine ⟨?_, ?_, ?_, ?_, ?_, ?_⟩ <;> bv_omega

/-- The four bytes after a word store, most significant first (20_memory.md R52). -/
theorem readByte_writeWord {s : State} (hwf : s.mem.wf = true) (a v : Word) :
    (s.writeWord a v).readByte a = v.extractLsb' 24 8 ∧
    (s.writeWord a v).readByte (a + 1#32) = v.extractLsb' 16 8 ∧
    (s.writeWord a v).readByte (a + 2#32) = v.extractLsb' 8 8 ∧
    (s.writeWord a v).readByte (a + 3#32) = v.extractLsb' 0 8 := by
  obtain ⟨h1, h2, h3, h4, h5, h6⟩ := add_const_ne a
  have w0 := writeByte_mem_wf hwf a (v.extractLsb' 24 8)
  have w1 := writeByte_mem_wf w0 (a + 1#32) (v.extractLsb' 16 8)
  have w2 := writeByte_mem_wf w1 (a + 2#32) (v.extractLsb' 8 8)
  simp only [State.writeWord, readByte_writeByte w2, readByte_writeByte w1, readByte_writeByte w0,
    readByte_writeByte hwf, h1, h2, h3, h4, h5, h6, if_true, if_false, and_self]

/-- A word reads back (20_memory.md R52). -/
theorem readWord_writeWord {s : State} (hwf : s.mem.wf = true) (a v : Word) :
    (s.writeWord a v).readWord a = v := by
  obtain ⟨h0, h1, h2, h3⟩ := readByte_writeWord hwf a v
  rw [State.readWord, h0, h1, h2, h3]
  ext i hi
  simp only [BitVec.getElem_append, BitVec.getElem_extractLsb']
  split
  · simp [BitVec.getLsbD_eq_getElem hi]
  · split
    · simp [show 8 + (i - 8) = i by omega, BitVec.getLsbD_eq_getElem hi]
    · split
      · simp [show 16 + (i - 8 - 8) = i by omega, BitVec.getLsbD_eq_getElem hi]
      · simp [show 24 + (i - 8 - 8 - 8) = i by omega, BitVec.getLsbD_eq_getElem hi]

@[simp] theorem writeWord_mem_wf {s : State} (hwf : s.mem.wf = true) (a v : Word) :
    (s.writeWord a v).mem.wf = true := by
  simp only [State.writeWord]
  exact writeByte_mem_wf (writeByte_mem_wf (writeByte_mem_wf (writeByte_mem_wf hwf _ _) _ _) _ _) _ _

@[simp] theorem writeHalf_mem_wf {s : State} (hwf : s.mem.wf = true) (a : Word) (v : Half) :
    (s.writeHalf a v).mem.wf = true := by
  simp only [State.writeHalf]
  exact writeByte_mem_wf (writeByte_mem_wf hwf _ _) _ _

/-- A word store changes memory and the written addresses alone. -/
theorem writeWord_eq (s : State) (a v : Word) :
    s.writeWord a v =
      { s with mem := (s.writeWord a v).mem, written := (s.writeWord a v).written } := rfl

theorem writeHalf_eq (s : State) (a : Word) (v : Half) :
    s.writeHalf a v =
      { s with mem := (s.writeHalf a v).mem, written := (s.writeHalf a v).written } := rfl

/-! ### Fetch -/

/-- Everything the fetch port can answer (20_memory.md R67, R53). -/
theorem fetchWord_cases (s : State) (a : Word) :
    (s.mappedRange a 4 = false ∧ s.fetchWord a = .fault .unmapped) ∨
    (s.mappedRange a 4 = true ∧ s.params.ifetchCoherent = true ∧
      s.fetchWord a = .next (s.readWord a)) ∨
    (s.mappedRange a 4 = true ∧ s.params.ifetchCoherent = false ∧ s.wordWritten a = true ∧
      s.fetchWord a = .refused .fetchOfStoredCode) ∨
    (s.mappedRange a 4 = true ∧ s.params.ifetchCoherent = false ∧ s.wordWritten a = false ∧
      s.fetchWord a = .next (s.imageWord a)) := by
  cases h1 : s.mappedRange a 4 <;> cases h2 : s.params.ifetchCoherent <;>
    cases h3 : s.wordWritten a <;> simp [State.fetchWord, h1, h2, h3]

/-! ### The bridge -/

/-- The bridge's answer does not depend on `instr_counter` (10_state.md R34). -/
@[simp] theorem bridgeReply_instrCounter (s : State) (n : Nat) (number : Word) :
    ({ s with instrCounter := n } : State).bridgeReply number = s.bridgeReply number := rfl

/-- The bridge's writes change memory and the written addresses alone. -/
theorem bridgeWrites_eq (s : State) (ws : List (Word × Byte)) :
    s.bridgeWrites ws =
      { s with mem := (s.bridgeWrites ws).mem, written := (s.bridgeWrites ws).written } := by
  induction ws generalizing s with
  | nil => rfl
  | cons w ws ih =>
    obtain ⟨a, b⟩ := w
    simp only [State.bridgeWrites]
    split
    · rw [ih]; rfl
    · exact ih s

theorem bridgeWrites_mem_wf {s : State} (hwf : s.mem.wf = true) (ws : List (Word × Byte)) :
    (s.bridgeWrites ws).mem.wf = true := by
  induction ws generalizing s with
  | nil => exact hwf
  | cons w ws ih =>
    obtain ⟨a, b⟩ := w
    simp only [State.bridgeWrites]
    split
    · exact ih (writeByte_mem_wf hwf a b)
    · exact ih hwf

end Sys2Proof.Machine
end

