-- ==== Sys2Proof/Laws/Shapes.lean ====
section
/-! SUPPORT. For each shape that the meanings of one unit share, one lemma that says once everything
it can do: "if it answers, then one of these cases holds". -/

namespace Sys2Proof.Machine

/-! ### Integer unit -/

theorem setReg_eq (dst : Reg) (v : Word) (s : State) : setReg dst v s = .next (s.writeGpr dst v) := rfl

theorem addTrapping_cases (dst : Reg) (a b : Word) (s : State) :
    (addOverflows a b = true ∧ addTrapping dst a b s = raise .integerOverflow s) ∨
      (addOverflows a b = false ∧ addTrapping dst a b s = .next (s.writeGpr dst (a + b))) := by
  cases h : addOverflows a b <;> simp [addTrapping, setReg, h]

theorem divideByZero_cases (s : State) :
    (s.params.divZero = .fault ∧ divideByZero s = raise .divideByZero s) ∨
      (s.params.divZero = .draw ∧ divideByZero s =
        .next ((s.writeHi (Config.any32 s.draws)).writeLo
          (Config.any32 (s.draws + 1))).draw.draw) := by
  cases h : s.params.divZero <;> simp [divideByZero, h]

theorem moveIf_cases (c : Bool) (dst : Reg) (v : Word) (s : State) :
    (c = true ∧ moveIf c dst v s = .next (s.writeGpr dst v)) ∨
      (c = false ∧ moveIf c dst v s = .next s) := by
  cases c <;> simp [moveIf, setReg]

theorem execDiv_cases (rs rt : Reg) (s : State) :
    (s.readGpr rt = 0#32 ∧ execDiv rs rt s = divideByZero s) ∨
      (s.readGpr rt ≠ 0#32 ∧ execDiv rs rt s =
        .next ((s.writeLo (BitVec.ofInt 32 ((s.readGpr rs).toInt.tdiv (s.readGpr rt).toInt))).writeHi
          (BitVec.ofInt 32 ((s.readGpr rs).toInt.tmod (s.readGpr rt).toInt)))) := by
  by_cases h : s.readGpr rt = 0#32
  · simp [execDiv, h]
  · have : (s.readGpr rt).toInt ≠ 0 := fun e => h (BitVec.eq_of_toInt_eq (by simpa using e))
    simp [execDiv, setQuotient, h, this]

theorem execDivu_cases (rs rt : Reg) (s : State) :
    (s.readGpr rt = 0#32 ∧ execDivu rs rt s = divideByZero s) ∨
      (s.readGpr rt ≠ 0#32 ∧ execDivu rs rt s =
        .next ((s.writeLo (BitVec.ofNat 32 ((s.readGpr rs).toNat / (s.readGpr rt).toNat))).writeHi
          (BitVec.ofNat 32 ((s.readGpr rs).toNat % (s.readGpr rt).toNat)))) := by
  by_cases h : s.readGpr rt = 0#32
  · simp [execDivu, h]
  · have : (s.readGpr rt).toNat ≠ 0 := fun e => h (BitVec.eq_of_toNat_eq (by simpa using e))
    simp [execDivu, setQuotient, h, this]

theorem execExt_cases (rt rs : Reg) (pos size : Nat) (s : State) :
    (pos + size ≤ 32 ∧
      execExt rt rs pos size s = .next (s.writeGpr rt (bitField (s.readGpr rs) pos size))) ∨
      (32 < pos + size ∧
        execExt rt rs pos size s = .next (s.writeGpr rt (Config.any32 s.draws)).draw) := by
  by_cases h : pos + size ≤ 32
  · simp [execExt, setReg, h]
  · simp [execExt, h]; omega

/-! ### Load/store unit -/

theorem loadReg_cases (rt : Reg) (a : Word) (n : Nat) (v : Word) (s : State) :
    (s.mappedRange a n = true ∧ loadReg rt a n v s = .next (s.writeGpr rt v)) ∨
      (s.mappedRange a n = false ∧ loadReg rt a n v s = .fault .unmapped) :=
  access_cases s a n _

theorem loadWordReg_cases (rt : Reg) (a : Word) (s : State) :
    (wordAligned a = true ∧ s.mappedRange a 4 = true ∧
      loadWordReg rt a s = .next (s.writeGpr rt (s.readWord a))) ∨
    (wordAligned a = true ∧ s.mappedRange a 4 = false ∧ loadWordReg rt a s = .fault .unmapped) ∨
    (wordAligned a = false ∧ loadWordReg rt a s = raise .addressError s) :=
  wordAccess_cases s a 4 _

/-- The checks of a double load or store, in their order: the pair, the alignment, MEM_MAP
(42_load_store.md R191). -/
theorem pairAccess_cases (n : Slot) (a : Word) (s : State) (go : Result) :
    (n = 31 ∧ s.withPair n (s.wordAccess a 8 go) = raise .reservedInstruction s) ∨
    (n ≠ 31 ∧ wordAligned a = false ∧
      s.withPair n (s.wordAccess a 8 go) = raise .addressError s) ∨
    (n ≠ 31 ∧ wordAligned a = true ∧ s.mappedRange a 8 = false ∧
      s.withPair n (s.wordAccess a 8 go) = .fault .unmapped) ∨
    (n ≠ 31 ∧ wordAligned a = true ∧ s.mappedRange a 8 = true ∧
      s.withPair n (s.wordAccess a 8 go) = go) := by
  obtain ⟨hn, h⟩ | ⟨hn, h⟩ := withPair_cases s n (s.wordAccess a 8 go)
  · rw [h]
    obtain ⟨ha, hm, h'⟩ | ⟨ha, hm, h'⟩ | ⟨ha, h'⟩ := wordAccess_cases s a 8 go
    · exact .inr (.inr (.inr ⟨hn, ha, hm, h'⟩))
    · exact .inr (.inr (.inl ⟨hn, ha, hm, h'⟩))
    · exact .inr (.inl ⟨hn, ha, h'⟩)
  · exact .inl ⟨hn, h⟩

theorem loadPair_cases (n : Slot) (a : Word) (s : State) :
    (n = 31 ∧ loadPair n a s = raise .reservedInstruction s) ∨
    (n ≠ 31 ∧ wordAligned a = false ∧ loadPair n a s = raise .addressError s) ∨
    (n ≠ 31 ∧ wordAligned a = true ∧ s.mappedRange a 8 = false ∧
      loadPair n a s = .fault .unmapped) ∨
    (n ≠ 31 ∧ wordAligned a = true ∧ s.mappedRange a 8 = true ∧ loadPair n a s =
      .next ((s.writeSlot (n + 1) (s.readWord a)).writeSlot n (s.readWord (a + 4#32)))) :=
  pairAccess_cases n a s _

theorem storePair_cases (n : Slot) (a : Word) (s : State) :
    (n = 31 ∧ storePair n a s = raise .reservedInstruction s) ∨
    (n ≠ 31 ∧ wordAligned a = false ∧ storePair n a s = raise .addressError s) ∨
    (n ≠ 31 ∧ wordAligned a = true ∧ s.mappedRange a 8 = false ∧
      storePair n a s = .fault .unmapped) ∨
    (n ≠ 31 ∧ wordAligned a = true ∧ s.mappedRange a 8 = true ∧ storePair n a s =
      .next ((s.writeWord a (s.readSlot (n + 1))).writeWord (a + 4#32) (s.readSlot n))) :=
  pairAccess_cases n a s _

/-! ### Branch/jump controller -/

theorem branchIf_cases (c : Bool) (offset : BitVec 16) (s : State) :
    (c = true ∧ branchIf c offset s = .next (s.redirect (branchTarget s.pc offset))) ∨
      (c = false ∧ branchIf c offset s = .next s) := by
  cases c <;> simp [branchIf]

theorem branchLinkIf_cases (c : Bool) (offset : BitVec 16) (s : State) :
    (c = true ∧ branchLinkIf c offset s =
      .next ((s.writeGpr Config.linkReg s.linkValue).redirect (branchTarget s.pc offset))) ∨
    (c = false ∧ branchLinkIf c offset s = .next (s.writeGpr Config.linkReg s.linkValue)) := by
  cases c <;> simp [branchLinkIf, branchIf]

/-! ### Floating-point coprocessor -/

theorem arith_cases (op : Double → Double → FResult) (fd fs ft : Slot) (s : State) :
    (fs ≠ 31 ∧ ft ≠ 31 ∧ fd ≠ 31 ∧ arith op fd fs ft s =
      .next (s.writeResult fd (op (s.readPair fs) (s.readPair ft)))) ∨
    ((fs = 31 ∨ ft = 31 ∨ fd = 31) ∧ arith op fd fs ft s = raise .reservedInstruction s) := by
  by_cases h1 : fs = 31 <;> by_cases h2 : ft = 31 <;> by_cases h3 : fd = 31 <;>
    simp [arith, State.withPair, pairExists, h1, h2, h3]

theorem bitOp_cases (op : Double → Double) (fd fs : Slot) (s : State) :
    (fs ≠ 31 ∧ fd ≠ 31 ∧ bitOp op fd fs s = .next (s.writePair fd (op (s.readPair fs)))) ∨
      ((fs = 31 ∨ fd = 31) ∧ bitOp op fd fs s = raise .reservedInstruction s) :=
  withPairs_cases s fs fd _

theorem compareD_cases (cond : Double → Double → Bool) (fs ft : Slot) (s : State) :
    (fs ≠ 31 ∧ ft ≠ 31 ∧ compareD cond fs ft s =
      .next (s.writeCc (cond (s.readPair fs) (s.readPair ft)))) ∨
    ((fs = 31 ∨ ft = 31) ∧ compareD cond fs ft s = raise .reservedInstruction s) :=
  withPairs_cases s fs ft _

theorem execTruncWD_cases (fd fs : Slot) (s : State) :
    (fs = 31 ∧ execTruncWD fd fs s = raise .reservedInstruction s) ∨
    (fs ≠ 31 ∧ ∃ w, fTruncInt32 (s.readPair fs) = some w ∧
      execTruncWD fd fs s = .next (s.writeSlot fd w)) ∨
    (fs ≠ 31 ∧ fTruncInt32 (s.readPair fs) = none ∧
      execTruncWD fd fs s = .next (s.writeSlot fd (Config.any32 s.draws)).draw) := by
  unfold execTruncWD
  by_cases h : fs = 31
  · simp [State.withPair, pairExists, h]
  · rw [withPair_of_ne h]
    cases hv : fTruncInt32 (s.readPair fs) <;> simp [h]

/-! ### Syscall/trap router -/

theorem execTeq_cases (rs rt : Reg) (code : BitVec 10) (s : State) :
    (s.readGpr rs = s.readGpr rt ∧ execTeq rs rt code s = raise .trapEqual s) ∨
      (s.readGpr rs ≠ s.readGpr rt ∧ execTeq rs rt code s = .next s) := by
  by_cases h : s.readGpr rs = s.readGpr rt <;> simp [execTeq, h]

end Sys2Proof.Machine
end

