-- ==== Sys2Proof/Laws/Step.lean ====
section
/-! SUPPORT. Everything a step can do, said once, and the fetch of a placed word. -/

namespace Sys2Proof.Machine

/-- The cases of a step that answers a next state (40_scheduler.md R111, R118). -/
theorem step_next_cases {s t : State} (h : step s = .next t) :
    s.halted = false ∧
      ((wordAligned s.pc = false ∧
          t = { s with fetchAddr := s.pc, halted := true, outcome := .fault .addressError }) ∨
       (wordAligned s.pc = true ∧ ∃ w, s.fetchWord s.pc = .next w ∧
          ((∃ i, decodeWord w = some i ∧ exec i s.genericStep = .next t) ∨
           (decodeWord w = none ∧ execReserved s.genericStep = .next t)))) := by
  unfold step at h
  cases hh : s.halted <;> simp only [hh, Bool.false_eq_true, if_false, if_true] at h
  · refine ⟨rfl, ?_⟩
    cases ha : wordAligned s.pc <;>
      simp only [ha, Bool.not_false, Bool.not_true, Bool.false_eq_true, if_false, if_true] at h
    · refine .inl ⟨rfl, ?_⟩
      have := raise_next h
      simpa using this
    · refine .inr ⟨rfl, ?_⟩
      cases hf : s.fetchWord s.pc with
      | fault r => simp [hf] at h
      | refused r => simp [hf] at h
      | next w =>
        refine ⟨w, rfl, ?_⟩
        simp only [hf] at h
        cases hd : decodeWord w with
        | none => exact .inr ⟨rfl, by simpa [hd] using h⟩
        | some i => exact .inl ⟨i, rfl, by simpa [hd] using h⟩
  · cases h

/-- A step that dispatches a decoded instruction. -/
theorem step_of_decode {s : State} {w : Word} {i : Instr} (hh : s.halted = false)
    (ha : wordAligned s.pc = true) (hf : s.fetchWord s.pc = .next w) (hd : decodeWord w = some i) :
    step s = exec i s.genericStep := by
  simp [step, hh, ha, hf, hd]

end Sys2Proof.Machine
end

