-- ==== Sys2Proof/Laws/Footprint.lean ====
section
/-! SUPPORT. The footprint of each shared update: what it may change, said once, for the statements
that are made with `Footprint.Keeps`, `SetsReg`, `SetsDouble` and `StoresBytes`. -/

namespace Sys2Proof.Machine

theorem Footprint.Keeps.refl (s : State) : Footprint.Keeps {} s s := by
  constructor <;> simp

/-- Two changes one after the other stay within the two footprints together. -/
theorem Footprint.Keeps.trans {f g : Footprint} {s t u : State} (h : f.Keeps s t)
    (h' : g.Keeps t u) : Footprint.Keeps
      { regs := f.regs ++ g.regs, slots := f.slots ++ g.slots, bytes := f.bytes ++ g.bytes,
        hi := f.hi || g.hi, lo := f.lo || g.lo, cc := f.cc || g.cc, npc := f.npc || g.npc,
        draws := f.draws + g.draws } s u where
  regs r hr := by
    simp only [List.mem_append, not_or] at hr
    exact (h'.regs r hr.2).trans (h.regs r hr.1)
  slots n hn := by
    simp only [List.mem_append, not_or] at hn
    exact (h'.slots n hn.2).trans (h.slots n hn.1)
  bytes a ha := by
    simp only [List.mem_append, not_or] at ha
    exact (h'.bytes a ha.2).trans (h.bytes a ha.1)
  written k := by
    rw [h'.written, h.written]
    simp only [List.mem_append, or_and_right, exists_or, or_assoc]
  hi e := by
    simp only [Bool.or_eq_false_iff] at e
    exact (h'.hi e.2).trans (h.hi e.1)
  lo e := by
    simp only [Bool.or_eq_false_iff] at e
    exact (h'.lo e.2).trans (h.lo e.1)
  cc e := by
    simp only [Bool.or_eq_false_iff] at e
    exact (h'.cc e.2).trans (h.cc e.1)
  npc e := by
    simp only [Bool.or_eq_false_iff] at e
    exact (h'.npc e.2).trans (h.npc e.1)
  draws := by rw [h'.draws, h.draws, Nat.add_assoc]
  pc := h'.pc.trans h.pc
  instrCounter := h'.instrCounter.trans h.instrCounter
  halted := h'.halted.trans h.halted
  outcome := h'.outcome.trans h.outcome
  fetchAddr := h'.fetchAddr.trans h.fetchAddr
  image := h'.image.trans h.image
  params := h'.params.trans h.params

/-- A register write that is discarded still reads as register 0 does. -/
theorem readGpr_writeGpr_asRead (s : State) (r : Reg) (v : Word) :
    (s.writeGpr r v).readGpr r = asRead r v := by
  by_cases h : r = 0
  · simp [h, asRead]
  · simp [asRead, h, State.readGpr_writeGpr]

theorem keeps_writeGpr (s : State) (r : Reg) (v : Word) :
    Footprint.Keeps { regs := [r] } s (s.writeGpr r v) where
  regs q hq := State.readGpr_writeGpr_other s (by simpa using hq) v
  slots _ _ := by simp
  bytes _ _ := by simp
  written _ := by simp
  hi _ := by simp
  lo _ := by simp
  cc _ := by simp
  npc _ := by simp
  draws := by simp
  pc := by simp
  instrCounter := by simp
  halted := by simp
  outcome := by simp
  fetchAddr := by simp
  image := by simp
  params := by simp

/-- A meaning that only writes `x[rd]`. -/
theorem setsReg_of_eq {i : Instr} {s : State} {rd : Reg} {v : Word}
    (h : exec i s = .next (s.writeGpr rd v)) : SetsReg i s rd v :=
  ⟨_, h, readGpr_writeGpr_asRead s rd v, keeps_writeGpr s rd v⟩

theorem keeps_writeSlot (s : State) (n : Slot) (v : Word) :
    Footprint.Keeps { slots := [n] } s (s.writeSlot n v) := by
  constructor
  case slots => intro m hm; simp_all [State.readSlot_writeSlot]
  all_goals simp

theorem keeps_writePair (s : State) (n : Slot) (v : Double) :
    Footprint.Keeps { slots := [n, n + 1] } s (s.writePair n v) := by
  constructor
  case slots =>
    intro m hm
    simp only [List.mem_cons, List.not_mem_nil, or_false, not_or] at hm
    exact State.readSlot_writePair_other s hm.1 hm.2 v
  all_goals simp [State.writePair]

/-- Everything but memory and the written addresses is as before. -/
theorem keeps_of_memory {s t : State} {bytes : List Word}
    (ht : t = { s with mem := t.mem, written := t.written })
    (hb : ∀ a, a ∉ bytes → t.readByte a = s.readByte a)
    (hw : ∀ k, k ∈ t.written ↔ k ∈ s.written ∨ ∃ a ∈ bytes, a.toNat = k) :
    Footprint.Keeps { bytes := bytes } s t := by
  refine ⟨?_, ?_, hb, hw, ?_, ?_, ?_, ?_, ?_, ?_, ?_, ?_, ?_, ?_, ?_, ?_⟩ <;> rw [ht] <;> intros <;> rfl

theorem keeps_writeByte (s : State) (a : Word) (b : Byte) :
    Footprint.Keeps { bytes := [a] } s (s.writeByte a b) := by
  refine keeps_of_memory rfl (fun c hc => ?_) (fun k => ?_)
  · exact readByte_writeByte_other b (by simpa using hc)
  · rw [mem_writeByte_written]
    simp only [List.mem_singleton, exists_eq_left]
    tauto

theorem keeps_writeHalf (s : State) (a : Word) (v : Half) :
    Footprint.Keeps { bytes := bytesFrom a 2 } s (s.writeHalf a v) := by
  refine keeps_of_memory (writeHalf_eq s a v) (fun c hc => ?_) (fun k => ?_)
  · simp [bytesFrom, List.range_succ] at hc
    exact readByte_writeHalf_other v hc.1 hc.2
  · simp [State.writeHalf, mem_addrInsert, bytesFrom, List.range_succ, eq_comm (b := k)]
    tauto

theorem keeps_writeWord (s : State) (a v : Word) :
    Footprint.Keeps { bytes := bytesFrom a 4 } s (s.writeWord a v) := by
  refine keeps_of_memory (writeWord_eq s a v) (fun c hc => ?_) (fun k => ?_)
  · simp [bytesFrom, List.range_succ] at hc
    exact readByte_writeWord_other v hc.1 hc.2.1 hc.2.2.1 hc.2.2.2
  · simp [State.writeWord, mem_addrInsert, bytesFrom, List.range_succ, eq_comm (b := k)]
    tauto

/-! ### Words as bytes (20_memory.md R52, R54) -/

/-- The bytes of a word just stored. -/
theorem readByte_writeWord_byteAt {s : State} (hwf : s.mem.wf = true) (a v : Word) {k : Nat}
    (hk : k < 4) : (s.writeWord a v).readByte (a + BitVec.ofNat 32 k) = byteAt v k := by
  obtain ⟨h0, h1, h2, h3⟩ := readByte_writeWord hwf a v
  match k, hk with
  | 0, _ => simp only [BitVec.add_zero]; exact h0
  | 1, _ => exact h1
  | 2, _ => exact h2
  | 3, _ => exact h3

/-- The bytes of a word read from memory. -/
theorem byteAt_readWord (s : State) (a : Word) {k : Nat} (hk : k < 4) :
    byteAt (s.readWord a) k = s.readByte (a + BitVec.ofNat 32 k) := by
  have low : ∀ {m : Nat} (x : BitVec m) (y : Byte) (lo : Nat),
      (x ++ y).extractLsb' (8 + lo) 8 = x.extractLsb' lo 8 := fun x y lo => by
    ext i hi
    simp only [BitVec.getElem_extractLsb', BitVec.getLsbD_append]
    simp [show ¬ 8 + lo + i < 8 by omega, show 8 + lo + i - 8 = lo + i by omega]
  have last : ∀ {m : Nat} (x : BitVec m) (y : Byte), (x ++ y).extractLsb' 0 8 = y := fun x y => by
    ext i hi
    simp [BitVec.getLsbD_append, hi]
  unfold byteAt State.readWord
  match k, hk with
  | 0, _ =>
    rw [show 24 - 8 * 0 = 8 + (8 + (8 + 0)) from rfl, low, low, low, BitVec.add_zero]
    ext i hi
    simp
  | 1, _ => rw [show 24 - 8 * 1 = 8 + (8 + 0) from rfl, low, low]; exact last _ _
  | 2, _ => rw [show 24 - 8 * 2 = 8 + 0 from rfl, low]; exact last _ _
  | 3, _ => exact last _ _

/-- A word is its four bytes. -/
theorem word_ext_byteAt {v w : Word} (h : ∀ j < 4, byteAt v j = byteAt w j) : v = w := by
  have split : ∀ x : Word, byteAt x 0 ++ byteAt x 1 ++ byteAt x 2 ++ byteAt x 3 = x := fun x => by
    ext i hi
    simp only [byteAt, BitVec.getElem_append, BitVec.getElem_extractLsb']
    split
    · simp [BitVec.getLsbD_eq_getElem hi]
    · split
      · simp [show 8 + (i - 8) = i by omega, BitVec.getLsbD_eq_getElem hi]
      · split
        · simp [show 16 + (i - 8 - 8) = i by omega, BitVec.getLsbD_eq_getElem hi]
        · simp [show 24 + (i - 8 - 8 - 8) = i by omega, BitVec.getLsbD_eq_getElem hi]
  rw [← split v, ← split w, h 0 (by decide), h 1 (by decide), h 2 (by decide), h 3 (by decide)]

/-- Bit `i` of byte `j` of a word. -/
theorem getLsbD_byteAt (v : Word) (j i : Nat) :
    (byteAt v j).getLsbD i = (decide (i < 8) && v.getLsbD (24 - 8 * j + i)) := by
  simp [byteAt]

end Sys2Proof.Machine
end

