-- ==== Sys2Proof/Laws/Unaligned.lean ====
section
/-! SUPPORT. The merges of the unaligned word loads and stores (spec/42_load_store.md R200 to R203),
byte by byte. -/

namespace Sys2Proof.Machine

/-- Bits of the `keep` mask of `lwl`: the low `k` bytes. -/
theorem keepLow_bit : ∀ k < 4, ∀ i < 32,
    (BitVec.ofNat 32 (2 ^ (8 * k) - 1)).getLsbD i = decide (i < 8 * k) := by decide

/-- Bits of the `keep` mask of `swl`: the high `k` bytes. -/
theorem keepHigh_bit : ∀ k < 4, ∀ i < 32,
    (0xFFFFFFFF#32 &&& ~~~(0xFFFFFFFF#32 >>> (8 * k))).getLsbD i = decide (32 - 8 * k ≤ i) := by
  decide

/-- A left shift by `k` bytes merged with the low `k` bytes of another word. -/
theorem byteAt_mergeLeft {k j : Nat} (hk : k < 4) (hj : j < 4) (w old : Word) :
    byteAt ((w <<< (8 * k)) ||| (old &&& BitVec.ofNat 32 (2 ^ (8 * k) - 1))) j =
      if j < 4 - k then byteAt w (j + k) else byteAt old j := by
  apply BitVec.eq_of_getLsbD_eq
  intro i hi
  rw [getLsbD_byteAt, BitVec.getLsbD_or, BitVec.getLsbD_and, BitVec.getLsbD_shiftLeft,
    keepLow_bit k hk (24 - 8 * j + i) (by omega)]
  split <;> rename_i h
  · simp only [getLsbD_byteAt, show ¬ 24 - 8 * j + i < 8 * k by omega,
      show 24 - 8 * j + i < 32 by omega,
      show 24 - 8 * j + i - 8 * k = 24 - 8 * (j + k) + i by omega]
    simp
  · simp only [getLsbD_byteAt, show 24 - 8 * j + i < 8 * k by omega,
      show 24 - 8 * j + i < 32 by omega]
    simp

/-- A right shift by `k` bytes merged with the high `k` bytes of another word. -/
theorem byteAt_mergeRight {k j : Nat} (hk : k < 4) (hj : j < 4) (w old : Word) :
    byteAt ((w >>> (8 * k)) |||
        (old &&& (0xFFFFFFFF#32 &&& ~~~(0xFFFFFFFF#32 >>> (8 * k))))) j =
      if k ≤ j then byteAt w (j - k) else byteAt old j := by
  apply BitVec.eq_of_getLsbD_eq
  intro i hi
  rw [getLsbD_byteAt, BitVec.getLsbD_or, BitVec.getLsbD_and, BitVec.getLsbD_ushiftRight,
    keepHigh_bit k hk (24 - 8 * j + i) (by omega)]
  split <;> rename_i h
  · simp only [getLsbD_byteAt, show ¬ 32 - 8 * k ≤ 24 - 8 * j + i by omega,
      show 8 * k + (24 - 8 * j + i) = 24 - 8 * (j - k) + i by omega]
    simp
  · simp only [getLsbD_byteAt, show 32 - 8 * k ≤ 24 - 8 * j + i by omega]
    rw [BitVec.getLsbD_of_ge w (8 * k + (24 - 8 * j + i)) (by omega)]
    simp

/-- `lwl` (R200). -/
theorem byteAt_lwlMerge {k j : Nat} (hk : k < 4) (hj : j < 4) (w old : Word) :
    byteAt (lwlMerge k w old) j = if j < 4 - k then byteAt w (j + k) else byteAt old j :=
  byteAt_mergeLeft hk hj w old

/-- `lwr` (R201). -/
theorem byteAt_lwrMerge {k j : Nat} (hj : j < 4) (w old : Word) :
    byteAt (lwrMerge k w old) j =
      if 3 - k ≤ j then byteAt w (j - (3 - k)) else byteAt old j :=
  byteAt_mergeRight (by omega) hj w old

/-- `swl` (R202). -/
theorem byteAt_swlMerge {k j : Nat} (hk : k < 4) (hj : j < 4) (w v : Word) :
    byteAt (swlMerge k w v) j = if k ≤ j then byteAt v (j - k) else byteAt w j :=
  byteAt_mergeRight hk hj v w

/-- `swr` (R203). -/
theorem byteAt_swrMerge {k j : Nat} (hk : k < 4) (hj : j < 4) (w v : Word) :
    byteAt (swrMerge k w v) j = if j ≤ k then byteAt v (j + (3 - k)) else byteAt w j := by
  have h := byteAt_mergeLeft (k := 3 - k) (by omega) hj v w
  rw [swrMerge, h]
  split <;> split <;> first | rfl | omega

/-- The offset of an address in its word. -/
theorem byteOffset_eq (a : Word) : byteOffset a = a.toNat % 4 := by simp [byteOffset]

/-- The aligned word around an address starts `addr mod 4` bytes below it. -/
theorem alignDown_eq (a : Word) : alignDown a = a - BitVec.ofNat 32 (a.toNat % 4) := by
  have h1 : alignDown a = a - BitVec.ofNat 32 (byteOffset a) := by
    have this : a = alignDown a + (a &&& 3#32) := by
      rw [alignDown]
      have hd : (a &&& 0xFFFFFFFC#32) &&& (a &&& 3#32) = 0#32 := by
        rw [BitVec.and_assoc, BitVec.and_comm a 3#32, ← BitVec.and_assoc 0xFFFFFFFC#32]
        simp
      rw [BitVec.add_eq_or_of_and_eq_zero _ _ hd, ← BitVec.and_or_distrib_left]
      exact (BitVec.and_allOnes (x := a)).symm
    have h3 : BitVec.ofNat 32 (byteOffset a) = a &&& 3#32 := by
      apply BitVec.eq_of_toNat_eq
      simp [byteOffset]
      rw [show (3:Nat) = 2^2-1 from rfl, Nat.and_two_pow_sub_one_eq_mod]
      omega
    rw [h3]
    conv_rhs => lhs; rw [this]
    simp
  rw [h1, byteOffset_eq]

end Sys2Proof.Machine
end

