-- ==== Sys2Proof/Laws/Exec.lean ====
section
/-! SUPPORT. Everything a behaviour can do, said once: if `exec` answers a next state, that state has
one of the forms of `ExecForm`. Rules about all instructions are proved from the forms. -/

namespace Sys2Proof.Machine

/-- Byte stores one after the other. -/
def State.storeBytes (s : State) (ws : List (Word × Byte)) : State :=
  ws.foldl (fun t w => t.writeByte w.1 w.2) s

@[simp] theorem State.storeBytes_nil (s : State) : s.storeBytes [] = s := rfl

@[simp] theorem State.storeBytes_cons (s : State) (a : Word) (b : Byte) (ws : List (Word × Byte)) :
    s.storeBytes ((a, b) :: ws) = (s.writeByte a b).storeBytes ws := rfl

/-- Byte stores change memory and the written addresses alone. -/
theorem State.storeBytes_eq (s : State) (ws : List (Word × Byte)) :
    s.storeBytes ws =
      { s with mem := (s.storeBytes ws).mem, written := (s.storeBytes ws).written } := by
  induction ws generalizing s with
  | nil => rfl
  | cons w ws ih => exact (ih (s.writeByte w.1 w.2)).trans rfl

/-- The bridge's writes are byte stores, at the mapped ones of its addresses. -/
theorem bridgeWrites_eq_storeBytes (s : State) (ws : List (Word × Byte)) :
    s.bridgeWrites ws = s.storeBytes (ws.filter (fun w => s.mapped w.1)) := by
  induction ws generalizing s with
  | nil => rfl
  | cons w ws ih =>
    obtain ⟨a, b⟩ := w
    have hm : ∀ c, (s.writeByte a b).mapped c = s.mapped c := fun _ => rfl
    cases h : s.mapped a <;> simp [State.bridgeWrites, h, ih, hm]

/-- A word as the byte stores that store it. -/
def wordBytes (a v : Word) : List (Word × Byte) := [(a, v.extractLsb' 24 8), (a + 1#32, v.extractLsb' 16 8),
      (a + 2#32, v.extractLsb' 8 8), (a + 3#32, v.extractLsb' 0 8)]

theorem writeWord_eq_storeBytes (s : State) (a v : Word) :
    s.writeWord a v = s.storeBytes (wordBytes a v) := rfl

theorem storeBytes_append (s : State) (ws vs : List (Word × Byte)) :
    (s.storeBytes ws).storeBytes vs = s.storeBytes (ws ++ vs) := by
  simp [State.storeBytes, List.foldl_append]

/-- The forms of the state after the behaviour of `i` in `s`. -/
inductive ExecForm (i : Instr) (s : State) : State → Prop
  /-- A fault: nothing is written (60_exceptions.md R301). -/
  | raised (r : FaultReason) (hr : i.mayRaise r = true)
      (hp : r = .reservedInstruction → 31 ∈ i.pairs) :
      ExecForm i s { s with halted := true, outcome := .fault r }
  /-- One general register, and possibly a free value taken. -/
  | register (rd : Reg) (v : Word) (d : Nat) (hc : i.isControlFlow = false) :
      ExecForm i s { s.writeGpr rd v with draws := d }
  /-- The accumulators. -/
  | accumulators (h l : Word) (d : Nat) (hc : i.isControlFlow = false)
      (hh : i.writesHi = false → h = s.hi) (hl : i.writesLo = false → l = s.lo) :
      ExecForm i s { s with hi := h, lo := l, draws := d }
  /-- Floating-point slots. -/
  | slots (f : Vector Word 32) (d : Nat) (hc : i.isControlFlow = false)
      (hw : i.writesSlots = true) : ExecForm i s { s with fpr := f, draws := d }
  /-- The condition flag. -/
  | flag (c : Bool) (hc : i.isControlFlow = false) (hw : i.writesCc = true) :
      ExecForm i s { s with cc := c }
  /-- Bytes of memory, and for `sc` one register. -/
  | stored (ws : List (Word × Byte)) (rd : Reg) (v : Word) (hc : i.isControlFlow = false)
      (hw : i.mayStore = true) : ExecForm i s ((s.storeBytes ws).writeGpr rd v)
  /-- `npc` alone (43_control_flow.md R220). -/
  | transfer (target : Word) (hc : i.isControlFlow = true) (hl : i.linksTo = none) :
      ExecForm i s (s.redirect target)
  /-- The link destination, with the link value, and `npc` (R220, R221). -/
  | linked (rd : Reg) (target : Word) (hc : i.isControlFlow = true) (hl : i.linksTo = some rd) :
      ExecForm i s ((s.writeGpr rd s.linkValue).redirect target)
  /-- A served or failed `syscall`. -/
  | served (code : BitVec 20) (ws : List (Word × Byte)) (v e : Word) (hi : i = .syscall code) :
      ExecForm i s (((s.storeBytes ws).writeGpr 2 v).writeGpr 7 e).draw
  /-- A `syscall` that ends the run. -/
  | ended (code : BitVec 20) (hi : i = .syscall code)
      (hr : s.bridgeReply (s.syscallNumber code) = .halt) :
      ExecForm i s { s.draw with halted := true }
  /-- No change. -/
  | unchanged (hc : i.isControlFlow = false) : ExecForm i s s

section
variable {i : Instr} {s t : State}

theorem ExecForm.of_register {rd : Reg} {v : Word} (hc : i.isControlFlow = false)
    (he : exec i s = .next (s.writeGpr rd v)) (h : exec i s = .next t) : ExecForm i s t := by
  rw [he] at h
  cases h
  exact .register rd v (s.writeGpr rd v).draws hc

theorem ExecForm.of_stores {ws : List (Word × Byte)} {u : State} (hc : i.isControlFlow = false)
    (hw : i.mayStore = true) (hu : u = s.storeBytes ws) : ExecForm i s u := by
  rw [hu]
  exact .stored ws 0 0#32 hc hw

theorem ExecForm.of_writeWord (hc : i.isControlFlow = false) (hw : i.mayStore = true) (a v : Word) :
    ExecForm i s (s.writeWord a v) :=
  .of_stores hc hw (writeWord_eq_storeBytes s a v)

theorem ExecForm.of_writeWords (hc : i.isControlFlow = false) (hw : i.mayStore = true)
    (a v b w : Word) : ExecForm i s ((s.writeWord a v).writeWord b w) :=
  .of_stores hc hw (ws := wordBytes a v ++ wordBytes b w) (by
    rw [writeWord_eq_storeBytes, writeWord_eq_storeBytes, storeBytes_append])

theorem ExecForm.of_addTrapping {rd : Reg} {a b : Word} (hc : i.isControlFlow = false)
    (hr : i.mayRaise .integerOverflow = true) (he : exec i s = addTrapping rd a b s)
    (h : exec i s = .next t) : ExecForm i s t := by
  obtain ⟨_, h'⟩ | ⟨_, h'⟩ := addTrapping_cases rd a b s
  · rw [he, h', raise_eq] at h
    cases h
    exact .raised _ hr (fun e => by cases e)
  · exact .of_register hc (he.trans h') h

theorem ExecForm.of_moveIf {c : Bool} {rd : Reg} {v : Word} (hc : i.isControlFlow = false)
    (he : exec i s = moveIf c rd v s) (h : exec i s = .next t) : ExecForm i s t := by
  obtain ⟨_, h'⟩ | ⟨_, h'⟩ := moveIf_cases c rd v s
  · exact .of_register hc (he.trans h') h
  · rw [he, h'] at h
    cases h
    exact .unchanged hc

theorem ExecForm.of_divide {q r : Word} (hc : i.isControlFlow = false)
    (hh : i.writesHi = true) (hl : i.writesLo = true) (hr : i.mayRaise .divideByZero = true)
    (he : exec i s = divideByZero s ∨ exec i s = .next ((s.writeLo q).writeHi r))
    (h : exec i s = .next t) : ExecForm i s t := by
  obtain he | he := he
  · obtain ⟨_, h'⟩ | ⟨_, h'⟩ := divideByZero_cases s
    · rw [he, h', raise_eq] at h
      cases h
      exact .raised _ hr (fun e => by cases e)
    · rw [he, h'] at h
      cases h
      exact .accumulators _ _ _ hc (by simp [hh]) (by simp [hl])
  · rw [he] at h
    cases h
    exact .accumulators r q s.draws hc (by simp [hh]) (by simp [hl])

theorem ExecForm.of_access {a : Word} {n : Nat} {u : State}
    (he : exec i s = s.access a n (.next u)) (hu : ExecForm i s u) (h : exec i s = .next t) :
    ExecForm i s t := by
  obtain ⟨_, h'⟩ | ⟨_, h'⟩ := access_cases s a n (.next u)
  · rw [he, h'] at h
    cases h
    exact hu
  · rw [he, h'] at h
    cases h

theorem ExecForm.of_wordAccess {a : Word} {n : Nat} {u : State}
    (hr : i.mayRaise .addressError = true) (he : exec i s = s.wordAccess a n (.next u))
    (hu : ExecForm i s u) (h : exec i s = .next t) : ExecForm i s t := by
  obtain ⟨_, _, h'⟩ | ⟨_, _, h'⟩ | ⟨_, h'⟩ := wordAccess_cases s a n (.next u)
  · rw [he, h'] at h
    cases h
    exact hu
  · rw [he, h'] at h
    cases h
  · rw [he, h', raise_eq] at h
    cases h
    exact .raised _ hr (fun e => by cases e)

theorem ExecForm.of_pairAccess {a : Word} {n : Slot} {u : State}
    (hr : i.mayRaise .addressError = true) (hr' : i.mayRaise .reservedInstruction = true)
    (hp : n ∈ i.pairs) (he : exec i s = s.withPair n (s.wordAccess a 8 (.next u)))
    (hu : ExecForm i s u) (h : exec i s = .next t) : ExecForm i s t := by
  obtain ⟨hn, h'⟩ | ⟨_, h'⟩ := withPair_cases s n (s.wordAccess a 8 (.next u))
  · exact .of_wordAccess hr (he.trans h') hu h
  · rename_i hn
    rw [he, h', raise_eq] at h
    cases h
    exact .raised _ hr' (fun _ => hn ▸ hp)

theorem ExecForm.of_reserved {u : State} (hr : i.mayRaise .reservedInstruction = true)
    (he : exec i s = .next u ∨ 31 ∈ i.pairs ∧ exec i s = raise .reservedInstruction s)
    (hu : ExecForm i s u) (h : exec i s = .next t) : ExecForm i s t := by
  obtain he | ⟨hp, he⟩ := he
  · rw [he] at h
    cases h
    exact hu
  · rw [he, raise_eq] at h
    cases h
    exact .raised _ hr (fun _ => hp)

theorem ExecForm.of_branchIf {c : Bool} {o : BitVec 16} (hc : i.isControlFlow = true)
    (hl : i.linksTo = none) (he : exec i s = branchIf c o s) (h : exec i s = .next t) :
    ExecForm i s t := by
  obtain ⟨_, h'⟩ | ⟨_, h'⟩ := branchIf_cases c o s
  · rw [he, h'] at h
    cases h
    exact .transfer _ hc hl
  · rw [he, h'] at h
    cases h
    exact .transfer s.npc hc hl

theorem ExecForm.of_branchLinkIf {c : Bool} {o : BitVec 16} (hc : i.isControlFlow = true)
    (hl : i.linksTo = some Config.linkReg) (he : exec i s = branchLinkIf c o s)
    (h : exec i s = .next t) : ExecForm i s t := by
  obtain ⟨_, h'⟩ | ⟨_, h'⟩ := branchLinkIf_cases c o s
  · rw [he, h'] at h
    cases h
    exact .linked _ _ hc hl
  · rw [he, h'] at h
    cases h
    exact .linked _ s.npc hc hl

theorem ExecForm.of_arith {op : Double → Double → FResult} {fd fs ft : Slot}
    (hc : i.isControlFlow = false) (hr : i.mayRaise .reservedInstruction = true)
    (hw : i.writesSlots = true) (hp : i.pairs = [fs, ft, fd])
    (he : exec i s = arith op fd fs ft s) (h : exec i s = .next t) : ExecForm i s t := by
  refine .of_reserved (u := s.writeResult fd (op (s.readPair fs) (s.readPair ft))) hr ?_ ?_ h
  · obtain ⟨_, _, _, h'⟩ | ⟨hn, h'⟩ := arith_cases op fd fs ft s
    · exact .inl (he.trans h')
    · exact .inr ⟨by rw [hp]; simpa [eq_comm] using hn, he.trans h'⟩
  · cases op (s.readPair fs) (s.readPair ft) <;> exact .slots _ _ hc hw

theorem ExecForm.of_bitOp {op : Double → Double} {fd fs : Slot}
    (hc : i.isControlFlow = false) (hr : i.mayRaise .reservedInstruction = true)
    (hw : i.writesSlots = true) (hp : i.pairs = [fs, fd])
    (he : exec i s = bitOp op fd fs s) (h : exec i s = .next t) : ExecForm i s t := by
  refine .of_reserved (u := s.writePair fd (op (s.readPair fs))) hr ?_ (.slots _ _ hc hw) h
  obtain ⟨_, _, h'⟩ | ⟨hn, h'⟩ := bitOp_cases op fd fs s
  · exact .inl (he.trans h')
  · exact .inr ⟨by rw [hp]; simpa [eq_comm] using hn, he.trans h'⟩

theorem ExecForm.of_compare {cond : Double → Double → Bool} {fs ft : Slot}
    (hc : i.isControlFlow = false) (hr : i.mayRaise .reservedInstruction = true)
    (hw : i.writesCc = true) (hp : i.pairs = [fs, ft])
    (he : exec i s = Machine.compareD cond fs ft s) (h : exec i s = .next t) : ExecForm i s t := by
  refine .of_reserved (u := s.writeCc (cond (s.readPair fs) (s.readPair ft))) hr ?_
    (.flag _ hc hw) h
  obtain ⟨_, _, h'⟩ | ⟨hn, h'⟩ := compareD_cases cond fs ft s
  · exact .inl (he.trans h')
  · exact .inr ⟨by rw [hp]; simpa [eq_comm] using hn, he.trans h'⟩

theorem ExecForm.of_withPair {n : Slot} {u : State} (hr : i.mayRaise .reservedInstruction = true)
    (hp : n ∈ i.pairs) (he : exec i s = s.withPair n (.next u)) (hu : ExecForm i s u)
    (h : exec i s = .next t) : ExecForm i s t := by
  refine .of_reserved hr ?_ hu h
  obtain ⟨_, h'⟩ | ⟨hn, h'⟩ := withPair_cases s n (.next u)
  · exact .inl (he.trans h')
  · exact .inr ⟨hn ▸ hp, he.trans h'⟩

end

/-- What a behaviour that answers a next state has done. -/
theorem exec_forms {i : Instr} {s t : State} (h : exec i s = .next t) : ExecForm i s t := by
  cases i with
  | add rd rs rt => exact .of_addTrapping rfl rfl rfl h
  | addi rt rs imm => exact .of_addTrapping rfl rfl rfl h
  | addu rd rs rt => exact .of_register rfl rfl h
  | sub rd rs rt => exact .of_register rfl rfl h
  | subu rd rs rt => exact .of_register rfl rfl h
  | addiu rt rs imm => exact .of_register rfl rfl h
  | slt rd rs rt => exact .of_register rfl rfl h
  | sltu rd rs rt => exact .of_register rfl rfl h
  | slti rt rs imm => exact .of_register rfl rfl h
  | sltiu rt rs imm => exact .of_register rfl rfl h
  | and rd rs rt => exact .of_register rfl rfl h
  | or rd rs rt => exact .of_register rfl rfl h
  | xor rd rs rt => exact .of_register rfl rfl h
  | nor rd rs rt => exact .of_register rfl rfl h
  | andi rt rs imm => exact .of_register rfl rfl h
  | ori rt rs imm => exact .of_register rfl rfl h
  | xori rt rs imm => exact .of_register rfl rfl h
  | lui rt imm => exact .of_register rfl rfl h
  | sll rd rt shamt => exact .of_register rfl rfl h
  | srl rd rt shamt => exact .of_register rfl rfl h
  | sra rd rt shamt => exact .of_register rfl rfl h
  | sllv rd rt rs => exact .of_register rfl rfl h
  | srlv rd rt rs => exact .of_register rfl rfl h
  | srav rd rt rs => exact .of_register rfl rfl h
  | mult rs rt =>
    cases h
    exact .accumulators _ _ s.draws rfl (fun e => by cases e) (fun e => by cases e)
  | multu rs rt =>
    cases h
    exact .accumulators _ _ s.draws rfl (fun e => by cases e) (fun e => by cases e)
  | div rs rt =>
    exact .of_divide rfl rfl rfl rfl
      ((execDiv_cases rs rt s).imp (fun e => e.2) (fun e => e.2)) h
  | divu rs rt =>
    exact .of_divide rfl rfl rfl rfl
      ((execDivu_cases rs rt s).imp (fun e => e.2) (fun e => e.2)) h
  | mfhi rd => exact .of_register rfl rfl h
  | mflo rd => exact .of_register rfl rfl h
  | mthi rs =>
    cases h
    exact .accumulators _ s.lo s.draws rfl (fun e => by cases e) (fun _ => rfl)
  | mtlo rs =>
    cases h
    exact .accumulators s.hi _ s.draws rfl (fun _ => rfl) (fun e => by cases e)
  | seb rd rt => exact .of_register rfl rfl h
  | seh rd rt => exact .of_register rfl rfl h
  | ext rt rs pos size =>
    obtain ⟨_, h'⟩ | ⟨_, h'⟩ := execExt_cases rt rs pos size s
    · exact .of_register rfl h' h
    · cases h'.symm.trans h
      exact .register _ _ _ rfl
  | movz rd rs rt => exact .of_moveIf rfl rfl h
  | movn rd rs rt => exact .of_moveIf rfl rfl h
  | movf rd rs => exact .of_moveIf rfl rfl h
  | movt rd rs => exact .of_moveIf rfl rfl h
  | lb rt base o => exact .of_access rfl (.register _ _ (s.writeGpr rt _).draws rfl) h
  | lbu rt base o => exact .of_access rfl (.register _ _ (s.writeGpr rt _).draws rfl) h
  | lh rt base o => exact .of_access rfl (.register _ _ (s.writeGpr rt _).draws rfl) h
  | lhu rt base o => exact .of_access rfl (.register _ _ (s.writeGpr rt _).draws rfl) h
  | lw rt base o => exact .of_wordAccess rfl rfl (.register _ _ (s.writeGpr rt _).draws rfl) h
  | ll rt base o => exact .of_wordAccess rfl rfl (.register _ _ (s.writeGpr rt _).draws rfl) h
  | lwl rt base o => exact .of_access rfl (.register _ _ (s.writeGpr rt _).draws rfl) h
  | lwr rt base o => exact .of_access rfl (.register _ _ (s.writeGpr rt _).draws rfl) h
  | sb rt base o => exact .of_access rfl (.of_stores (ws := [(_, _)]) rfl rfl rfl) h
  | sh rt base o => exact .of_access rfl (.of_stores (ws := [(_, _), (_, _)]) rfl rfl rfl) h
  | sw rt base o => exact .of_wordAccess rfl rfl (.of_writeWord rfl rfl _ _) h
  | swl rt base o => exact .of_access rfl (.of_writeWord rfl rfl _ _) h
  | swr rt base o => exact .of_access rfl (.of_writeWord rfl rfl _ _) h
  | sc rt base o => exact .of_wordAccess rfl rfl (.stored (wordBytes _ _) rt 1#32 rfl rfl) h
  | ldc1 n base o =>
    exact .of_pairAccess rfl rfl (List.mem_singleton.2 rfl) rfl (.slots _ s.draws rfl rfl) h
  | ldxc1 n idx base =>
    exact .of_pairAccess rfl rfl (List.mem_singleton.2 rfl) rfl (.slots _ s.draws rfl rfl) h
  | sdc1 n base o =>
    exact .of_pairAccess rfl rfl (List.mem_singleton.2 rfl) rfl
      (.of_writeWords rfl rfl _ _ _ _) h
  | sdxc1 n idx base =>
    exact .of_pairAccess rfl rfl (List.mem_singleton.2 rfl) rfl
      (.of_writeWords rfl rfl _ _ _ _) h
  | j index =>
    cases h
    exact .transfer _ rfl rfl
  | jal index =>
    cases h
    exact .linked _ _ rfl rfl
  | jr rs =>
    cases h
    exact .transfer _ rfl rfl
  | jalr rd rs =>
    cases h
    exact .linked _ _ rfl rfl
  | beq rs rt o => exact .of_branchIf rfl rfl rfl h
  | bne rs rt o => exact .of_branchIf rfl rfl rfl h
  | blez rs o => exact .of_branchIf rfl rfl rfl h
  | bgtz rs o => exact .of_branchIf rfl rfl rfl h
  | bltz rs o => exact .of_branchIf rfl rfl rfl h
  | bgez rs o => exact .of_branchIf rfl rfl rfl h
  | bltzal rs o => exact .of_branchLinkIf rfl rfl rfl h
  | bgezal rs o => exact .of_branchLinkIf rfl rfl rfl h
  | bc1f o => exact .of_branchIf rfl rfl rfl h
  | bc1t o => exact .of_branchIf rfl rfl rfl h
  | bc1fl o => exact .of_branchIf rfl rfl rfl h
  | bc1tl o => exact .of_branchIf rfl rfl rfl h
  | addD fd fs ft => exact .of_arith rfl rfl rfl rfl rfl h
  | subD fd fs ft => exact .of_arith rfl rfl rfl rfl rfl h
  | mulD fd fs ft => exact .of_arith rfl rfl rfl rfl rfl h
  | divD fd fs ft => exact .of_arith rfl rfl rfl rfl rfl h
  | negD fd fs => exact .of_bitOp rfl rfl rfl rfl rfl h
  | movD fd fs => exact .of_bitOp rfl rfl rfl rfl rfl h
  | cvtDW fd fs =>
    exact .of_withPair rfl (List.mem_singleton.2 rfl) rfl (.slots _ s.draws rfl rfl) h
  | truncWD fd fs =>
    obtain ⟨hn, h'⟩ | ⟨_, w, _, h'⟩ | ⟨_, _, h'⟩ := execTruncWD_cases fd fs s
    · cases h'.symm.trans h
      exact .raised _ rfl (fun _ => List.mem_singleton.2 hn.symm)
    · cases h'.symm.trans h
      exact .slots _ s.draws rfl rfl
    · cases h'.symm.trans h
      exact .slots _ _ rfl rfl
  | cEqD fs ft => exact .of_compare rfl rfl rfl rfl rfl h
  | cOltD fs ft => exact .of_compare rfl rfl rfl rfl rfl h
  | cUnD fs ft => exact .of_compare rfl rfl rfl rfl rfl h
  | mfc1 rt fs => exact .of_register rfl rfl h
  | mtc1 rt fs =>
    cases h
    exact .slots _ s.draws rfl rfl
  | mfhc1 rt fs =>
    exact .of_withPair rfl (List.mem_singleton.2 rfl) rfl
      (.register _ _ (s.writeGpr rt _).draws rfl) h
  | mthc1 rt fs =>
    exact .of_withPair rfl (List.mem_singleton.2 rfl) rfl (.slots _ s.draws rfl rfl) h
  | syscall code =>
    have h' : execSyscall code s = .next t := h
    unfold execSyscall at h'
    cases hr : s.bridgeReply (s.syscallNumber code) with
    | fail =>
      rw [hr] at h'
      cases h'
      exact .served code [] _ _ rfl
    | ok v ws =>
      rw [hr] at h'
      cases h'
      rw [State.serveReply, bridgeWrites_eq_storeBytes]
      exact .served code _ _ _ rfl
    | halt =>
      rw [hr] at h'
      cases h'
      exact .ended code rfl hr
  | teq rs rt c =>
    obtain ⟨_, h'⟩ | ⟨_, h'⟩ := execTeq_cases rs rt c s
    · cases h'.symm.trans h
      exact .raised _ rfl (fun e => by cases e)
    · cases h'.symm.trans h
      exact .unchanged rfl
  | brk c =>
    cases h
    exact .raised _ rfl (fun e => by cases e)

end Sys2Proof.Machine
end

