-- ==== Sys2Proof/Laws/Float.lean ====
section
/-! SUPPORT. Binary64 arithmetic (spec/44_fp_coprocessor.md R250 to R253): the fields of a pattern, that
`roundMag` is the correctly rounded magnitude, and that a drawn NaN is a NaN. -/

namespace Sys2Proof.Machine

/-- A significand of 53 bits at binade `k`. -/
theorem magValue_norm (k m : Nat) (h1 : 2^52 ≤ m) (h2 : m < 2^53) : magValue (k * 2^52 + m) = m * 2^k := by
  have e : (k * 2^52 + m) / 2^52 = k + 1 := by omega
  have e2 : (k * 2^52 + m) % 2^52 = m - 2^52 := by omega
  simp only [magValue, e, e2]
  rw [if_neg (by omega), show 2^52 + (m - 2^52) = m by omega, show k + 1 - 1 = k by omega]

/-- A subnormal. -/
theorem magValue_sub (m : Nat) (h : m < 2^52) : magValue m = m := by
  simp only [magValue]; rw [if_pos (by omega)]; omega

/-- The value of the magnitude bits `k * 2^52 + m` that `roundMag` builds, a significand carried into the next
binade included. -/
theorem magValue_bits (k m : Nat) (h1 : k = 0 ∨ 2^52 ≤ m) (h2 : m ≤ 2^53) : magValue (k * 2^52 + m) = m * 2^k := by
  by_cases h : m = 2^53
  · subst h
    rw [show k * 2^52 + 2^53 = (k+1) * 2^52 + 2^52 by omega, magValue_norm _ _ (by omega) (by omega), Nat.pow_succ]
    ring
  · by_cases h' : 2^52 ≤ m
    · exact magValue_norm k m h' (by omega)
    · rcases h1 with rfl | h1
      · rw [Nat.zero_mul, Nat.zero_add, magValue_sub m (by omega)]; simp
      · omega

/-- Every magnitude is a binade and a significand. -/
theorem mag_split (n : Nat) : ∃ k m, n = k * 2^52 + m ∧ (k = 0 ∨ 2^52 ≤ m) ∧ m < 2^53 := by
  by_cases h : n < 2^52
  · exact ⟨0, n, by omega, .inl rfl, by omega⟩
  · exact ⟨n / 2^52 - 1, n % 2^52 + 2^52, by omega, .inr (by omega), by omega⟩

/-- Values rise with the bits. -/
theorem magValue_succ (n : Nat) : magValue n < magValue (n+1) := by
  obtain ⟨k, m, rfl, h, hm⟩ := mag_split n
  rw [show k * 2^52 + m + 1 = k * 2^52 + (m+1) by omega, magValue_bits k m h (by omega), magValue_bits k (m+1) (by omega) (by omega)]
  exact Nat.mul_lt_mul_of_pos_right (by omega) (Nat.two_pow_pos k)

/-- Values rise strictly with the bits. -/
theorem magValue_strictMono : StrictMono magValue := strictMono_nat_of_lt_succ magValue_succ

/-- `roundDiv` is nearest, ties to even. -/
theorem roundDiv_spec (num den : Nat) (hd : 0 < den) (j : Nat) :
    let m := roundDiv num den
    (((m * den : Int) - num).natAbs ≤ ((j * den : Int) - num).natAbs) ∧
    (((j * den : Int) - num).natAbs = ((m * den : Int) - num).natAbs → j ≠ m → m % 2 = 0) := by
  intro m
  have e := Nat.div_add_mod num den
  have hr := Nat.mod_lt num hd
  set q := num / den with hq
  set r := num % den with hrr
  have hm : m = if den < 2 * r ∨ (2 * r = den ∧ q % 2 = 1) then q + 1 else q := rfl
  have hnum : (num : Int) = den * q + r := by exact_mod_cast e.symm
  -- j*den - num = (j - q)*den - r
  have hj : ((j * den : Int) - num) = ((j : Int) - q) * den - r := by rw [hnum]; ring
  have hmm : ((m * den : Int) - num) = ((m : Int) - q) * den - r := by rw [hnum]; ring
  rw [hj, hmm]
  have jcase : (j : Int) - q ≤ -1 ∨ (j : Int) - q = 0 ∨ (j : Int) - q = 1 ∨ 2 ≤ (j : Int) - q := by omega
  have hdI : (0 : Int) < den := by exact_mod_cast hd
  split_ifs at hm with hc <;> rw [hm] <;> push_cast
  · have e1 : ((q : Int) + 1 - q) * den - r = den - r := by ring
    rw [e1]
    rcases jcase with h | h | h | h
    · have : ((j : Int) - q) * den ≤ -1 * den := Int.mul_le_mul_of_nonneg_right h hdI.le
      constructor
      · omega
      · intro h1 _; omega
    · rw [h]; constructor
      · omega
      · intro h1 _; omega
    · rw [h]; constructor
      · omega
      · intro h1 h2; omega
    · have : 2 * (den : Int) ≤ ((j : Int) - q) * den := Int.mul_le_mul_of_nonneg_right h hdI.le
      constructor
      · omega
      · intro h1 _; omega
  · have e1 : ((q : Int) - q) * den - r = - r := by ring
    rw [e1]
    rcases jcase with h | h | h | h
    · have : ((j : Int) - q) * den ≤ -1 * den := Int.mul_le_mul_of_nonneg_right h hdI.le
      constructor
      · omega
      · intro h1 _; omega
    · rw [h]; constructor
      · omega
      · intro h1 h2; omega
    · rw [h]; constructor
      · omega
      · intro h1 h2; omega
    · have : 2 * (den : Int) ≤ ((j : Int) - q) * den := Int.mul_le_mul_of_nonneg_right h hdI.le
      constructor
      · omega
      · intro h1 _; omega

/-- The distance of a pattern, with its binade's unit. -/
theorem magDistance_bits (num den k m : Nat) (h1 : k = 0 ∨ 2^52 ≤ m) (h2 : m ≤ 2^53) :
    magDistance num den (k * 2^52 + m) = ((m * (den * 2^k : Nat) : Int) - num).natAbs := by
  simp only [magDistance, magValue_bits k m h1 h2]; congr 2; push_cast; ring

/-- Without a largest binade, the rounded bits are nearest among all bits, ties to even. -/
theorem roundMag_nearest_unbounded (num den : Nat) (hd : 0 < den) :
    let k := roundShift num den
    let b := k * 2^52 + roundDiv num (den * 2^k)
    ∀ n, magDistance num den b ≤ magDistance num den n ∧ (n ≠ b → magDistance num den n = magDistance num den b → b % 2 = 0) := by
  intro k b
  set D := den * 2^k with hD
  have hDpos : 0 < D := Nat.mul_pos hd (Nat.two_pow_pos k)
  set m := roundDiv num D with hm
  -- bounds on num/D
  have hq : num / D = (num / den) / 2^k := by rw [hD, Nat.div_div_eq_div_mul]
  have hk0 : k = (num/den).log2 - 52 := rfl
  have hup : num / D < 2^53 := by
    rw [hq, Nat.div_lt_iff_lt_mul (Nat.two_pow_pos k), ← Nat.pow_add]
    by_cases h0 : num / den = 0
    · rw [h0]; exact Nat.two_pow_pos _
    · calc num/den < 2^((num/den).log2+1) := Nat.lt_log2_self
        _ ≤ 2^(53+k) := Nat.pow_le_pow_right (by omega) (by omega)
  have hlow : 0 < k → 2^52 ≤ num / D := by
    intro hk
    rw [hq, Nat.le_div_iff_mul_le (Nat.two_pow_pos k), ← Nat.pow_add, show 52 + k = (num/den).log2 by omega]
    exact Nat.log2_self_le (by intro h; rw [h] at hk0; simp at hk0; omega)
  have hmb : num / D ≤ m ∧ m ≤ num / D + 1 := by
    rw [hm]; simp only [roundDiv]; split <;> omega
  have m1 : k = 0 ∨ 2^52 ≤ m := by
    rcases Nat.eq_zero_or_pos k with h | h
    · exact .inl h
    · exact .inr (le_trans (hlow h) hmb.1)
  have m2 : m ≤ 2^53 := by omega
  have hb : magDistance num den b = ((m * D : Int) - num).natAbs := magDistance_bits num den k m m1 m2
  intro n
  obtain ⟨k', m', rfl, h1', h2'⟩ := mag_split n
  rw [hb]
  have bpar : b % 2 = m % 2 := by show (k * 2^52 + m) % 2 = _; omega
  by_cases hkk : k ≤ k'
  · -- multiple of 2^k
    have e : magDistance num den (k' * 2^52 + m') = (((m' * 2^(k'-k) : Nat) * D : Int) - num).natAbs := by
      rw [magDistance_bits num den k' m' h1' (by omega)]
      have : 2^k' = 2^(k'-k) * 2^k := by rw [← Nat.pow_add]; congr 1; omega
      rw [this, hD]; congr 2; push_cast; ring
    rw [e]
    have := roundDiv_spec num D hDpos (m' * 2^(k'-k))
    refine ⟨this.1, fun hne heq => ?_⟩
    rw [bpar]
    refine this.2 heq ?_
    intro hj
    apply hne
    apply magValue_strictMono.injective
    rw [magValue_bits k' m' h1' (by omega), magValue_bits k m m1 m2]
    have hj' : m' * 2^(k'-k) = m := hj
    rw [← hj', Nat.mul_assoc, ← Nat.pow_add]; congr 2; omega
  · -- below
    have hkp : 0 < k := by omega
    have hv : magValue (k' * 2^52 + m') < 2^52 * 2^k := by
      rw [magValue_bits k' m' h1' (by omega)]
      calc m' * 2^k' < 2^53 * 2^k' := Nat.mul_lt_mul_of_pos_right h2' (Nat.two_pow_pos _)
        _ = 2^52 * 2^(k'+1) := by ring
        _ ≤ 2^52 * 2^k := Nat.mul_le_mul_left _ (Nat.pow_le_pow_right (by omega) (by omega))
    have hx : 2^52 * D ≤ num := by
      have := hlow hkp
      rw [Nat.le_div_iff_mul_le hDpos] at this; exact this
    have hvd : magValue (k' * 2^52 + m') * den < 2^52 * D := by
      rw [hD, Nat.mul_comm den, ← Nat.mul_assoc]; exact Nat.mul_lt_mul_of_pos_right hv hd
    have h := (roundDiv_spec num D hDpos (2^52)).1
    change ((m * D : Int) - num).natAbs ≤ _ at h
    simp only [magDistance]
    have c1 : ((2^52 : Nat) * D : Int) ≤ num := by exact_mod_cast hx
    have c2 : (magValue (k' * 2^52 + m') * den : Int) < (2^52 : Nat) * D := by exact_mod_cast hvd
    generalize (magValue (k' * 2^52 + m') * den : Int) = V at *
    generalize ((m * D : Int) - num).natAbs = W at *
    generalize (((2^52 : Nat) : Int) * D) = U at *
    omega

/-- The whole of what `roundMag` does: it is the correctly rounded magnitude (44_fp_coprocessor.md R252). -/
theorem roundMag_nearest (num den : Nat) (hd : 0 < den) : IsNearestEven num den (roundMag num den) := by
  have H := roundMag_nearest_unbounded num den hd
  simp only at H
  unfold roundMag
  simp only
  set b := roundShift num den * 2^52 + roundDiv num (den * 2^roundShift num den) with hb
  split
  · rename_i hinf
    refine ⟨Nat.le_refl _, ?_, ?_⟩
    · intro n hn
      rcases Nat.eq_or_lt_of_le hinf with h | h
      · rw [h]; exact (H n).1
      · have hV : magValue infMag < magValue b := magValue_strictMono h
        have hVn : magValue n ≤ magValue infMag := magValue_strictMono.monotone hn
        have := (H infMag).1
        simp only [magDistance] at *
        have c1 : (magValue infMag * den : Int) < magValue b * den := by exact_mod_cast Nat.mul_lt_mul_of_pos_right hV hd
        have c2 : (magValue n * den : Int) ≤ magValue infMag * den := by exact_mod_cast Nat.mul_le_mul_right den hVn
        generalize (magValue infMag * den : Int) = A at *
        generalize (magValue n * den : Int) = B at *
        generalize (magValue b * den : Int) = C at *
        omega
    · intro n hn hne heq
      decide
  · rename_i hinf
    refine ⟨by omega, fun n _ => (H n).1, fun n _ hne heq => (H n).2 hne heq⟩

/-! ### Fields of a pattern -/
open Sys2Proof Sys2Proof.Machine

/-- The fraction as a number. -/
theorem fFrac_nat (v : Double) : fFrac v = v.toNat % 2^52 := by simp [fFrac]

/-- The exponent field as a number. -/
theorem fExp_nat (v : Double) : fExp v = v.toNat / 2^52 % 2^11 := by simp [fExp, Nat.shiftRight_eq_div_pow]

/-- The magnitude bits as a number. -/
theorem fMagBits_nat (v : Double) : fMagBits v = v.toNat % 2^63 := by simp [fMagBits]

/-- The sign bit as a comparison. -/
theorem fSign_nat (v : Double) : fSign v = decide (2^63 ≤ v.toNat) := by
  have := v.isLt
  rw [fSign, ← BitVec.testBit_toNat, Nat.testBit_eq_decide_div_mod_eq]
  simp only [decide_eq_decide]; omega

/-- Magnitude bits are exponent and fraction. -/
theorem fMagBits_split (v : Double) : fMagBits v = fExp v * 2^52 + fFrac v := by
  rw [fMagBits_nat, fExp_nat, fFrac_nat]; omega
theorem fFrac_lt (v : Double) : fFrac v < 2^52 := by rw [fFrac_nat]; omega
theorem fExp_lt (v : Double) : fExp v < 2048 := by rw [fExp_nat]; omega

/-- Sign and magnitude bits determine a pattern. -/
theorem double_ext {v w : Double} (h1 : fSign v = fSign w) (h2 : fMagBits v = fMagBits w) : v = w := by
  apply BitVec.eq_of_toNat_eq
  have := v.isLt; have := w.isLt
  rw [fSign_nat, fSign_nat, decide_eq_decide] at h1
  rw [fMagBits_nat, fMagBits_nat] at h2
  omega

/-- A packed pattern as a number. -/
theorem fPack_toNat (b : Bool) (m : Nat) (h : m < 2^63) : (fPack b m).toNat = (if b then 2^63 else 0) + m := by
  rw [fPack, BitVec.toNat_append, BitVec.toNat_ofNat, Nat.mod_eq_of_lt h, Nat.shiftLeft_eq, Nat.mul_comm, ← Nat.two_pow_add_eq_or_of_lt h]
  cases b <;> simp

/-- Packing keeps the sign. -/
theorem fSign_fPack (b : Bool) (m : Nat) (h : m < 2^63) : fSign (fPack b m) = b := by
  rw [fSign_nat, fPack_toNat b m h]; cases b <;> simp; omega

/-- Packing keeps the magnitude bits. -/
theorem fMagBits_fPack (b : Bool) (m : Nat) (h : m < 2^63) : fMagBits (fPack b m) = m := by
  rw [fMagBits_nat, fPack_toNat b m h]; cases b <;> simp <;> omega

/-- The model's magnitude is the value of the magnitude bits. -/
theorem fMag_eq_magValue (v : Double) : fMag v = magValue (fMagBits v) := by
  have h1 := fFrac_lt v
  rw [fMagBits_split]
  simp only [fMag, magValue]
  rw [show (fExp v * 2^52 + fFrac v) / 2^52 = fExp v by omega, show (fExp v * 2^52 + fFrac v) % 2^52 = fFrac v by omega]

/-- A rounded magnitude fits 63 bits. -/
theorem roundMag_lt_two_pow (n d : Nat) (hd : 0 < d) : roundMag n d < 2^63 := by
  have := (roundMag_nearest n d hd).1
  exact lt_of_le_of_lt this (by decide)

/-- Only the zero patterns have magnitude 0. -/
theorem fMag_eq_zero_iff (v : Double) : fMag v = 0 ↔ fMagBits v = 0 := by
  rw [fMag_eq_magValue]
  constructor
  · intro h; by_contra hc
    have : magValue 0 < magValue (fMagBits v) := magValue_strictMono (by omega)
    omega
  · intro h; rw [h]; rfl

/-- The infinities, packed. -/
theorem infinityOf_eq_fPack (b : Bool) : infinityOf b = fPack b infMag := by cases b <;> decide

/-- The zeros, packed. -/
theorem zeroOf_eq_fPack (b : Bool) : zeroOf b = fPack b 0 := by cases b <;> decide

/-- There are two infinities. -/
theorem eq_infinityOf_of_isInf {v : Double} (h : fIsInf v = true) : v = infinityOf (fSign v) := by
  simp [fIsInf] at h
  rw [infinityOf_eq_fPack]
  apply double_ext
  · rw [fSign_fPack]; decide
  · rw [fMagBits_fPack _ _ (by decide), fMagBits_split, h.1, h.2]; rfl

/-- `fNeg` flips the sign. -/
theorem fNeg_sign (v : Double) : fSign (fNeg v) = !fSign v := by simp [fSign, fNeg]

/-- `fNeg` keeps the magnitude bits. -/
theorem fNeg_magBits (v : Double) : fMagBits (fNeg v) = fMagBits v := by
  unfold fMagBits fNeg; congr 1
  rw [BitVec.extractLsb'_xor]
  have : BitVec.extractLsb' 0 63 0x8000000000000000#64 = 0#63 := by decide
  rw [this]; simp

/-- `fNeg` keeps the exponent field. -/
theorem fNeg_exp (v : Double) : fExp (fNeg v) = fExp v := by
  have := fNeg_magBits v
  rw [fMagBits_split, fMagBits_split] at this
  have := fFrac_lt v; have := fFrac_lt (fNeg v); omega

/-- `fNeg` keeps the fraction. -/
theorem fNeg_frac (v : Double) : fFrac (fNeg v) = fFrac v := by
  have := fNeg_magBits v
  rw [fMagBits_split, fMagBits_split] at this
  have := fFrac_lt v; have := fFrac_lt (fNeg v); omega

/-- `fNeg` keeps NaNs. -/
theorem fNeg_nan (v) : fIsNaN (fNeg v) = fIsNaN v := by simp [fIsNaN, fNeg_exp, fNeg_frac]

/-- `fNeg` keeps infinities. -/
theorem fNeg_inf (v) : fIsInf (fNeg v) = fIsInf v := by simp [fIsInf, fNeg_exp, fNeg_frac]

/-- `fNeg` keeps finite patterns. -/
theorem fNeg_fin (v) : fIsFinite (fNeg v) = fIsFinite v := by simp [fIsFinite, fNeg_exp]

/-- `fNeg` negates values. -/
theorem fNeg_value (v) : fValue (fNeg v) = - fValue v := by
  simp only [fValue, fNeg_sign, fMag_eq_magValue, fNeg_magBits]; cases fSign v <;> simp

/-- Every draw gives a NaN (00_scope.md R14). -/
theorem fIsNaN_nanOf (x : BitVec 53) : fIsNaN (nanOf x) = true := by
  have hf : fFrac (nanOf x) = (if x.extractLsb' 0 52 = 0#52 then 1#52 else x.extractLsb' 0 52).toNat := by
    simp only [fFrac, nanOf, extract_append_low]
  have he : fExp (nanOf x) = 2047 := by
    have h := extract_append_high (x.extractLsb' 52 1 ++ 0x7FF#11)
      (if x.extractLsb' 0 52 = 0#52 then 1#52 else x.extractLsb' 0 52) 0 11
    rw [extract_append_low] at h
    exact congrArg BitVec.toNat h
  simp only [fIsNaN, he, hf]
  split
  · rfl
  · rename_i hne
    simp only [beq_self_eq_true, Bool.true_and, bne_iff_ne, ne_eq]
    intro hz
    exact hne (BitVec.eq_of_toNat_eq (by simpa using hz))

end Sys2Proof.Machine
end

