-- ==== Sys2Proof/Laws/PerInstr.lean ====
section
/-! SUPPORT. The per-instruction family `EncodesOwnRow`: the word of a well-formed instruction matches
a row of the opcode table, and reading that row's fields off the word gives the instruction back
(spec/30_encoding.md R90, R102). One lemma for each constructor of `Instr`. -/

namespace Sys2Proof.Laws

/-- Some row of the table matches the word of `i` and builds `i` from it. -/
def EncodesOwnRow.Statement (i : Instr) : Prop :=
  i.wellFormed = true → ∃ r ∈ opcodeTable, r.hits (encode i) = true ∧ r.build (encode i) = i

/-- The statement from the row's place in the table and the word's layout. -/
theorem encodesOwnRow_of_row {i : Instr} (k : Nat) {r : Row} (hr : opcodeTable[k]? = some r)
    (w : Word) (hw : encode i = w) (hh : r.hits w = true)
    (hb : i.wellFormed = true → r.build w = i) : EncodesOwnRow.Statement i :=
  fun h => ⟨r, List.mem_of_getElem? hr, by rw [hw]; exact hh, by rw [hw]; exact hb h⟩

theorem EncodesOwnRow.add (rd rs rt : Reg) :
    EncodesOwnRow.Statement (.add rd rs rt) :=
  encodesOwnRow_of_row 0 rfl (special rs rt rd 0x20#6) rfl
    (by simp [Row.hits, special]; rfl)
    (fun _ => by simp [special])

theorem EncodesOwnRow.addu (rd rs rt : Reg) :
    EncodesOwnRow.Statement (.addu rd rs rt) :=
  encodesOwnRow_of_row 1 rfl (special rs rt rd 0x21#6) rfl
    (by simp [Row.hits, special]; rfl)
    (fun _ => by simp [special])

theorem EncodesOwnRow.sub (rd rs rt : Reg) :
    EncodesOwnRow.Statement (.sub rd rs rt) :=
  encodesOwnRow_of_row 2 rfl (special rs rt rd 0x22#6) rfl
    (by simp [Row.hits, special]; rfl)
    (fun _ => by simp [special])

theorem EncodesOwnRow.subu (rd rs rt : Reg) :
    EncodesOwnRow.Statement (.subu rd rs rt) :=
  encodesOwnRow_of_row 3 rfl (special rs rt rd 0x23#6) rfl
    (by simp [Row.hits, special]; rfl)
    (fun _ => by simp [special])

theorem EncodesOwnRow.addi (rt rs : Reg) (imm : BitVec 16) :
    EncodesOwnRow.Statement (.addi rt rs imm) :=
  encodesOwnRow_of_row 4 rfl (immediate 0x08#6 rs rt imm) rfl
    (by simp [Row.hits, immediate]; rfl)
    (fun _ => by simp [immediate])

theorem EncodesOwnRow.addiu (rt rs : Reg) (imm : BitVec 16) :
    EncodesOwnRow.Statement (.addiu rt rs imm) :=
  encodesOwnRow_of_row 5 rfl (immediate 0x09#6 rs rt imm) rfl
    (by simp [Row.hits, immediate]; rfl)
    (fun _ => by simp [immediate])

theorem EncodesOwnRow.slt (rd rs rt : Reg) :
    EncodesOwnRow.Statement (.slt rd rs rt) :=
  encodesOwnRow_of_row 6 rfl (special rs rt rd 0x2A#6) rfl
    (by simp [Row.hits, special]; rfl)
    (fun _ => by simp [special])

theorem EncodesOwnRow.sltu (rd rs rt : Reg) :
    EncodesOwnRow.Statement (.sltu rd rs rt) :=
  encodesOwnRow_of_row 7 rfl (special rs rt rd 0x2B#6) rfl
    (by simp [Row.hits, special]; rfl)
    (fun _ => by simp [special])

theorem EncodesOwnRow.slti (rt rs : Reg) (imm : BitVec 16) :
    EncodesOwnRow.Statement (.slti rt rs imm) :=
  encodesOwnRow_of_row 8 rfl (immediate 0x0A#6 rs rt imm) rfl
    (by simp [Row.hits, immediate]; rfl)
    (fun _ => by simp [immediate])

theorem EncodesOwnRow.sltiu (rt rs : Reg) (imm : BitVec 16) :
    EncodesOwnRow.Statement (.sltiu rt rs imm) :=
  encodesOwnRow_of_row 9 rfl (immediate 0x0B#6 rs rt imm) rfl
    (by simp [Row.hits, immediate]; rfl)
    (fun _ => by simp [immediate])

theorem EncodesOwnRow.and (rd rs rt : Reg) :
    EncodesOwnRow.Statement (.and rd rs rt) :=
  encodesOwnRow_of_row 10 rfl (special rs rt rd 0x24#6) rfl
    (by simp [Row.hits, special]; rfl)
    (fun _ => by simp [special])

theorem EncodesOwnRow.or (rd rs rt : Reg) :
    EncodesOwnRow.Statement (.or rd rs rt) :=
  encodesOwnRow_of_row 11 rfl (special rs rt rd 0x25#6) rfl
    (by simp [Row.hits, special]; rfl)
    (fun _ => by simp [special])

theorem EncodesOwnRow.xor (rd rs rt : Reg) :
    EncodesOwnRow.Statement (.xor rd rs rt) :=
  encodesOwnRow_of_row 12 rfl (special rs rt rd 0x26#6) rfl
    (by simp [Row.hits, special]; rfl)
    (fun _ => by simp [special])

theorem EncodesOwnRow.nor (rd rs rt : Reg) :
    EncodesOwnRow.Statement (.nor rd rs rt) :=
  encodesOwnRow_of_row 13 rfl (special rs rt rd 0x27#6) rfl
    (by simp [Row.hits, special]; rfl)
    (fun _ => by simp [special])

theorem EncodesOwnRow.andi (rt rs : Reg) (imm : BitVec 16) :
    EncodesOwnRow.Statement (.andi rt rs imm) :=
  encodesOwnRow_of_row 14 rfl (immediate 0x0C#6 rs rt imm) rfl
    (by simp [Row.hits, immediate]; rfl)
    (fun _ => by simp [immediate])

theorem EncodesOwnRow.ori (rt rs : Reg) (imm : BitVec 16) :
    EncodesOwnRow.Statement (.ori rt rs imm) :=
  encodesOwnRow_of_row 15 rfl (immediate 0x0D#6 rs rt imm) rfl
    (by simp [Row.hits, immediate]; rfl)
    (fun _ => by simp [immediate])

theorem EncodesOwnRow.xori (rt rs : Reg) (imm : BitVec 16) :
    EncodesOwnRow.Statement (.xori rt rs imm) :=
  encodesOwnRow_of_row 16 rfl (immediate 0x0E#6 rs rt imm) rfl
    (by simp [Row.hits, immediate]; rfl)
    (fun _ => by simp [immediate])

theorem EncodesOwnRow.lui (rt : Reg) (imm : BitVec 16) :
    EncodesOwnRow.Statement (.lui rt imm) :=
  encodesOwnRow_of_row 17 rfl (immediate 0x0F#6 0 rt imm) rfl
    (by simp [Row.hits, immediate]; rfl)
    (fun _ => by simp [immediate])

theorem EncodesOwnRow.sll (rd rt : Reg) (shamt : Nat) :
    EncodesOwnRow.Statement (.sll rd rt shamt) :=
  encodesOwnRow_of_row 18 rfl (layoutR 0x00#6 0#5 (regBits rt) (regBits rd) (BitVec.ofNat 5 shamt) 0x00#6) rfl
    (by simp [Row.hits]; rfl)
    (fun h => by
      have h : shamt < 32 := by simpa [Instr.wellFormed, shamtOk] using h
      simp [Nat.mod_eq_of_lt h])

theorem EncodesOwnRow.srl (rd rt : Reg) (shamt : Nat) :
    EncodesOwnRow.Statement (.srl rd rt shamt) :=
  encodesOwnRow_of_row 19 rfl (layoutR 0x00#6 0#5 (regBits rt) (regBits rd) (BitVec.ofNat 5 shamt) 0x02#6) rfl
    (by simp [Row.hits]; rfl)
    (fun h => by
      have h : shamt < 32 := by simpa [Instr.wellFormed, shamtOk] using h
      simp [Nat.mod_eq_of_lt h])

theorem EncodesOwnRow.sra (rd rt : Reg) (shamt : Nat) :
    EncodesOwnRow.Statement (.sra rd rt shamt) :=
  encodesOwnRow_of_row 20 rfl (layoutR 0x00#6 0#5 (regBits rt) (regBits rd) (BitVec.ofNat 5 shamt) 0x03#6) rfl
    (by simp [Row.hits]; rfl)
    (fun h => by
      have h : shamt < 32 := by simpa [Instr.wellFormed, shamtOk] using h
      simp [Nat.mod_eq_of_lt h])

theorem EncodesOwnRow.sllv (rd rt rs : Reg) :
    EncodesOwnRow.Statement (.sllv rd rt rs) :=
  encodesOwnRow_of_row 21 rfl (special rs rt rd 0x04#6) rfl
    (by simp [Row.hits, special]; rfl)
    (fun _ => by simp [special])

theorem EncodesOwnRow.srlv (rd rt rs : Reg) :
    EncodesOwnRow.Statement (.srlv rd rt rs) :=
  encodesOwnRow_of_row 22 rfl (special rs rt rd 0x06#6) rfl
    (by simp [Row.hits, special]; rfl)
    (fun _ => by simp [special])

theorem EncodesOwnRow.srav (rd rt rs : Reg) :
    EncodesOwnRow.Statement (.srav rd rt rs) :=
  encodesOwnRow_of_row 23 rfl (special rs rt rd 0x07#6) rfl
    (by simp [Row.hits, special]; rfl)
    (fun _ => by simp [special])

theorem EncodesOwnRow.mult (rs rt : Reg) :
    EncodesOwnRow.Statement (.mult rs rt) :=
  encodesOwnRow_of_row 24 rfl (special rs rt 0 0x18#6) rfl
    (by simp [Row.hits, special]; rfl)
    (fun _ => by simp [special])

theorem EncodesOwnRow.multu (rs rt : Reg) :
    EncodesOwnRow.Statement (.multu rs rt) :=
  encodesOwnRow_of_row 25 rfl (special rs rt 0 0x19#6) rfl
    (by simp [Row.hits, special]; rfl)
    (fun _ => by simp [special])

theorem EncodesOwnRow.div (rs rt : Reg) :
    EncodesOwnRow.Statement (.div rs rt) :=
  encodesOwnRow_of_row 26 rfl (special rs rt 0 0x1A#6) rfl
    (by simp [Row.hits, special]; rfl)
    (fun _ => by simp [special])

theorem EncodesOwnRow.divu (rs rt : Reg) :
    EncodesOwnRow.Statement (.divu rs rt) :=
  encodesOwnRow_of_row 27 rfl (special rs rt 0 0x1B#6) rfl
    (by simp [Row.hits, special]; rfl)
    (fun _ => by simp [special])

theorem EncodesOwnRow.mfhi (rd : Reg) :
    EncodesOwnRow.Statement (.mfhi rd) :=
  encodesOwnRow_of_row 28 rfl (special 0 0 rd 0x10#6) rfl
    (by simp [Row.hits, special]; rfl)
    (fun _ => by simp [special])

theorem EncodesOwnRow.mthi (rs : Reg) :
    EncodesOwnRow.Statement (.mthi rs) :=
  encodesOwnRow_of_row 29 rfl (special rs 0 0 0x11#6) rfl
    (by simp [Row.hits, special]; rfl)
    (fun _ => by simp [special])

theorem EncodesOwnRow.mflo (rd : Reg) :
    EncodesOwnRow.Statement (.mflo rd) :=
  encodesOwnRow_of_row 30 rfl (special 0 0 rd 0x12#6) rfl
    (by simp [Row.hits, special]; rfl)
    (fun _ => by simp [special])

theorem EncodesOwnRow.mtlo (rs : Reg) :
    EncodesOwnRow.Statement (.mtlo rs) :=
  encodesOwnRow_of_row 31 rfl (special rs 0 0 0x13#6) rfl
    (by simp [Row.hits, special]; rfl)
    (fun _ => by simp [special])

theorem EncodesOwnRow.seb (rd rt : Reg) :
    EncodesOwnRow.Statement (.seb rd rt) :=
  encodesOwnRow_of_row 32 rfl (layoutR 0x1F#6 0#5 (regBits rt) (regBits rd) 0x10#5 0x20#6) rfl
    (by simp [Row.hits]; rfl)
    (fun _ => by simp)

theorem EncodesOwnRow.seh (rd rt : Reg) :
    EncodesOwnRow.Statement (.seh rd rt) :=
  encodesOwnRow_of_row 33 rfl (layoutR 0x1F#6 0#5 (regBits rt) (regBits rd) 0x18#5 0x20#6) rfl
    (by simp [Row.hits]; rfl)
    (fun _ => by simp)

theorem EncodesOwnRow.ext (rt rs : Reg) (pos size : Nat) :
    EncodesOwnRow.Statement (.ext rt rs pos size) :=
  encodesOwnRow_of_row 34 rfl (layoutR 0x1F#6 (regBits rs) (regBits rt) (BitVec.ofNat 5 (size - 1)) (BitVec.ofNat 5 pos) 0x00#6) rfl
    (by simp [Row.hits]; rfl)
    (fun h => by
      have h : pos < 32 ∧ 1 ≤ size ∧ size ≤ 32 := by
        simpa [Instr.wellFormed, extFieldOk] using h
      simp [Nat.mod_eq_of_lt h.1, Nat.mod_eq_of_lt (show size - 1 < 32 by omega),
        show size - 1 + 1 = size by omega])

theorem EncodesOwnRow.movz (rd rs rt : Reg) :
    EncodesOwnRow.Statement (.movz rd rs rt) :=
  encodesOwnRow_of_row 35 rfl (special rs rt rd 0x0A#6) rfl
    (by simp [Row.hits, special]; rfl)
    (fun _ => by simp [special])

theorem EncodesOwnRow.movn (rd rs rt : Reg) :
    EncodesOwnRow.Statement (.movn rd rs rt) :=
  encodesOwnRow_of_row 36 rfl (special rs rt rd 0x0B#6) rfl
    (by simp [Row.hits, special]; rfl)
    (fun _ => by simp [special])

theorem EncodesOwnRow.movf (rd rs : Reg) :
    EncodesOwnRow.Statement (.movf rd rs) :=
  encodesOwnRow_of_row 37 rfl (layoutR 0x00#6 (regBits rs) 0x00#5 (regBits rd) 0#5 0x01#6) rfl
    (by simp [Row.hits]; rfl)
    (fun _ => by simp)

theorem EncodesOwnRow.movt (rd rs : Reg) :
    EncodesOwnRow.Statement (.movt rd rs) :=
  encodesOwnRow_of_row 38 rfl (layoutR 0x00#6 (regBits rs) 0x01#5 (regBits rd) 0#5 0x01#6) rfl
    (by simp [Row.hits]; rfl)
    (fun _ => by simp)

theorem EncodesOwnRow.lb (rt base : Reg) (offset : BitVec 16) :
    EncodesOwnRow.Statement (.lb rt base offset) :=
  encodesOwnRow_of_row 39 rfl (immediate 0x20#6 base rt offset) rfl
    (by simp [Row.hits, immediate]; rfl)
    (fun _ => by simp [immediate])

theorem EncodesOwnRow.lbu (rt base : Reg) (offset : BitVec 16) :
    EncodesOwnRow.Statement (.lbu rt base offset) :=
  encodesOwnRow_of_row 40 rfl (immediate 0x24#6 base rt offset) rfl
    (by simp [Row.hits, immediate]; rfl)
    (fun _ => by simp [immediate])

theorem EncodesOwnRow.lh (rt base : Reg) (offset : BitVec 16) :
    EncodesOwnRow.Statement (.lh rt base offset) :=
  encodesOwnRow_of_row 41 rfl (immediate 0x21#6 base rt offset) rfl
    (by simp [Row.hits, immediate]; rfl)
    (fun _ => by simp [immediate])

theorem EncodesOwnRow.lhu (rt base : Reg) (offset : BitVec 16) :
    EncodesOwnRow.Statement (.lhu rt base offset) :=
  encodesOwnRow_of_row 42 rfl (immediate 0x25#6 base rt offset) rfl
    (by simp [Row.hits, immediate]; rfl)
    (fun _ => by simp [immediate])

theorem EncodesOwnRow.lw (rt base : Reg) (offset : BitVec 16) :
    EncodesOwnRow.Statement (.lw rt base offset) :=
  encodesOwnRow_of_row 43 rfl (immediate 0x23#6 base rt offset) rfl
    (by simp [Row.hits, immediate]; rfl)
    (fun _ => by simp [immediate])

theorem EncodesOwnRow.sb (rt base : Reg) (offset : BitVec 16) :
    EncodesOwnRow.Statement (.sb rt base offset) :=
  encodesOwnRow_of_row 44 rfl (immediate 0x28#6 base rt offset) rfl
    (by simp [Row.hits, immediate]; rfl)
    (fun _ => by simp [immediate])

theorem EncodesOwnRow.sh (rt base : Reg) (offset : BitVec 16) :
    EncodesOwnRow.Statement (.sh rt base offset) :=
  encodesOwnRow_of_row 45 rfl (immediate 0x29#6 base rt offset) rfl
    (by simp [Row.hits, immediate]; rfl)
    (fun _ => by simp [immediate])

theorem EncodesOwnRow.sw (rt base : Reg) (offset : BitVec 16) :
    EncodesOwnRow.Statement (.sw rt base offset) :=
  encodesOwnRow_of_row 46 rfl (immediate 0x2B#6 base rt offset) rfl
    (by simp [Row.hits, immediate]; rfl)
    (fun _ => by simp [immediate])

theorem EncodesOwnRow.lwl (rt base : Reg) (offset : BitVec 16) :
    EncodesOwnRow.Statement (.lwl rt base offset) :=
  encodesOwnRow_of_row 47 rfl (immediate 0x22#6 base rt offset) rfl
    (by simp [Row.hits, immediate]; rfl)
    (fun _ => by simp [immediate])

theorem EncodesOwnRow.lwr (rt base : Reg) (offset : BitVec 16) :
    EncodesOwnRow.Statement (.lwr rt base offset) :=
  encodesOwnRow_of_row 48 rfl (immediate 0x26#6 base rt offset) rfl
    (by simp [Row.hits, immediate]; rfl)
    (fun _ => by simp [immediate])

theorem EncodesOwnRow.swl (rt base : Reg) (offset : BitVec 16) :
    EncodesOwnRow.Statement (.swl rt base offset) :=
  encodesOwnRow_of_row 49 rfl (immediate 0x2A#6 base rt offset) rfl
    (by simp [Row.hits, immediate]; rfl)
    (fun _ => by simp [immediate])

theorem EncodesOwnRow.swr (rt base : Reg) (offset : BitVec 16) :
    EncodesOwnRow.Statement (.swr rt base offset) :=
  encodesOwnRow_of_row 50 rfl (immediate 0x2E#6 base rt offset) rfl
    (by simp [Row.hits, immediate]; rfl)
    (fun _ => by simp [immediate])

theorem EncodesOwnRow.ll (rt base : Reg) (offset : BitVec 16) :
    EncodesOwnRow.Statement (.ll rt base offset) :=
  encodesOwnRow_of_row 51 rfl (immediate 0x30#6 base rt offset) rfl
    (by simp [Row.hits, immediate]; rfl)
    (fun _ => by simp [immediate])

theorem EncodesOwnRow.sc (rt base : Reg) (offset : BitVec 16) :
    EncodesOwnRow.Statement (.sc rt base offset) :=
  encodesOwnRow_of_row 52 rfl (immediate 0x38#6 base rt offset) rfl
    (by simp [Row.hits, immediate]; rfl)
    (fun _ => by simp [immediate])

theorem EncodesOwnRow.ldc1 (ft : Slot) (base : Reg) (offset : BitVec 16) :
    EncodesOwnRow.Statement (.ldc1 ft base offset) :=
  encodesOwnRow_of_row 53 rfl (immediate 0x35#6 base ft offset) rfl
    (by simp [Row.hits, immediate]; rfl)
    (fun _ => by simp [immediate])

theorem EncodesOwnRow.sdc1 (ft : Slot) (base : Reg) (offset : BitVec 16) :
    EncodesOwnRow.Statement (.sdc1 ft base offset) :=
  encodesOwnRow_of_row 54 rfl (immediate 0x3D#6 base ft offset) rfl
    (by simp [Row.hits, immediate]; rfl)
    (fun _ => by simp [immediate])

theorem EncodesOwnRow.ldxc1 (fd : Slot) (idx base : Reg) :
    EncodesOwnRow.Statement (.ldxc1 fd idx base) :=
  encodesOwnRow_of_row 55 rfl (layoutR 0x13#6 (regBits base) (regBits idx) 0#5 (regBits fd) 0x01#6) rfl
    (by simp [Row.hits]; rfl)
    (fun _ => by simp)

theorem EncodesOwnRow.sdxc1 (fs : Slot) (idx base : Reg) :
    EncodesOwnRow.Statement (.sdxc1 fs idx base) :=
  encodesOwnRow_of_row 56 rfl (layoutR 0x13#6 (regBits base) (regBits idx) (regBits fs) 0#5 0x09#6) rfl
    (by simp [Row.hits]; rfl)
    (fun _ => by simp)

theorem EncodesOwnRow.j (index : BitVec 26) :
    EncodesOwnRow.Statement (.j index) :=
  encodesOwnRow_of_row 57 rfl (layoutJ 0x02#6 index) rfl
    (by simp [Row.hits]; rfl)
    (fun _ => by simp)

theorem EncodesOwnRow.jal (index : BitVec 26) :
    EncodesOwnRow.Statement (.jal index) :=
  encodesOwnRow_of_row 58 rfl (layoutJ 0x03#6 index) rfl
    (by simp [Row.hits]; rfl)
    (fun _ => by simp)

theorem EncodesOwnRow.jr (rs : Reg) :
    EncodesOwnRow.Statement (.jr rs) :=
  encodesOwnRow_of_row 59 rfl (special rs 0 0 0x08#6) rfl
    (by simp [Row.hits, special]; rfl)
    (fun _ => by simp [special])

theorem EncodesOwnRow.jalr (rd rs : Reg) :
    EncodesOwnRow.Statement (.jalr rd rs) :=
  encodesOwnRow_of_row 60 rfl (special rs 0 rd 0x09#6) rfl
    (by simp [Row.hits, special]; rfl)
    (fun _ => by simp [special])

theorem EncodesOwnRow.beq (rs rt : Reg) (offset : BitVec 16) :
    EncodesOwnRow.Statement (.beq rs rt offset) :=
  encodesOwnRow_of_row 61 rfl (immediate 0x04#6 rs rt offset) rfl
    (by simp [Row.hits, immediate]; rfl)
    (fun _ => by simp [immediate])

theorem EncodesOwnRow.bne (rs rt : Reg) (offset : BitVec 16) :
    EncodesOwnRow.Statement (.bne rs rt offset) :=
  encodesOwnRow_of_row 62 rfl (immediate 0x05#6 rs rt offset) rfl
    (by simp [Row.hits, immediate]; rfl)
    (fun _ => by simp [immediate])

theorem EncodesOwnRow.blez (rs : Reg) (offset : BitVec 16) :
    EncodesOwnRow.Statement (.blez rs offset) :=
  encodesOwnRow_of_row 63 rfl (immediate 0x06#6 rs 0 offset) rfl
    (by simp [Row.hits, immediate]; rfl)
    (fun _ => by simp [immediate])

theorem EncodesOwnRow.bgtz (rs : Reg) (offset : BitVec 16) :
    EncodesOwnRow.Statement (.bgtz rs offset) :=
  encodesOwnRow_of_row 64 rfl (immediate 0x07#6 rs 0 offset) rfl
    (by simp [Row.hits, immediate]; rfl)
    (fun _ => by simp [immediate])

theorem EncodesOwnRow.bltz (rs : Reg) (offset : BitVec 16) :
    EncodesOwnRow.Statement (.bltz rs offset) :=
  encodesOwnRow_of_row 65 rfl (layoutI 0x01#6 (regBits rs) 0x00#5 offset) rfl
    (by simp [Row.hits]; rfl)
    (fun _ => by simp)

theorem EncodesOwnRow.bgez (rs : Reg) (offset : BitVec 16) :
    EncodesOwnRow.Statement (.bgez rs offset) :=
  encodesOwnRow_of_row 66 rfl (layoutI 0x01#6 (regBits rs) 0x01#5 offset) rfl
    (by simp [Row.hits]; rfl)
    (fun _ => by simp)

theorem EncodesOwnRow.bltzal (rs : Reg) (offset : BitVec 16) :
    EncodesOwnRow.Statement (.bltzal rs offset) :=
  encodesOwnRow_of_row 67 rfl (layoutI 0x01#6 (regBits rs) 0x10#5 offset) rfl
    (by simp [Row.hits]; rfl)
    (fun _ => by simp)

theorem EncodesOwnRow.bgezal (rs : Reg) (offset : BitVec 16) :
    EncodesOwnRow.Statement (.bgezal rs offset) :=
  encodesOwnRow_of_row 68 rfl (layoutI 0x01#6 (regBits rs) 0x11#5 offset) rfl
    (by simp [Row.hits]; rfl)
    (fun _ => by simp)

theorem EncodesOwnRow.bc1f (offset : BitVec 16) :
    EncodesOwnRow.Statement (.bc1f offset) :=
  encodesOwnRow_of_row 69 rfl (layoutI 0x11#6 0x08#5 0b00000#5 offset) rfl
    (by simp [Row.hits]; rfl)
    (fun _ => by simp)

theorem EncodesOwnRow.bc1t (offset : BitVec 16) :
    EncodesOwnRow.Statement (.bc1t offset) :=
  encodesOwnRow_of_row 70 rfl (layoutI 0x11#6 0x08#5 0b00001#5 offset) rfl
    (by simp [Row.hits]; rfl)
    (fun _ => by simp)

theorem EncodesOwnRow.bc1fl (offset : BitVec 16) :
    EncodesOwnRow.Statement (.bc1fl offset) :=
  encodesOwnRow_of_row 71 rfl (layoutI 0x11#6 0x08#5 0b00010#5 offset) rfl
    (by simp [Row.hits]; rfl)
    (fun _ => by simp)

theorem EncodesOwnRow.bc1tl (offset : BitVec 16) :
    EncodesOwnRow.Statement (.bc1tl offset) :=
  encodesOwnRow_of_row 72 rfl (layoutI 0x11#6 0x08#5 0b00011#5 offset) rfl
    (by simp [Row.hits]; rfl)
    (fun _ => by simp)

theorem EncodesOwnRow.addD (fd fs ft : Slot) :
    EncodesOwnRow.Statement (.addD fd fs ft) :=
  encodesOwnRow_of_row 73 rfl (cop1 0x11#5 ft fs fd 0x00#6) rfl
    (by simp [Row.hits, cop1]; rfl)
    (fun _ => by simp [cop1])

theorem EncodesOwnRow.subD (fd fs ft : Slot) :
    EncodesOwnRow.Statement (.subD fd fs ft) :=
  encodesOwnRow_of_row 74 rfl (cop1 0x11#5 ft fs fd 0x01#6) rfl
    (by simp [Row.hits, cop1]; rfl)
    (fun _ => by simp [cop1])

theorem EncodesOwnRow.mulD (fd fs ft : Slot) :
    EncodesOwnRow.Statement (.mulD fd fs ft) :=
  encodesOwnRow_of_row 75 rfl (cop1 0x11#5 ft fs fd 0x02#6) rfl
    (by simp [Row.hits, cop1]; rfl)
    (fun _ => by simp [cop1])

theorem EncodesOwnRow.divD (fd fs ft : Slot) :
    EncodesOwnRow.Statement (.divD fd fs ft) :=
  encodesOwnRow_of_row 76 rfl (cop1 0x11#5 ft fs fd 0x03#6) rfl
    (by simp [Row.hits, cop1]; rfl)
    (fun _ => by simp [cop1])

theorem EncodesOwnRow.negD (fd fs : Slot) :
    EncodesOwnRow.Statement (.negD fd fs) :=
  encodesOwnRow_of_row 77 rfl (cop1 0x11#5 0 fs fd 0x07#6) rfl
    (by simp [Row.hits, cop1]; rfl)
    (fun _ => by simp [cop1])

theorem EncodesOwnRow.movD (fd fs : Slot) :
    EncodesOwnRow.Statement (.movD fd fs) :=
  encodesOwnRow_of_row 78 rfl (cop1 0x11#5 0 fs fd 0x06#6) rfl
    (by simp [Row.hits, cop1]; rfl)
    (fun _ => by simp [cop1])

theorem EncodesOwnRow.cvtDW (fd fs : Slot) :
    EncodesOwnRow.Statement (.cvtDW fd fs) :=
  encodesOwnRow_of_row 79 rfl (cop1 0x14#5 0 fs fd 0x21#6) rfl
    (by simp [Row.hits, cop1]; rfl)
    (fun _ => by simp [cop1])

theorem EncodesOwnRow.truncWD (fd fs : Slot) :
    EncodesOwnRow.Statement (.truncWD fd fs) :=
  encodesOwnRow_of_row 80 rfl (cop1 0x11#5 0 fs fd 0x0D#6) rfl
    (by simp [Row.hits, cop1]; rfl)
    (fun _ => by simp [cop1])

theorem EncodesOwnRow.cEqD (fs ft : Slot) :
    EncodesOwnRow.Statement (.cEqD fs ft) :=
  encodesOwnRow_of_row 81 rfl (cop1 0x11#5 ft fs 0 0x32#6) rfl
    (by simp [Row.hits, cop1]; rfl)
    (fun _ => by simp [cop1])

theorem EncodesOwnRow.cOltD (fs ft : Slot) :
    EncodesOwnRow.Statement (.cOltD fs ft) :=
  encodesOwnRow_of_row 82 rfl (cop1 0x11#5 ft fs 0 0x34#6) rfl
    (by simp [Row.hits, cop1]; rfl)
    (fun _ => by simp [cop1])

theorem EncodesOwnRow.cUnD (fs ft : Slot) :
    EncodesOwnRow.Statement (.cUnD fs ft) :=
  encodesOwnRow_of_row 83 rfl (cop1 0x11#5 ft fs 0 0x31#6) rfl
    (by simp [Row.hits, cop1]; rfl)
    (fun _ => by simp [cop1])

theorem EncodesOwnRow.mfc1 (rt : Reg) (fs : Slot) :
    EncodesOwnRow.Statement (.mfc1 rt fs) :=
  encodesOwnRow_of_row 84 rfl (cop1 0x00#5 rt fs 0 0x00#6) rfl
    (by simp [Row.hits, cop1]; rfl)
    (fun _ => by simp [cop1])

theorem EncodesOwnRow.mtc1 (rt : Reg) (fs : Slot) :
    EncodesOwnRow.Statement (.mtc1 rt fs) :=
  encodesOwnRow_of_row 85 rfl (cop1 0x04#5 rt fs 0 0x00#6) rfl
    (by simp [Row.hits, cop1]; rfl)
    (fun _ => by simp [cop1])

theorem EncodesOwnRow.mfhc1 (rt : Reg) (fs : Slot) :
    EncodesOwnRow.Statement (.mfhc1 rt fs) :=
  encodesOwnRow_of_row 86 rfl (cop1 0x03#5 rt fs 0 0x00#6) rfl
    (by simp [Row.hits, cop1]; rfl)
    (fun _ => by simp [cop1])

theorem EncodesOwnRow.mthc1 (rt : Reg) (fs : Slot) :
    EncodesOwnRow.Statement (.mthc1 rt fs) :=
  encodesOwnRow_of_row 87 rfl (cop1 0x07#5 rt fs 0 0x00#6) rfl
    (by simp [Row.hits, cop1]; rfl)
    (fun _ => by simp [cop1])

theorem EncodesOwnRow.syscall (code : BitVec 20) :
    EncodesOwnRow.Statement (.syscall code) :=
  encodesOwnRow_of_row 88 rfl (layoutC 0x00#6 code 0x0C#6) rfl
    (by simp [Row.hits]; rfl)
    (fun _ => by simp)

theorem EncodesOwnRow.teq (rs rt : Reg) (code : BitVec 10) :
    EncodesOwnRow.Statement (.teq rs rt code) :=
  encodesOwnRow_of_row 89 rfl (layoutT 0x00#6 (regBits rs) (regBits rt) code 0x34#6) rfl
    (by simp [Row.hits]; rfl)
    (fun _ => by simp)

theorem EncodesOwnRow.brk (code : BitVec 20) :
    EncodesOwnRow.Statement (.brk code) :=
  encodesOwnRow_of_row 90 rfl (layoutC 0x00#6 code 0x0D#6) rfl
    (by simp [Row.hits]; rfl)
    (fun _ => by simp)

end Sys2Proof.Laws
end

