-- ==== Sys2Proof/Tests/Slice0.lean ====
section
/-! SUPPORT. Tests. Words are written out from the encodings of spec/30_encoding.md; the one-step
results are rows of spec/95_test_vectors.md (word, starting values, outcome and values after); the
theorems `witness_…` show values that meet the hypotheses of an obligation, clause by clause, at the
boundaries of their ranges. -/

namespace Sys2Proof.Tests

open Sys2Proof.Machine

set_option Elab.async false

/-! ### Well-formedness: what each check refuses, and the last values it accepts -/

theorem test_illFormed_sll : (Instr.sll 1 2 32).wellFormed = false := by decide

theorem test_illFormed_srl : (Instr.srl 1 2 32).wellFormed = false := by decide

theorem test_illFormed_sra : (Instr.sra 1 2 32).wellFormed = false := by decide

theorem test_illFormed_ext_position : (Instr.ext 1 2 32 1).wellFormed = false := by decide

theorem test_illFormed_ext_sizeZero : (Instr.ext 1 2 0 0).wellFormed = false := by decide

theorem test_illFormed_ext_sizeTooLarge : (Instr.ext 1 2 0 33).wellFormed = false := by decide

/-! ### Decoding -/

/-- Words written out from the encodings of 30_encoding.md, rows of 41_alu.md. -/
theorem test_decode_alu_1 :
    decodeWord 0b00000001001100100011100000100000#32 = some (.add 7 9 18) ∧
    decodeWord 0b00000001001100100011100000100001#32 = some (.addu 7 9 18) ∧
    decodeWord 0b00000001001100100011100000100010#32 = some (.sub 7 9 18) ∧
    decodeWord 0b00000001001100100011100000100011#32 = some (.subu 7 9 18) ∧
    decodeWord 0b00100001001100101010010111000011#32 = some (.addi 18 9 0xA5C3#16) ∧
    decodeWord 0b00100101001100101010010111000011#32 = some (.addiu 18 9 0xA5C3#16) ∧
    decodeWord 0b00000001001100100011100000101010#32 = some (.slt 7 9 18) ∧
    decodeWord 0b00000001001100100011100000101011#32 = some (.sltu 7 9 18) ∧
    decodeWord 0b00101001001100101010010111000011#32 = some (.slti 18 9 0xA5C3#16) ∧
    decodeWord 0b00101101001100101010010111000011#32 = some (.sltiu 18 9 0xA5C3#16) := by decide +kernel

/-- Words written out from the encodings of 30_encoding.md, rows of 41_alu.md. -/
theorem test_decode_alu_2 :
    decodeWord 0b00000001001100100011100000100100#32 = some (.and 7 9 18) ∧
    decodeWord 0b00000001001100100011100000100101#32 = some (.or 7 9 18) ∧
    decodeWord 0b00000001001100100011100000100110#32 = some (.xor 7 9 18) ∧
    decodeWord 0b00000001001100100011100000100111#32 = some (.nor 7 9 18) ∧
    decodeWord 0b00110001001100101010010111000011#32 = some (.andi 18 9 0xA5C3#16) ∧
    decodeWord 0b00110101001100101010010111000011#32 = some (.ori 18 9 0xA5C3#16) ∧
    decodeWord 0b00111001001100101010010111000011#32 = some (.xori 18 9 0xA5C3#16) ∧
    decodeWord 0b00111100000100101010010111000011#32 = some (.lui 18 0xA5C3#16) ∧
    decodeWord 0b00000000000100100011110101000000#32 = some (.sll 7 18 21) ∧
    decodeWord 0b00000000000100100011110101000010#32 = some (.srl 7 18 21) := by decide +kernel

/-- Words written out from the encodings of 30_encoding.md, rows of 41_alu.md. -/
theorem test_decode_alu_3 :
    decodeWord 0b00000000000100100011110101000011#32 = some (.sra 7 18 21) ∧
    decodeWord 0b00000001001100100011100000000100#32 = some (.sllv 7 18 9) ∧
    decodeWord 0b00000001001100100011100000000110#32 = some (.srlv 7 18 9) ∧
    decodeWord 0b00000001001100100011100000000111#32 = some (.srav 7 18 9) ∧
    decodeWord 0b00000001001100100000000000011000#32 = some (.mult 9 18) ∧
    decodeWord 0b00000001001100100000000000011001#32 = some (.multu 9 18) ∧
    decodeWord 0b00000001001100100000000000011010#32 = some (.div 9 18) ∧
    decodeWord 0b00000001001100100000000000011011#32 = some (.divu 9 18) ∧
    decodeWord 0b00000000000000000011100000010000#32 = some (.mfhi 7) ∧
    decodeWord 0b00000001001000000000000000010001#32 = some (.mthi 9) := by decide +kernel

/-- Words written out from the encodings of 30_encoding.md, rows of 41_alu.md. -/
theorem test_decode_alu_4 :
    decodeWord 0b00000000000000000011100000010010#32 = some (.mflo 7) ∧
    decodeWord 0b00000001001000000000000000010011#32 = some (.mtlo 9) ∧
    decodeWord 0b01111100000100100011110000100000#32 = some (.seb 7 18) ∧
    decodeWord 0b01111100000100100011111000100000#32 = some (.seh 7 18) ∧
    decodeWord 0b01111101001100100101010011000000#32 = some (.ext 18 9 19 11) ∧
    decodeWord 0b00000001001100100011100000001010#32 = some (.movz 7 9 18) ∧
    decodeWord 0b00000001001100100011100000001011#32 = some (.movn 7 9 18) ∧
    decodeWord 0b00000001001000000011100000000001#32 = some (.movf 7 9) ∧
    decodeWord 0b00000001001000010011100000000001#32 = some (.movt 7 9) := by decide +kernel

/-- Words written out from the encodings of 30_encoding.md, rows of 42_load_store.md. -/
theorem test_decode_loadStore_1 :
    decodeWord 0b10000011001100101001111000110111#32 = some (.lb 18 25 0x9E37#16) ∧
    decodeWord 0b10010011001100101001111000110111#32 = some (.lbu 18 25 0x9E37#16) ∧
    decodeWord 0b10000111001100101001111000110111#32 = some (.lh 18 25 0x9E37#16) ∧
    decodeWord 0b10010111001100101001111000110111#32 = some (.lhu 18 25 0x9E37#16) ∧
    decodeWord 0b10001111001100101001111000110111#32 = some (.lw 18 25 0x9E37#16) ∧
    decodeWord 0b10100011001100101001111000110111#32 = some (.sb 18 25 0x9E37#16) ∧
    decodeWord 0b10100111001100101001111000110111#32 = some (.sh 18 25 0x9E37#16) ∧
    decodeWord 0b10101111001100101001111000110111#32 = some (.sw 18 25 0x9E37#16) ∧
    decodeWord 0b10001011001100101001111000110111#32 = some (.lwl 18 25 0x9E37#16) ∧
    decodeWord 0b10011011001100101001111000110111#32 = some (.lwr 18 25 0x9E37#16) := by decide +kernel

/-- Words written out from the encodings of 30_encoding.md, rows of 42_load_store.md. -/
theorem test_decode_loadStore_2 :
    decodeWord 0b10101011001100101001111000110111#32 = some (.swl 18 25 0x9E37#16) ∧
    decodeWord 0b10111011001100101001111000110111#32 = some (.swr 18 25 0x9E37#16) ∧
    decodeWord 0b11000011001100101001111000110111#32 = some (.ll 18 25 0x9E37#16) ∧
    decodeWord 0b11100011001100101001111000110111#32 = some (.sc 18 25 0x9E37#16) ∧
    decodeWord 0b11010111001100101001111000110111#32 = some (.ldc1 18 25 0x9E37#16) ∧
    decodeWord 0b11110111001100101001111000110111#32 = some (.sdc1 18 25 0x9E37#16) ∧
    decodeWord 0b01001111001011100000000111000001#32 = some (.ldxc1 7 14 25) ∧
    decodeWord 0b01001111001011100100100000001001#32 = some (.sdxc1 9 14 25) := by decide +kernel

/-- Words written out from the encodings of 30_encoding.md, rows of 43_control_flow.md. -/
theorem test_decode_control_1 :
    decodeWord 0b00001010101001011100001111010001#32 = some (.j 0x2A5C3D1#26) ∧
    decodeWord 0b00001110101001011100001111010001#32 = some (.jal 0x2A5C3D1#26) ∧
    decodeWord 0b00000001001000000000000000001000#32 = some (.jr 9) ∧
    decodeWord 0b00000001001000000011100000001001#32 = some (.jalr 7 9) ∧
    decodeWord 0b00010001001100101001111000110111#32 = some (.beq 9 18 0x9E37#16) ∧
    decodeWord 0b00010101001100101001111000110111#32 = some (.bne 9 18 0x9E37#16) ∧
    decodeWord 0b00011001001000001001111000110111#32 = some (.blez 9 0x9E37#16) ∧
    decodeWord 0b00011101001000001001111000110111#32 = some (.bgtz 9 0x9E37#16) ∧
    decodeWord 0b00000101001000001001111000110111#32 = some (.bltz 9 0x9E37#16) ∧
    decodeWord 0b00000101001000011001111000110111#32 = some (.bgez 9 0x9E37#16) := by decide +kernel

/-- Words written out from the encodings of 30_encoding.md, rows of 43_control_flow.md. -/
theorem test_decode_control_2 :
    decodeWord 0b00000101001100001001111000110111#32 = some (.bltzal 9 0x9E37#16) ∧
    decodeWord 0b00000101001100011001111000110111#32 = some (.bgezal 9 0x9E37#16) ∧
    decodeWord 0b01000101000000001001111000110111#32 = some (.bc1f 0x9E37#16) ∧
    decodeWord 0b01000101000000011001111000110111#32 = some (.bc1t 0x9E37#16) ∧
    decodeWord 0b01000101000000101001111000110111#32 = some (.bc1fl 0x9E37#16) ∧
    decodeWord 0b01000101000000111001111000110111#32 = some (.bc1tl 0x9E37#16) := by decide +kernel

/-- Words written out from the encodings of 30_encoding.md, rows of 44_fp_coprocessor.md. -/
theorem test_decode_fp_1 :
    decodeWord 0b01000110001100100100100111000000#32 = some (.addD 7 9 18) ∧
    decodeWord 0b01000110001100100100100111000001#32 = some (.subD 7 9 18) ∧
    decodeWord 0b01000110001100100100100111000010#32 = some (.mulD 7 9 18) ∧
    decodeWord 0b01000110001100100100100111000011#32 = some (.divD 7 9 18) ∧
    decodeWord 0b01000110001000000100100111000111#32 = some (.negD 7 9) ∧
    decodeWord 0b01000110001000000100100111000110#32 = some (.movD 7 9) ∧
    decodeWord 0b01000110100000000100100111100001#32 = some (.cvtDW 7 9) ∧
    decodeWord 0b01000110001000000100100111001101#32 = some (.truncWD 7 9) ∧
    decodeWord 0b01000110001100100100100000110010#32 = some (.cEqD 9 18) ∧
    decodeWord 0b01000110001100100100100000110100#32 = some (.cOltD 9 18) := by decide +kernel

/-- Words written out from the encodings of 30_encoding.md, rows of 44_fp_coprocessor.md. -/
theorem test_decode_fp_2 :
    decodeWord 0b01000110001100100100100000110001#32 = some (.cUnD 9 18) ∧
    decodeWord 0b01000100000100100100100000000000#32 = some (.mfc1 18 9) ∧
    decodeWord 0b01000100100100100100100000000000#32 = some (.mtc1 18 9) ∧
    decodeWord 0b01000100011100100100100000000000#32 = some (.mfhc1 18 9) ∧
    decodeWord 0b01000100111100100100100000000000#32 = some (.mthc1 18 9) := by decide +kernel

/-- Words written out from the encodings of 30_encoding.md, rows of 45_trap_syscall.md. -/
theorem test_decode_trap_1 :
    decodeWord 0b00000010110011110001011101001100#32 = some (.syscall 0xB3C5D#20) ∧
    decodeWord 0b00000001001100101011010011110100#32 = some (.teq 9 18 0x2D3#10) ∧
    decodeWord 0b00000010110011110001011101001101#32 = some (.brk 0xB3C5D#20) := by decide +kernel

/-- Words that no row matches (30_encoding.md R95, R96): an unused major opcode, unused function
fields, and words of a known row with a must-be-zero field that is not zero. -/
theorem test_reserved : ([0xFFFFFFFF#32, 0x70000002#32, 0x0000000F#32, 0x46000000#32, 0x00221860#32,
    0x3C220001#32, 0x18410001#32, 0x00221808#32].all (fun w => decodeWord w == none)) = true := by
  decide +kernel

/-- A byte list shorter than a word, and the four bytes of `addi $2, $1, -1` followed by another. -/
theorem test_decode_bytes : (match decode [0x20#8, 0x22#8, 0xFF#8] with
      | .error e => e == .truncated
      | .ok _ => false) = true ∧
    (match decode [0x20#8, 0x22#8, 0xFF#8, 0xFF#8, 0x55#8] with
      | .ok (i, rest) => i == .addi 2 1 0xFFFF#16 && rest == [0x55#8]
      | .error _ => false) = true := by
  decide +kernel

/-- The host's view of a table word. -/
theorem test_decodeTableWord : decodeTableWord 32 0x00221820 = some (.add 3 1 2) ∧
    decodeTableWord 32 0xFFFFFFFF = none := by
  decide +kernel

/-! ### One step -/

/-- The machine after reset. -/
def start : State := State.reset

/-- The machine after reset with another ENTRY_PC. -/
def startAt (a : Word) : State :=
  State.applyReset { State.powerOn with params := { Params.default with entryPc := a } }

/-- Set a general register. -/
def x (r : Reg) (v : Word) (s : State) : State := s.writeGpr r v

/-- Set a slot. -/
def f (n : Slot) (v : Word) (s : State) : State := s.writeSlot n v

/-- Set a memory word of the launch image and of memory. -/
def m (a v : Word) (s : State) : State :=
  { s with mem := s.mem.writeBytes a (bytesOfWord v), image := s.image.writeBytes a (bytesOfWord v) }

/-- Set the accumulators. -/
def hilo (h l : Word) (s : State) : State := { s with hi := h, lo := l }

/-- Set the condition flag. -/
def cc (c : Bool) (s : State) : State := { s with cc := c }

/-- One step on the word `w` from `s` answers a next state with that outcome and property. -/
def runs (w : Nat) (s : State) (o : StepOutcome) (p : State → Bool) : Bool :=
  match step (s.withFetchWord 32 w) with
  | .next t => t.outcome == o && p t
  | _ => false

theorem test_add :
    runs 0x00221820 (x 3 0xAAAAAAAA#32 <| x 1 0x3FFFFFFF#32 <| x 2 0x40000000#32 <| start)
    .completed (fun t => t.readGpr 3 == 0x7FFFFFFF#32) ∧
    runs 0x00221820 (x 3 0xAAAAAAAA#32 <| x 1 0x7FFFFFFF#32 <| x 2 1#32 <| start)
    (.fault .integerOverflow) (fun t => t.readGpr 3 == 0xAAAAAAAA#32) := by decide +kernel

theorem test_addu :
    runs 0x00221821 (x 3 0xAAAAAAAA#32 <| x 1 0x12345678#32 <| x 2 0xF0F0F0F#32 <| start)
    .completed (fun t => t.readGpr 3 == 0x21436587#32) ∧
    runs 0x00210821 (x 3 0xAAAAAAAA#32 <| x 1 0x80000000#32 <| start)
    .completed (fun t => t.readGpr 1 == 0#32) := by decide +kernel

theorem test_sub :
    runs 0x00221822 (x 3 0xAAAAAAAA#32 <| x 1 0#32 <| x 2 0#32 <| start)
    .completed (fun t => t.readGpr 3 == 0#32) ∧
    runs 0x00221822 (x 3 0xAAAAAAAA#32 <| x 1 0x80000000#32 <| x 2 0x7FFFFFFF#32 <| start)
    .completed (fun t => t.readGpr 3 == 1#32) := by decide +kernel

theorem test_subu :
    runs 0x00221823 (x 3 0xAAAAAAAA#32 <| x 1 0#32 <| x 2 0#32 <| start)
    .completed (fun t => t.readGpr 3 == 0#32) ∧
    runs 0x00221823 (x 3 0xAAAAAAAA#32 <| x 1 0x80000000#32 <| x 2 0x7FFFFFFF#32 <| start)
    .completed (fun t => t.readGpr 3 == 1#32) := by decide +kernel

theorem test_addi :
    runs 0x20238000 (x 3 0xAAAAAAAA#32 <| x 1 0x80008000#32 <| start)
    .completed (fun t => t.readGpr 3 == 0x80000000#32) ∧
    runs 0x20230001 (x 3 0xAAAAAAAA#32 <| x 1 0x7FFFFFFF#32 <| start)
    (.fault .integerOverflow) (fun t => t.readGpr 3 == 0xAAAAAAAA#32) := by decide +kernel

theorem test_addiu :
    runs 0x24238000 (x 3 0xAAAAAAAA#32 <| x 1 0#32 <| start)
    .completed (fun t => t.readGpr 3 == 0xFFFF8000#32) ∧
    runs 0x2423FFFF (x 3 0xAAAAAAAA#32 <| x 1 5#32 <| start)
    .completed (fun t => t.readGpr 3 == 4#32) := by decide +kernel

theorem test_slt :
    runs 0x0022182A (x 3 0xAAAAAAAA#32 <| x 1 0#32 <| x 2 0#32 <| start)
    .completed (fun t => t.readGpr 3 == 0#32) ∧
    runs 0x0022182A (x 3 0xAAAAAAAA#32 <| x 1 0x80000000#32 <| x 2 0x7FFFFFFF#32 <| start)
    .completed (fun t => t.readGpr 3 == 1#32) := by decide +kernel

theorem test_sltu :
    runs 0x0022182B (x 3 0xAAAAAAAA#32 <| x 1 0#32 <| x 2 0#32 <| start)
    .completed (fun t => t.readGpr 3 == 0#32) ∧
    runs 0x0022182B (x 3 0xAAAAAAAA#32 <| x 1 0x80000000#32 <| x 2 0x7FFFFFFF#32 <| start)
    .completed (fun t => t.readGpr 3 == 0#32) := by decide +kernel

theorem test_slti :
    runs 0x28238000 (x 3 0xAAAAAAAA#32 <| x 1 0x80000000#32 <| start)
    .completed (fun t => t.readGpr 3 == 1#32) ∧
    runs 0x28230005 (x 3 0xAAAAAAAA#32 <| x 1 5#32 <| start)
    .completed (fun t => t.readGpr 3 == 0#32) := by decide +kernel

theorem test_sltiu :
    runs 0x2C238000 (x 3 0xAAAAAAAA#32 <| x 1 0xFFFF7FFF#32 <| start)
    .completed (fun t => t.readGpr 3 == 1#32) ∧
    runs 0x2C230000 (x 3 0xAAAAAAAA#32 <| x 1 0#32 <| start)
    .completed (fun t => t.readGpr 3 == 0#32) := by decide +kernel

theorem test_and :
    runs 0x00221824 (x 3 0xAAAAAAAA#32 <| x 1 0#32 <| x 2 0#32 <| start)
    .completed (fun t => t.readGpr 3 == 0#32) ∧
    runs 0x00221824 (x 3 0xAAAAAAAA#32 <| x 1 0x80000000#32 <| x 2 0x7FFFFFFF#32 <| start)
    .completed (fun t => t.readGpr 3 == 0#32) := by decide +kernel

theorem test_or :
    runs 0x00221825 (x 3 0xAAAAAAAA#32 <| x 1 0#32 <| x 2 0#32 <| start)
    .completed (fun t => t.readGpr 3 == 0#32) ∧
    runs 0x00221825 (x 3 0xAAAAAAAA#32 <| x 1 0x80000000#32 <| x 2 0x7FFFFFFF#32 <| start)
    .completed (fun t => t.readGpr 3 == 0xFFFFFFFF#32) := by decide +kernel

theorem test_xor :
    runs 0x00221826 (x 3 0xAAAAAAAA#32 <| x 1 0#32 <| x 2 0#32 <| start)
    .completed (fun t => t.readGpr 3 == 0#32) ∧
    runs 0x00221826 (x 3 0xAAAAAAAA#32 <| x 1 0x80000000#32 <| x 2 0x7FFFFFFF#32 <| start)
    .completed (fun t => t.readGpr 3 == 0xFFFFFFFF#32) := by decide +kernel

theorem test_nor :
    runs 0x00221827 (x 3 0xAAAAAAAA#32 <| x 1 0#32 <| x 2 0#32 <| start)
    .completed (fun t => t.readGpr 3 == 0xFFFFFFFF#32) ∧
    runs 0x00221827 (x 3 0xAAAAAAAA#32 <| x 1 0x80000000#32 <| x 2 0x7FFFFFFF#32 <| start)
    .completed (fun t => t.readGpr 3 == 0#32) := by decide +kernel

theorem test_andi :
    runs 0x30238001 (x 3 0xAAAAAAAA#32 <| x 1 0xFFFFFFFF#32 <| start)
    .completed (fun t => t.readGpr 3 == 0x8001#32) := by decide +kernel

theorem test_ori :
    runs 0x34238001 (x 3 0xAAAAAAAA#32 <| x 1 0x12340000#32 <| start)
    .completed (fun t => t.readGpr 3 == 0x12348001#32) := by decide +kernel

theorem test_xori :
    runs 0x3823FFFF (x 3 0xAAAAAAAA#32 <| x 1 0xFFFFFFFF#32 <| start)
    .completed (fun t => t.readGpr 3 == 0xFFFF0000#32) := by decide +kernel

theorem test_lui :
    runs 0x3C03FFFF (x 3 0xAAAAAAAA#32 <| start)
    .completed (fun t => t.readGpr 3 == 0xFFFF0000#32) ∧
    runs 0x3C030000 (x 3 0xAAAAAAAA#32 <| start)
    .completed (fun t => t.readGpr 3 == 0#32) := by decide +kernel

theorem test_sll :
    runs 0x00021900 (x 3 0xAAAAAAAA#32 <| x 2 0x7FFFFFFF#32 <| start)
    .completed (fun t => t.readGpr 3 == 0xFFFFFFF0#32) ∧
    runs 0x00000000 (startAt 0x102#32)
    (.fault .addressError) (fun t => t.pc == 0x102#32 && t.npc == 0x106#32 && t.instrCounter == 0 && t.halted == true) := by decide +kernel

theorem test_srl :
    runs 0x00021FC2 (x 3 0xAAAAAAAA#32 <| x 2 0x80000001#32 <| start)
    .completed (fun t => t.readGpr 3 == 1#32) ∧
    runs 0x00021902 (x 3 0xAAAAAAAA#32 <| x 2 0x7FFFFFFF#32 <| start)
    .completed (fun t => t.readGpr 3 == 0x7FFFFFF#32) := by decide +kernel

theorem test_sra :
    runs 0x00021FC3 (x 3 0xAAAAAAAA#32 <| x 2 0x80000001#32 <| start)
    .completed (fun t => t.readGpr 3 == 0xFFFFFFFF#32) ∧
    runs 0x00021903 (x 3 0xAAAAAAAA#32 <| x 2 0x7FFFFFFF#32 <| start)
    .completed (fun t => t.readGpr 3 == 0x7FFFFFF#32) := by decide +kernel

theorem test_sllv :
    runs 0x00221804 (x 3 0xAAAAAAAA#32 <| x 1 0#32 <| x 2 0x80000001#32 <| start)
    .completed (fun t => t.readGpr 3 == 0x80000001#32) ∧
    runs 0x00221804 (x 3 0xAAAAAAAA#32 <| x 1 0xFF#32 <| x 2 0x80000001#32 <| start)
    .completed (fun t => t.readGpr 3 == 0x80000000#32) := by decide +kernel

theorem test_srlv :
    runs 0x00221806 (x 3 0xAAAAAAAA#32 <| x 1 0#32 <| x 2 0x80000001#32 <| start)
    .completed (fun t => t.readGpr 3 == 0x80000001#32) ∧
    runs 0x00221806 (x 3 0xAAAAAAAA#32 <| x 1 0xFF#32 <| x 2 0x80000001#32 <| start)
    .completed (fun t => t.readGpr 3 == 1#32) := by decide +kernel

theorem test_srav :
    runs 0x00221807 (x 3 0xAAAAAAAA#32 <| x 1 0#32 <| x 2 0x80000001#32 <| start)
    .completed (fun t => t.readGpr 3 == 0x80000001#32) ∧
    runs 0x00221807 (x 3 0xAAAAAAAA#32 <| x 1 0xFF#32 <| x 2 0x80000001#32 <| start)
    .completed (fun t => t.readGpr 3 == 0xFFFFFFFF#32) := by decide +kernel

theorem test_mult :
    runs 0x00220018 (x 3 0xAAAAAAAA#32 <| x 1 0x80000000#32 <| x 2 0x7FFFFFFF#32 <| start)
    .completed (fun t => t.hi == 0xC0000000#32 && t.lo == 0x80000000#32) ∧
    runs 0x00220018 (x 3 0xAAAAAAAA#32 <| x 1 0#32 <| x 2 0x12345678#32 <| start)
    .completed (fun t => t.hi == 0#32 && t.lo == 0#32) := by decide +kernel

theorem test_multu :
    runs 0x00220019 (x 3 0xAAAAAAAA#32 <| x 1 0x80000000#32 <| x 2 0x7FFFFFFF#32 <| start)
    .completed (fun t => t.hi == 0x3FFFFFFF#32 && t.lo == 0x80000000#32) ∧
    runs 0x00220019 (x 3 0xAAAAAAAA#32 <| x 1 0#32 <| x 2 0x12345678#32 <| start)
    .completed (fun t => t.hi == 0#32 && t.lo == 0#32) := by decide +kernel

theorem test_div :
    runs 0x0022001A (x 3 0xAAAAAAAA#32 <| x 1 0#32 <| x 2 5#32 <| start)
    .completed (fun t => t.hi == 0#32 && t.lo == 0#32) ∧
    runs 0x0022001A (x 3 0xAAAAAAAA#32 <| x 1 7#32 <| x 2 0#32 <| hilo 0x11111111#32 0x22222222#32 <| start)
    (.fault .divideByZero) (fun t => t.hi == 0x11111111#32 && t.lo == 0x22222222#32) := by decide +kernel

theorem test_divu :
    runs 0x0022001B (x 3 0xAAAAAAAA#32 <| x 1 0#32 <| x 2 5#32 <| start)
    .completed (fun t => t.hi == 0#32 && t.lo == 0#32) ∧
    runs 0x0022001B (x 3 0xAAAAAAAA#32 <| x 1 7#32 <| x 2 0#32 <| hilo 0x11111111#32 0x22222222#32 <| start)
    (.fault .divideByZero) (fun t => t.hi == 0x11111111#32 && t.lo == 0x22222222#32) := by decide +kernel

theorem test_mfhi :
    runs 0x00001810 (x 3 0xAAAAAAAA#32 <| hilo 0xCAFE0001#32 0#32 <| start)
    .completed (fun t => t.readGpr 3 == 0xCAFE0001#32) := by decide +kernel

theorem test_mthi :
    runs 0x00200011 (x 3 0xAAAAAAAA#32 <| x 1 0x12345678#32 <| hilo 0#32 7#32 <| start)
    .completed (fun t => t.hi == 0x12345678#32 && t.lo == 7#32) := by decide +kernel

theorem test_mflo :
    runs 0x00001812 (x 3 0xAAAAAAAA#32 <| hilo 0#32 0xBEEF0002#32 <| start)
    .completed (fun t => t.readGpr 3 == 0xBEEF0002#32) := by decide +kernel

theorem test_mtlo :
    runs 0x00200013 (x 3 0xAAAAAAAA#32 <| x 1 0x12345678#32 <| hilo 7#32 0#32 <| start)
    .completed (fun t => t.hi == 7#32 && t.lo == 0x12345678#32) := by decide +kernel

theorem test_seb :
    runs 0x7C021C20 (x 3 0xAAAAAAAA#32 <| x 2 0x8000#32 <| start)
    .completed (fun t => t.readGpr 3 == 0#32) ∧
    runs 0x7C021C20 (x 3 0xAAAAAAAA#32 <| x 2 0xFFFF#32 <| start)
    .completed (fun t => t.readGpr 3 == 0xFFFFFFFF#32) := by decide +kernel

theorem test_seh :
    runs 0x7C021E20 (x 3 0xAAAAAAAA#32 <| x 2 0x8000#32 <| start)
    .completed (fun t => t.readGpr 3 == 0xFFFF8000#32) ∧
    runs 0x7C021E20 (x 3 0xAAAAAAAA#32 <| x 2 0xFFFF#32 <| start)
    .completed (fun t => t.readGpr 3 == 0xFFFFFFFF#32) := by decide +kernel

theorem test_ext :
    runs 0x7C23D900 (x 3 0xAAAAAAAA#32 <| x 1 0x89ABCDEF#32 <| start)
    .completed (fun t => t.readGpr 3 == 0x89ABCDE#32) ∧
    runs 0x7C237C00 (x 3 0xAAAAAAAA#32 <| x 1 0x89ABCDEF#32 <| start)
    .completed (fun t => t.readGpr 3 == 0x89AB#32) := by decide +kernel

theorem test_movz :
    runs 0x0022180A (x 3 0xAAAAAAAA#32 <| x 1 0#32 <| x 2 0#32 <| start)
    .completed (fun t => t.readGpr 3 == 0#32) ∧
    runs 0x0022180A (x 3 0xAAAAAAAA#32 <| x 1 0x80000000#32 <| x 2 0x7FFFFFFF#32 <| start)
    .completed (fun t => t.readGpr 3 == 0xAAAAAAAA#32) := by decide +kernel

theorem test_movn :
    runs 0x0022180B (x 3 0xAAAAAAAA#32 <| x 1 0#32 <| x 2 0#32 <| start)
    .completed (fun t => t.readGpr 3 == 0xAAAAAAAA#32) ∧
    runs 0x0022180B (x 3 0xAAAAAAAA#32 <| x 1 0x80000000#32 <| x 2 0x7FFFFFFF#32 <| start)
    .completed (fun t => t.readGpr 3 == 0x80000000#32) := by decide +kernel

theorem test_movf :
    runs 0x00201801 (x 3 0xAAAAAAAA#32 <| x 1 0x12345678#32 <| cc true <| start)
    .completed (fun t => t.readGpr 3 == 0xAAAAAAAA#32) ∧
    runs 0x00201801 (x 3 0xAAAAAAAA#32 <| x 1 0x12345678#32 <| start)
    .completed (fun t => t.readGpr 3 == 0x12345678#32) := by decide +kernel

theorem test_movt :
    runs 0x00211801 (x 3 0xAAAAAAAA#32 <| x 1 0x12345678#32 <| cc true <| start)
    .completed (fun t => t.readGpr 3 == 0x12345678#32) ∧
    runs 0x00211801 (x 3 0xAAAAAAAA#32 <| x 1 0x12345678#32 <| start)
    .completed (fun t => t.readGpr 3 == 0xAAAAAAAA#32) := by decide +kernel

theorem test_lb :
    runs 0x8022000A (x 1 0x1000#32 <| x 2 0xAABBCCDD#32 <| m 0x1000#32 0x11223344#32 <| m 0x1004#32 0x55667788#32 <| m 0x1008#32 0x80FF7F01#32 <| start)
    .completed (fun t => t.readGpr 2 == 0x7F#32 && t.readWord 0x1000#32 == 0x11223344#32 && t.readWord 0x1004#32 == 0x55667788#32 && t.readWord 0x1008#32 == 0x80FF7F01#32) ∧
    runs 0x80220000 (x 1 0x1000#32 <| x 2 0xAABBCCDD#32 <| m 0x1000#32 0x11223344#32 <| m 0x1004#32 0x55667788#32 <| m 0x1008#32 0x80FF7F01#32 <| start)
    .completed (fun t => t.readGpr 2 == 0x11#32 && t.readWord 0x1000#32 == 0x11223344#32 && t.readWord 0x1004#32 == 0x55667788#32 && t.readWord 0x1008#32 == 0x80FF7F01#32) := by decide +kernel

theorem test_lbu :
    runs 0x90220009 (x 1 0x1000#32 <| x 2 0xAABBCCDD#32 <| m 0x1000#32 0x11223344#32 <| m 0x1004#32 0x55667788#32 <| m 0x1008#32 0x80FF7F01#32 <| start)
    .completed (fun t => t.readGpr 2 == 0xFF#32 && t.readWord 0x1000#32 == 0x11223344#32 && t.readWord 0x1004#32 == 0x55667788#32 && t.readWord 0x1008#32 == 0x80FF7F01#32) ∧
    runs 0x90220008 (x 1 0x1000#32 <| x 2 0xAABBCCDD#32 <| m 0x1000#32 0x11223344#32 <| m 0x1004#32 0x55667788#32 <| m 0x1008#32 0x80FF7F01#32 <| start)
    .completed (fun t => t.readGpr 2 == 0x80#32 && t.readWord 0x1000#32 == 0x11223344#32 && t.readWord 0x1004#32 == 0x55667788#32 && t.readWord 0x1008#32 == 0x80FF7F01#32) := by decide +kernel

theorem test_lh :
    runs 0x84220009 (x 1 0x1000#32 <| x 2 0xAABBCCDD#32 <| m 0x1000#32 0x11223344#32 <| m 0x1004#32 0x55667788#32 <| m 0x1008#32 0x80FF7F01#32 <| start)
    .completed (fun t => t.readGpr 2 == 0xFFFFFF7F#32 && t.readWord 0x1000#32 == 0x11223344#32 && t.readWord 0x1004#32 == 0x55667788#32 && t.readWord 0x1008#32 == 0x80FF7F01#32) ∧
    runs 0x84220003 (x 1 0x1000#32 <| x 2 0xAABBCCDD#32 <| m 0x1000#32 0x11223344#32 <| m 0x1004#32 0x55667788#32 <| m 0x1008#32 0x80FF7F01#32 <| start)
    .completed (fun t => t.readGpr 2 == 0x4455#32 && t.readWord 0x1000#32 == 0x11223344#32 && t.readWord 0x1004#32 == 0x55667788#32 && t.readWord 0x1008#32 == 0x80FF7F01#32) := by decide +kernel

theorem test_lhu :
    runs 0x94220009 (x 1 0x1000#32 <| x 2 0xAABBCCDD#32 <| m 0x1000#32 0x11223344#32 <| m 0x1004#32 0x55667788#32 <| m 0x1008#32 0x80FF7F01#32 <| start)
    .completed (fun t => t.readGpr 2 == 0xFF7F#32 && t.readWord 0x1000#32 == 0x11223344#32 && t.readWord 0x1004#32 == 0x55667788#32 && t.readWord 0x1008#32 == 0x80FF7F01#32) ∧
    runs 0x94220003 (x 1 0x1000#32 <| x 2 0xAABBCCDD#32 <| m 0x1000#32 0x11223344#32 <| m 0x1004#32 0x55667788#32 <| m 0x1008#32 0x80FF7F01#32 <| start)
    .completed (fun t => t.readGpr 2 == 0x4455#32 && t.readWord 0x1000#32 == 0x11223344#32 && t.readWord 0x1004#32 == 0x55667788#32 && t.readWord 0x1008#32 == 0x80FF7F01#32) := by decide +kernel

theorem test_lw :
    runs 0x8C22FFFC (x 1 0x1008#32 <| x 2 0xAABBCCDD#32 <| m 0x1000#32 0x11223344#32 <| m 0x1004#32 0x55667788#32 <| m 0x1008#32 0x80FF7F01#32 <| start)
    .completed (fun t => t.readGpr 2 == 0x55667788#32 && t.readWord 0x1000#32 == 0x11223344#32 && t.readWord 0x1004#32 == 0x55667788#32 && t.readWord 0x1008#32 == 0x80FF7F01#32) ∧
    runs 0x8C220001 (x 1 0x1000#32 <| x 2 0xAABBCCDD#32 <| m 0x1000#32 0x11223344#32 <| m 0x1004#32 0x55667788#32 <| m 0x1008#32 0x80FF7F01#32 <| start)
    (.fault .addressError) (fun t => t.readGpr 2 == 0xAABBCCDD#32 && t.readWord 0x1000#32 == 0x11223344#32 && t.readWord 0x1004#32 == 0x55667788#32 && t.readWord 0x1008#32 == 0x80FF7F01#32) := by decide +kernel

theorem test_sb :
    runs 0xA0220005 (x 1 0x1000#32 <| x 2 0xAABBCCDD#32 <| m 0x1000#32 0x11223344#32 <| m 0x1004#32 0x55667788#32 <| m 0x1008#32 0x80FF7F01#32 <| start)
    .completed (fun t => t.readGpr 2 == 0xAABBCCDD#32 && t.readWord 0x1000#32 == 0x11223344#32 && t.readWord 0x1004#32 == 0x55DD7788#32 && t.readWord 0x1008#32 == 0x80FF7F01#32) ∧
    runs 0xA0220000 (x 1 0x1000#32 <| x 2 0xAABBCCDD#32 <| m 0x1000#32 0x11223344#32 <| m 0x1004#32 0x55667788#32 <| m 0x1008#32 0x80FF7F01#32 <| start)
    .completed (fun t => t.readGpr 2 == 0xAABBCCDD#32 && t.readWord 0x1000#32 == 0xDD223344#32 && t.readWord 0x1004#32 == 0x55667788#32 && t.readWord 0x1008#32 == 0x80FF7F01#32) := by decide +kernel

theorem test_sh :
    runs 0xA4220003 (x 1 0x1000#32 <| x 2 0xAABBCCDD#32 <| m 0x1000#32 0x11223344#32 <| m 0x1004#32 0x55667788#32 <| m 0x1008#32 0x80FF7F01#32 <| start)
    .completed (fun t => t.readGpr 2 == 0xAABBCCDD#32 && t.readWord 0x1000#32 == 0x112233CC#32 && t.readWord 0x1004#32 == 0xDD667788#32 && t.readWord 0x1008#32 == 0x80FF7F01#32) ∧
    runs 0xA4220007 (x 1 0x1000#32 <| x 2 0xAABBCCDD#32 <| m 0x1000#32 0x11223344#32 <| m 0x1004#32 0x55667788#32 <| m 0x1008#32 0x80FF7F01#32 <| start)
    .completed (fun t => t.readGpr 2 == 0xAABBCCDD#32 && t.readWord 0x1000#32 == 0x11223344#32 && t.readWord 0x1004#32 == 0x556677CC#32 && t.readWord 0x1008#32 == 0xDDFF7F01#32) := by decide +kernel

theorem test_sw :
    runs 0xAC220004 (x 1 0x1000#32 <| x 2 0xAABBCCDD#32 <| m 0x1000#32 0x11223344#32 <| m 0x1004#32 0x55667788#32 <| m 0x1008#32 0x80FF7F01#32 <| start)
    .completed (fun t => t.readGpr 2 == 0xAABBCCDD#32 && t.readWord 0x1000#32 == 0x11223344#32 && t.readWord 0x1004#32 == 0xAABBCCDD#32 && t.readWord 0x1008#32 == 0x80FF7F01#32) ∧
    runs 0xAC220005 (x 1 0x1000#32 <| x 2 0xAABBCCDD#32 <| m 0x1000#32 0x11223344#32 <| m 0x1004#32 0x55667788#32 <| m 0x1008#32 0x80FF7F01#32 <| start)
    (.fault .addressError) (fun t => t.readGpr 2 == 0xAABBCCDD#32 && t.readWord 0x1000#32 == 0x11223344#32 && t.readWord 0x1004#32 == 0x55667788#32 && t.readWord 0x1008#32 == 0x80FF7F01#32) := by decide +kernel

theorem test_lwl :
    runs 0x88220002 (x 1 0x1000#32 <| x 2 0xAABBCCDD#32 <| m 0x1000#32 0x11223344#32 <| m 0x1004#32 0x55667788#32 <| m 0x1008#32 0x80FF7F01#32 <| start)
    .completed (fun t => t.readGpr 2 == 0x3344CCDD#32 && t.readWord 0x1000#32 == 0x11223344#32 && t.readWord 0x1004#32 == 0x55667788#32 && t.readWord 0x1008#32 == 0x80FF7F01#32) ∧
    runs 0x88220005 (x 1 0x1000#32 <| x 2 0xAABBCCDD#32 <| m 0x1000#32 0x11223344#32 <| m 0x1004#32 0x55667788#32 <| m 0x1008#32 0x80FF7F01#32 <| start)
    .completed (fun t => t.readGpr 2 == 0x667788DD#32 && t.readWord 0x1000#32 == 0x11223344#32 && t.readWord 0x1004#32 == 0x55667788#32 && t.readWord 0x1008#32 == 0x80FF7F01#32) := by decide +kernel

theorem test_lwr :
    runs 0x98220002 (x 1 0x1000#32 <| x 2 0xAABBCCDD#32 <| m 0x1000#32 0x11223344#32 <| m 0x1004#32 0x55667788#32 <| m 0x1008#32 0x80FF7F01#32 <| start)
    .completed (fun t => t.readGpr 2 == 0xAA112233#32 && t.readWord 0x1000#32 == 0x11223344#32 && t.readWord 0x1004#32 == 0x55667788#32 && t.readWord 0x1008#32 == 0x80FF7F01#32) ∧
    runs 0x98220006 (x 1 0x1000#32 <| x 2 0xAABBCCDD#32 <| m 0x1000#32 0x11223344#32 <| m 0x1004#32 0x55667788#32 <| m 0x1008#32 0x80FF7F01#32 <| start)
    .completed (fun t => t.readGpr 2 == 0xAA556677#32 && t.readWord 0x1000#32 == 0x11223344#32 && t.readWord 0x1004#32 == 0x55667788#32 && t.readWord 0x1008#32 == 0x80FF7F01#32) := by decide +kernel

theorem test_swl :
    runs 0xA8220002 (x 1 0x1000#32 <| x 2 0xAABBCCDD#32 <| m 0x1000#32 0x11223344#32 <| m 0x1004#32 0x55667788#32 <| m 0x1008#32 0x80FF7F01#32 <| start)
    .completed (fun t => t.readGpr 2 == 0xAABBCCDD#32 && t.readWord 0x1000#32 == 0x1122AABB#32 && t.readWord 0x1004#32 == 0x55667788#32 && t.readWord 0x1008#32 == 0x80FF7F01#32) ∧
    runs 0xA8220003 (x 1 0x1000#32 <| x 2 0xAABBCCDD#32 <| m 0x1000#32 0x11223344#32 <| m 0x1004#32 0x55667788#32 <| m 0x1008#32 0x80FF7F01#32 <| start)
    .completed (fun t => t.readGpr 2 == 0xAABBCCDD#32 && t.readWord 0x1000#32 == 0x112233AA#32 && t.readWord 0x1004#32 == 0x55667788#32 && t.readWord 0x1008#32 == 0x80FF7F01#32) := by decide +kernel

theorem test_swr :
    runs 0xB8220002 (x 1 0x1000#32 <| x 2 0xAABBCCDD#32 <| m 0x1000#32 0x11223344#32 <| m 0x1004#32 0x55667788#32 <| m 0x1008#32 0x80FF7F01#32 <| start)
    .completed (fun t => t.readGpr 2 == 0xAABBCCDD#32 && t.readWord 0x1000#32 == 0xBBCCDD44#32 && t.readWord 0x1004#32 == 0x55667788#32 && t.readWord 0x1008#32 == 0x80FF7F01#32) ∧
    runs 0xB8220003 (x 1 0x1000#32 <| x 2 0xAABBCCDD#32 <| m 0x1000#32 0x11223344#32 <| m 0x1004#32 0x55667788#32 <| m 0x1008#32 0x80FF7F01#32 <| start)
    .completed (fun t => t.readGpr 2 == 0xAABBCCDD#32 && t.readWord 0x1000#32 == 0xAABBCCDD#32 && t.readWord 0x1004#32 == 0x55667788#32 && t.readWord 0x1008#32 == 0x80FF7F01#32) := by decide +kernel

theorem test_ll :
    runs 0xC0220004 (x 1 0x1000#32 <| x 2 0xAABBCCDD#32 <| m 0x1000#32 0x11223344#32 <| m 0x1004#32 0x55667788#32 <| m 0x1008#32 0x80FF7F01#32 <| start)
    .completed (fun t => t.readGpr 2 == 0x55667788#32 && t.readWord 0x1000#32 == 0x11223344#32 && t.readWord 0x1004#32 == 0x55667788#32 && t.readWord 0x1008#32 == 0x80FF7F01#32) ∧
    runs 0xC0220006 (x 1 0x1000#32 <| x 2 0xAABBCCDD#32 <| m 0x1000#32 0x11223344#32 <| m 0x1004#32 0x55667788#32 <| m 0x1008#32 0x80FF7F01#32 <| start)
    (.fault .addressError) (fun t => t.readGpr 2 == 0xAABBCCDD#32 && t.readWord 0x1000#32 == 0x11223344#32 && t.readWord 0x1004#32 == 0x55667788#32 && t.readWord 0x1008#32 == 0x80FF7F01#32) := by decide +kernel

theorem test_sc :
    runs 0xE0220008 (x 1 0x1000#32 <| x 2 0xAABBCCDD#32 <| m 0x1000#32 0x11223344#32 <| m 0x1004#32 0x55667788#32 <| m 0x1008#32 0x80FF7F01#32 <| start)
    .completed (fun t => t.readGpr 2 == 1#32 && t.readWord 0x1000#32 == 0x11223344#32 && t.readWord 0x1004#32 == 0x55667788#32 && t.readWord 0x1008#32 == 0xAABBCCDD#32) ∧
    runs 0xE0220009 (x 1 0x1000#32 <| x 2 0xAABBCCDD#32 <| m 0x1000#32 0x11223344#32 <| m 0x1004#32 0x55667788#32 <| m 0x1008#32 0x80FF7F01#32 <| start)
    (.fault .addressError) (fun t => t.readGpr 2 == 0xAABBCCDD#32 && t.readWord 0x1000#32 == 0x11223344#32 && t.readWord 0x1004#32 == 0x55667788#32 && t.readWord 0x1008#32 == 0x80FF7F01#32) := by decide +kernel

theorem test_ldc1 :
    runs 0xD4230004 (x 1 0x1000#32 <| x 2 0xAABBCCDD#32 <| m 0x1000#32 0x11223344#32 <| m 0x1004#32 0x55667788#32 <| m 0x1008#32 0x80FF7F01#32 <| start)
    .completed (fun t => t.readSlot 4 == 0x55667788#32 && t.readSlot 3 == 0x80FF7F01#32) ∧
    runs 0xD4220002 (x 1 0x1000#32 <| x 2 0xAABBCCDD#32 <| m 0x1000#32 0x11223344#32 <| m 0x1004#32 0x55667788#32 <| m 0x1008#32 0x80FF7F01#32 <| start)
    (.fault .addressError) (fun t => t.readSlot 3 == 0#32 && t.readSlot 2 == 0#32) := by decide +kernel

theorem test_sdc1 :
    runs 0xF4220004 (x 1 0x1000#32 <| x 2 0xAABBCCDD#32 <| f 3 0xCCCCCCCC#32 <| f 2 0xDDDDDDDD#32 <| m 0x1000#32 0x11223344#32 <| m 0x1004#32 0x55667788#32 <| m 0x1008#32 0x80FF7F01#32 <| start)
    .completed (fun t => t.readWord 0x1000#32 == 0x11223344#32 && t.readWord 0x1004#32 == 0xCCCCCCCC#32 && t.readWord 0x1008#32 == 0xDDDDDDDD#32) ∧
    runs 0xF4220005 (x 1 0x1000#32 <| x 2 0xAABBCCDD#32 <| f 3 0xCCCCCCCC#32 <| f 2 0xDDDDDDDD#32 <| m 0x1000#32 0x11223344#32 <| m 0x1004#32 0x55667788#32 <| m 0x1008#32 0x80FF7F01#32 <| start)
    (.fault .addressError) (fun t => t.readWord 0x1000#32 == 0x11223344#32 && t.readWord 0x1004#32 == 0x55667788#32 && t.readWord 0x1008#32 == 0x80FF7F01#32) := by decide +kernel

theorem test_ldxc1 :
    runs 0x4C250181 (x 1 0x1000#32 <| x 2 0xAABBCCDD#32 <| x 5 4#32 <| m 0x1000#32 0x11223344#32 <| m 0x1004#32 0x55667788#32 <| m 0x1008#32 0x80FF7F01#32 <| start)
    .completed (fun t => t.readSlot 7 == 0x55667788#32 && t.readSlot 6 == 0x80FF7F01#32) := by decide +kernel

theorem test_sdxc1 :
    runs 0x4C251009 (x 1 0x1000#32 <| x 2 0xAABBCCDD#32 <| x 5 0#32 <| f 3 0xCCCCCCCC#32 <| f 2 0xDDDDDDDD#32 <| m 0x1000#32 0x11223344#32 <| m 0x1004#32 0x55667788#32 <| m 0x1008#32 0x80FF7F01#32 <| start)
    .completed (fun t => t.readWord 0x1000#32 == 0xCCCCCCCC#32 && t.readWord 0x1004#32 == 0xDDDDDDDD#32 && t.readWord 0x1008#32 == 0x80FF7F01#32) := by decide +kernel

theorem test_j :
    runs 0x08000000 (startAt 0x400100#32)
    .completed (fun t => t.npc == 0#32 && t.pc == 0x400104#32) ∧
    runs 0x08000040 (startAt 0xFFFFFFC#32)
    .completed (fun t => t.npc == 0x10000100#32 && t.pc == 0x10000000#32) := by decide +kernel

theorem test_jal :
    runs 0x0C000001 (startAt 0xFFFFFFF8#32)
    .completed (fun t => t.npc == 0xF0000004#32 && t.pc == 0xFFFFFFFC#32) ∧
    runs 0x0C100040 (startAt 0x400100#32)
    .completed (fun t => t.npc == 0x400100#32 && t.pc == 0x400104#32 && t.readGpr 31 == 0x400108#32) := by decide +kernel

theorem test_jr :
    runs 0x00A00008 (x 5 0x400203#32 <| (startAt 0x400100#32))
    .completed (fun t => t.npc == 0x400203#32 && t.pc == 0x400104#32) ∧
    runs 0x00000008 (startAt 0x400100#32)
    .completed (fun t => t.npc == 0#32 && t.pc == 0x400104#32) := by decide +kernel

theorem test_jalr :
    runs 0x00A03009 (x 5 0x400200#32 <| (startAt 0x400100#32))
    .completed (fun t => t.npc == 0x400200#32 && t.pc == 0x400104#32 && t.readGpr 6 == 0x400108#32) ∧
    runs 0x03E00009 (x 31 0x400300#32 <| (startAt 0x400100#32))
    .completed (fun t => t.npc == 0x400300#32 && t.pc == 0x400104#32 && t.readGpr 31 == 0x400108#32) := by decide +kernel

theorem test_beq :
    runs 0x10008000 (startAt 0x400100#32)
    .completed (fun t => t.npc == 0x3E0104#32 && t.pc == 0x400104#32) ∧
    runs 0x10000004 (startAt 0xFFFFFFF8#32)
    .completed (fun t => t.npc == 0xC#32 && t.pc == 0xFFFFFFFC#32) := by decide +kernel

theorem test_bne :
    runs 0x1422FFFF (x 1 0x80000000#32 <| x 2 0x80000000#32 <| (startAt 0x400100#32))
    .completed (fun t => t.npc == 0x400108#32 && t.pc == 0x400104#32) ∧
    runs 0x14007FFF (startAt 0x400100#32)
    .completed (fun t => t.npc == 0x400108#32 && t.pc == 0x400104#32) := by decide +kernel

theorem test_blez :
    runs 0x1820FFFE (x 1 0x7FFFFFFF#32 <| (startAt 0x400100#32))
    .completed (fun t => t.npc == 0x400108#32 && t.pc == 0x400104#32) ∧
    runs 0x1820FFFE (x 1 0x80000000#32 <| (startAt 0x400100#32))
    .completed (fun t => t.npc == 0x4000FC#32 && t.pc == 0x400104#32) := by decide +kernel

theorem test_bgtz :
    runs 0x1C20FFFE (x 1 0x7FFFFFFF#32 <| (startAt 0x400100#32))
    .completed (fun t => t.npc == 0x4000FC#32 && t.pc == 0x400104#32) ∧
    runs 0x1C20FFFE (x 1 0x80000000#32 <| (startAt 0x400100#32))
    .completed (fun t => t.npc == 0x400108#32 && t.pc == 0x400104#32) := by decide +kernel

theorem test_bltz :
    runs 0x0420FFFE (x 1 0x7FFFFFFF#32 <| (startAt 0x400100#32))
    .completed (fun t => t.npc == 0x400108#32 && t.pc == 0x400104#32) ∧
    runs 0x0420FFFE (x 1 0x80000000#32 <| (startAt 0x400100#32))
    .completed (fun t => t.npc == 0x4000FC#32 && t.pc == 0x400104#32) := by decide +kernel

theorem test_bgez :
    runs 0x0421FFFE (x 1 0x7FFFFFFF#32 <| (startAt 0x400100#32))
    .completed (fun t => t.npc == 0x4000FC#32 && t.pc == 0x400104#32) ∧
    runs 0x0421FFFE (x 1 0x80000000#32 <| (startAt 0x400100#32))
    .completed (fun t => t.npc == 0x400108#32 && t.pc == 0x400104#32) := by decide +kernel

theorem test_bltzal :
    runs 0x0430FFFE (x 1 0xFFFFFFFF#32 <| (startAt 0x400100#32))
    .completed (fun t => t.npc == 0x4000FC#32 && t.pc == 0x400104#32 && t.readGpr 31 == 0x400108#32) ∧
    runs 0x07F00004 (x 31 0x80000000#32 <| (startAt 0x400100#32))
    .completed (fun t => t.npc == 0x400114#32 && t.pc == 0x400104#32 && t.readGpr 31 == 0x400108#32) := by decide +kernel

theorem test_bgezal :
    runs 0x0431FFFE (x 1 0xFFFFFFFF#32 <| (startAt 0x400100#32))
    .completed (fun t => t.npc == 0x400108#32 && t.pc == 0x400104#32 && t.readGpr 31 == 0x400108#32) ∧
    runs 0x04110100 (startAt 0x400100#32)
    .completed (fun t => t.npc == 0x400504#32 && t.pc == 0x400104#32 && t.readGpr 31 == 0x400108#32) := by decide +kernel

theorem test_bc1f :
    runs 0x45000020 (cc true <| (startAt 0x400100#32))
    .completed (fun t => t.npc == 0x400108#32 && t.pc == 0x400104#32) ∧
    runs 0x45000020 (startAt 0x400100#32)
    .completed (fun t => t.npc == 0x400184#32 && t.pc == 0x400104#32) := by decide +kernel

theorem test_bc1t :
    runs 0x45010020 (cc true <| (startAt 0x400100#32))
    .completed (fun t => t.npc == 0x400184#32 && t.pc == 0x400104#32) ∧
    runs 0x45010020 (startAt 0x400100#32)
    .completed (fun t => t.npc == 0x400108#32 && t.pc == 0x400104#32) := by decide +kernel

theorem test_bc1fl :
    runs 0x45020020 (cc true <| (startAt 0x400100#32))
    .completed (fun t => t.npc == 0x400108#32 && t.pc == 0x400104#32) ∧
    runs 0x45020020 (startAt 0x400100#32)
    .completed (fun t => t.npc == 0x400184#32 && t.pc == 0x400104#32) := by decide +kernel

theorem test_bc1tl :
    runs 0x45030020 (cc true <| (startAt 0x400100#32))
    .completed (fun t => t.npc == 0x400184#32 && t.pc == 0x400104#32) ∧
    runs 0x45030020 (startAt 0x400100#32)
    .completed (fun t => t.npc == 0x400108#32 && t.pc == 0x400104#32) := by decide +kernel

theorem test_addD :
    runs 0x46241180 (f 2 0#32 <| f 3 0#32 <| f 4 0#32 <| f 5 0x80000000#32 <| start)
    .completed (fun t => t.readPair 6 == 0x0000000000000000#64) ∧
    runs 0x46241180 (f 2 1#32 <| f 3 0#32 <| f 4 1#32 <| f 5 0#32 <| start)
    .completed (fun t => t.readPair 6 == 0x0000000000000002#64) := by decide +kernel

theorem test_subD :
    runs 0x46241181 (f 2 0#32 <| f 3 0x80000000#32 <| f 4 0#32 <| f 5 0#32 <| start)
    .completed (fun t => t.readPair 6 == 0x8000000000000000#64) ∧
    runs 0x46241181 (f 2 0#32 <| f 3 0x3FF00000#32 <| f 4 0#32 <| f 5 0x3CA00000#32 <| start)
    .completed (fun t => t.readPair 6 == 0x3FEFFFFFFFFFFFFF#64) := by decide +kernel

theorem test_mulD :
    runs 0x46241182 (f 2 3#32 <| f 3 0#32 <| f 4 0#32 <| f 5 0x3FE00000#32 <| start)
    .completed (fun t => t.readPair 6 == 0x0000000000000002#64) ∧
    runs 0x46241182 (f 2 0#32 <| f 3 0x80000000#32 <| f 4 0#32 <| f 5 0x40140000#32 <| start)
    .completed (fun t => t.readPair 6 == 0x8000000000000000#64) := by decide +kernel

theorem test_divD :
    runs 0x46241183 (f 2 0#32 <| f 3 0x3FF00000#32 <| f 4 0#32 <| f 5 0x80000000#32 <| start)
    .completed (fun t => t.readPair 6 == 0xFFF0000000000000#64) ∧
    runs 0x46241183 (f 2 0#32 <| f 3 0xC01C0000#32 <| f 4 0#32 <| f 5 0x40000000#32 <| start)
    .completed (fun t => t.readPair 6 == 0xC00C000000000000#64) := by decide +kernel

theorem test_negD :
    runs 0x46201187 (f 7 0x77777777#32 <| f 2 0#32 <| f 3 0x7FF00000#32 <| start)
    .completed (fun t => t.readPair 6 == 0xFFF0000000000000#64) ∧
    runs 0x46201187 (f 7 0x77777777#32 <| f 2 0#32 <| f 3 0xFFF40000#32 <| start)
    .completed (fun t => t.readPair 6 == 0x7FF4000000000000#64) := by decide +kernel

theorem test_movD :
    runs 0x46201186 (f 7 0x77777777#32 <| f 2 0#32 <| f 3 0x7FF00000#32 <| start)
    .completed (fun t => t.readPair 6 == 0x7FF0000000000000#64) ∧
    runs 0x46201186 (f 7 0x77777777#32 <| f 2 0#32 <| f 3 0xFFF40000#32 <| start)
    .completed (fun t => t.readPair 6 == 0xFFF4000000000000#64) := by decide +kernel

theorem test_cvtDW :
    runs 0x468011A1 (f 7 0x77777777#32 <| f 2 0x80000000#32 <| start)
    .completed (fun t => t.readPair 6 == 0xC1E0000000000000#64) ∧
    runs 0x468011A1 (f 7 0x77777777#32 <| f 2 0x75BCD15#32 <| start)
    .completed (fun t => t.readPair 6 == 0x419D6F3454000000#64) := by decide +kernel

theorem test_truncWD :
    runs 0x4620118D (f 7 0x77777777#32 <| f 2 0#32 <| f 3 0xC1E00000#32 <| start)
    .completed (fun t => t.readSlot 6 == 0x80000000#32 && t.readSlot 7 == 0x77777777#32) ∧
    runs 0x4620118D (f 7 0x77777777#32 <| f 2 0#32 <| f 3 0xFFF00000#32 <| start)
    .completed (fun t => t.readSlot 7 == 0x77777777#32 && t.draws == 1) := by decide +kernel

theorem test_cEqD :
    runs 0x46241032 (f 2 0#32 <| f 3 0xFFF00000#32 <| f 4 0#32 <| f 5 0x7FF00000#32 <| cc true <| start)
    .completed (fun t => t.cc == false) ∧
    runs 0x46241032 (f 2 1#32 <| f 3 0x7FF00000#32 <| f 4 0#32 <| f 5 0x3FF00000#32 <| cc true <| start)
    .completed (fun t => t.cc == false) := by decide +kernel

theorem test_cOltD :
    runs 0x46241034 (f 2 0#32 <| f 3 0xFFF00000#32 <| f 4 0#32 <| f 5 0x7FF00000#32 <| cc true <| start)
    .completed (fun t => t.cc == true) ∧
    runs 0x46241034 (f 2 1#32 <| f 3 0x7FF00000#32 <| f 4 0#32 <| f 5 0x3FF00000#32 <| cc true <| start)
    .completed (fun t => t.cc == false) := by decide +kernel

theorem test_cUnD :
    runs 0x46241031 (f 2 0#32 <| f 3 0xFFF00000#32 <| f 4 0#32 <| f 5 0x7FF00000#32 <| cc true <| start)
    .completed (fun t => t.cc == false) ∧
    runs 0x46241031 (f 2 1#32 <| f 3 0x7FF00000#32 <| f 4 0#32 <| f 5 0x3FF00000#32 <| cc true <| start)
    .completed (fun t => t.cc == true) := by decide +kernel

theorem test_mfc1 :
    runs 0x4405F800 (x 5 0xCAFEBABE#32 <| f 2 0x11111111#32 <| f 3 0x22222222#32 <| f 31 0x31313131#32 <| start)
    .completed (fun t => t.readGpr 5 == 0x31313131#32 && t.readSlot 2 == 0x11111111#32 && t.readSlot 3 == 0x22222222#32 && t.readSlot 31 == 0x31313131#32) ∧
    runs 0x44051000 (x 5 0xCAFEBABE#32 <| f 2 0x11111111#32 <| f 3 0x22222222#32 <| f 31 0x31313131#32 <| start)
    .completed (fun t => t.readGpr 5 == 0x11111111#32 && t.readSlot 2 == 0x11111111#32 && t.readSlot 3 == 0x22222222#32 && t.readSlot 31 == 0x31313131#32) := by decide +kernel

theorem test_mtc1 :
    runs 0x4485F800 (x 5 0xCAFEBABE#32 <| f 2 0x11111111#32 <| f 3 0x22222222#32 <| f 31 0x31313131#32 <| start)
    .completed (fun t => t.readGpr 5 == 0xCAFEBABE#32 && t.readSlot 2 == 0x11111111#32 && t.readSlot 3 == 0x22222222#32 && t.readSlot 31 == 0xCAFEBABE#32) ∧
    runs 0x44851000 (x 5 0xCAFEBABE#32 <| f 2 0x11111111#32 <| f 3 0x22222222#32 <| f 31 0x31313131#32 <| start)
    .completed (fun t => t.readGpr 5 == 0xCAFEBABE#32 && t.readSlot 2 == 0xCAFEBABE#32 && t.readSlot 3 == 0x22222222#32 && t.readSlot 31 == 0x31313131#32) := by decide +kernel

theorem test_mfhc1 :
    runs 0x44651000 (x 5 0xCAFEBABE#32 <| f 2 0x11111111#32 <| f 3 0x22222222#32 <| f 31 0x31313131#32 <| start)
    .completed (fun t => t.readGpr 5 == 0x22222222#32 && t.readSlot 2 == 0x11111111#32 && t.readSlot 3 == 0x22222222#32 && t.readSlot 31 == 0x31313131#32) ∧
    runs 0x4465F800 (x 5 0xCAFEBABE#32 <| f 2 0x11111111#32 <| f 3 0x22222222#32 <| f 31 0x31313131#32 <| start)
    (.fault .reservedInstruction) (fun t => t.readGpr 5 == 0xCAFEBABE#32 && t.readSlot 2 == 0x11111111#32 && t.readSlot 3 == 0x22222222#32 && t.readSlot 31 == 0x31313131#32) := by decide +kernel

theorem test_mthc1 :
    runs 0x44E51000 (x 5 0xCAFEBABE#32 <| f 2 0x11111111#32 <| f 3 0x22222222#32 <| f 31 0x31313131#32 <| start)
    .completed (fun t => t.readGpr 5 == 0xCAFEBABE#32 && t.readSlot 2 == 0x11111111#32 && t.readSlot 3 == 0xCAFEBABE#32 && t.readSlot 31 == 0x31313131#32) ∧
    runs 0x44E5F800 (x 5 0xCAFEBABE#32 <| f 2 0x11111111#32 <| f 3 0x22222222#32 <| f 31 0x31313131#32 <| start)
    (.fault .reservedInstruction) (fun t => t.readGpr 5 == 0xCAFEBABE#32 && t.readSlot 2 == 0x11111111#32 && t.readSlot 3 == 0x22222222#32 && t.readSlot 31 == 0x31313131#32) := by decide +kernel

theorem test_teq :
    runs 0x00220034 (x 1 5#32 <| x 2 6#32 <| start)
    .completed (fun t => t.pc == 0x104#32 && t.npc == 0x108#32 && t.instrCounter == 1 && t.halted == false) ∧
    runs 0x00220034 (x 1 5#32 <| x 2 5#32 <| start)
    (.fault .trapEqual) (fun t => t.pc == 0x104#32 && t.npc == 0x108#32 && t.instrCounter == 1 && t.halted == true) := by decide +kernel

theorem test_brk :
    runs 0x0000000D start
    (.fault .brk) (fun t => t.pc == 0x104#32 && t.npc == 0x108#32 && t.instrCounter == 1 && t.halted == true) := by decide +kernel

/-- Two known numbers, as bridges of the spec's worked programs have (45_trap_syscall.md R280). -/
def knownCalls : List (Word × BridgeReply) :=
  [(4#32, .ok 0x2A#32 [(0x1000#32, 0x11#8), (0x1000#32, 0x22#8)]), (1#32, .halt)]

/-- A machine with that bridge. -/
def bridged : State := { start with params := { Params.default with bridge := .table knownCalls } }

/-- Served, unrecognised and halting calls; the number from the code field and from `x[2]`. -/
theorem test_syscall :
    runs 0x0000010C bridged .completed (fun t => t.readGpr 2 == 0x2A#32 && t.readGpr 7 == 0#32 &&
      t.readByte 0x1000#32 == 0x22#8 && t.halted == false) = true ∧
    runs 0x0000000C (x 2 5#32 <| x 7 9#32 bridged) .completed (fun t =>
      t.readGpr 2 == 0xFFFFFFFF#32 && t.readGpr 7 == 1#32) = true ∧
    runs 0x0000000C (x 2 1#32 bridged) .completed (fun t => t.halted && t.readGpr 2 == 1#32) = true := by
  decide +kernel

/-- A halted machine has no step; a fetch outside MEM_MAP is stuck; a fetch of stored code is refused
(40_scheduler.md R122, 20_memory.md R53, R67). -/
theorem test_stops :
    (match step { start with halted := true } with | .fault r => r == .halted | _ => false) = true ∧
    (match step { start with params := { Params.default with memMap := [] } } with
      | .fault r => r == .unmapped | _ => false) = true ∧
    (match step (start.writeByte 0x103#32 0#8) with
      | .refused r => r == .fetchOfStoredCode | _ => false) = true := by
  decide +kernel

/-- A reserved word, and a misaligned ENTRY_PC: both faults are states (45_trap_syscall.md R284,
40_scheduler.md R118). -/
theorem test_fetchFaults :
    runs 0xFFFFFFFF start (.fault .reservedInstruction) (fun t => t.halted && t.pc == 0x104#32 &&
      t.npc == 0x108#32 && t.instrCounter == 1) = true ∧
    (match step (startAt 0x102#32) with
      | .next t => t.outcome == .fault .addressError && t.halted && t.pc == 0x102#32 &&
          t.npc == 0x106#32 && t.instrCounter == 0
      | _ => false) = true := by
  decide +kernel

/-! ### Witnesses: the hypotheses of the obligations can be met -/

/-- The outcome is this next value. -/
def isNext {σ : Type} [DecidableEq σ] (v : σ) : Host.Outcome σ Fault Refusal → Bool
  | .next w => w == v
  | _ => false

theorem eq_of_isNext {σ : Type} [DecidableEq σ] {v : σ} {o : Host.Outcome σ Fault Refusal}
    (h : isNext v o = true) : o = .next v := by
  cases o with
  | next w => rw [eq_of_beq h]
  | fault r => cases h
  | refused r => cases h

/-- The outcome is a next state with a property. -/
def nextWith (p : State → Bool) : Result → Bool
  | .next t => p t
  | _ => false

theorem exists_of_nextWith {p : State → Bool} {o : Result} (h : nextWith p o = true) :
    ∃ t, o = .next t ∧ p t = true := by
  cases o with
  | next t => exact ⟨t, rfl, h⟩
  | fault r => cases h
  | refused r => cases h

/-- The machine after reset with this word at its pc. -/
def at0 (w : Nat) : State := start.withFetchWord 32 w

theorem inv_at0 (w : Nat) (h : (at0 w).mem.wf = true := by decide +kernel) : (at0 w).Inv :=
  ⟨h, h, rfl, rfl, fun _ _ => rfl, fun h => absurd rfl h⟩

/-- The platform backs `n` bytes from `base` on. -/
def backed (base n : Nat) (s : State) : State :=
  { s with params := { s.params with memMap := [⟨base, n⟩] } }

/-- A platform whose fetch sees stores. -/
def coherent (s : State) : State := { s with params := { s.params with ifetchCoherent := true } }

/-- A platform with DIV0_POLICY draw. -/
def drawing (s : State) : State := { s with params := { s.params with divZero := .draw } }

/-- Set a pair. -/
def d (n : Slot) (v : Double) (s : State) : State := s.writePair n v

theorem default_mapped (a : Word) : start.mapped a = true := by
  have := a.isLt
  simp [State.mapped, start, State.reset, State.applyReset, State.powerOn, Params.default, this]

theorem witness_DecodeOfEncode : ([.sll 31 0 31, .srl 0 31 0, .sra 31 31 31, .ext 31 0 31 32,
    .ext 0 31 0 1, .j 0x3FFFFFF#26, .syscall 0xFFFFF#20] : List Instr).all Instr.wellFormed = true := by
  decide

theorem witness_EncodeOfDecode : decodeWord 0#32 = some (.sll 0 0 0) ∧
    decodeWord 0x7C00FFC0#32 = some (.ext 0 0 31 32) := by
  decide +kernel

theorem witness_EveryMatchingRow : opcodeTable.any (fun r => r.hits 0x00221820#32) = true ∧
    opcodeTable.all (fun r => r.hits 0xFFFFFFFF#32 == false) = true := by
  decide +kernel

theorem witness_StepRunsDecoded : (at0 0x2022FFFF).halted = false ∧
    wordAligned (at0 0x2022FFFF).pc = true ∧
    (at0 0x2022FFFF).fetchWord (at0 0x2022FFFF).pc = .next 0x2022FFFF#32 ∧
    decodeWord 0x2022FFFF#32 = some (.addi 2 1 0xFFFF#16) :=
  ⟨rfl, by decide +kernel, eq_of_isNext (by decide +kernel), by decide +kernel⟩

/-- The same hypotheses with a control-flow word, whose step faults not, and with a word that faults. -/
theorem witness_GenericStep : (at0 0x08000040).halted = false ∧
    wordAligned (at0 0x08000040).pc = true ∧
    (at0 0x08000040).fetchWord (at0 0x08000040).pc = .next 0x08000040#32 ∧
    (∃ t, step (at0 0x2022FFFF) = .next t ∧ decide (t.npc = 0x108#32) = true) ∧
    (∃ t, step (at0 0x0000000D) = .next t ∧
      decide (t.halted = true ∧ t.outcome ≠ .completed) = true) :=
  ⟨rfl, by decide +kernel, eq_of_isNext (by decide +kernel),
    exists_of_nextWith (by decide +kernel), exists_of_nextWith (by decide +kernel)⟩

theorem witness_ReservedWord : (at0 0xFFFFFFFF).halted = false ∧
    wordAligned (at0 0xFFFFFFFF).pc = true ∧
    (at0 0xFFFFFFFF).fetchWord (at0 0xFFFFFFFF).pc = .next 0xFFFFFFFF#32 ∧
    decodeWord 0xFFFFFFFF#32 = none :=
  ⟨rfl, by decide +kernel, eq_of_isNext (by decide +kernel), by decide +kernel⟩

/-- Remainders 1 and 3, and a halted machine. -/
theorem witness_MisalignedPc : ((startAt 0x101#32).halted = false ∧
      (startAt 0x101#32).pc.toNat % 4 ≠ 0) ∧
    ((startAt 0xFFFFFFFF#32).halted = false ∧ (startAt 0xFFFFFFFF#32).pc.toNat % 4 ≠ 0) ∧
    State.powerOn.halted = true := by
  decide +kernel

/-- The three clauses, at the last word of the address space. -/
theorem witness_Fetch : (coherent start).mappedRange 0xFFFFFFFC#32 4 = true ∧
    (coherent start).params.ifetchCoherent = true ∧
    start.mappedRange 0xFFFFFFFC#32 4 = true ∧ start.params.ifetchCoherent = false ∧
    (∀ b ∈ bytesFrom 0xFFFFFFFC#32 4, b.toNat ∉ start.written) ∧
    (∃ b ∈ bytesFrom 0xFFFFFFFC#32 4, b.toNat ∈ (start.writeByte 0xFFFFFFFF#32 0#8).written) :=
  ⟨by decide +kernel, rfl, by decide +kernel, rfl, fun _ _ => List.not_mem_nil,
    0xFFFFFFFF#32, by decide +kernel, by decide +kernel⟩

theorem witness_StoredWord : start.mem.wf = true ∧
    wordAligned (start.effAddr 0 0xFFFC#16) = true ∧
    start.mappedRange (start.effAddr 0 0xFFFC#16) 4 = true ∧
    start.params.ifetchCoherent = false ∧ (coherent start).params.ifetchCoherent = true ∧
    (coherent start).mappedRange ((coherent start).effAddr 0 0xFFFC#16) 4 = true := by
  decide +kernel

theorem witness_PlacedWord : start.halted = false ∧ wordAligned start.pc = true ∧
    start.mappedRange start.pc 4 = true ∧ start.mem.wf = true ∧ start.image.wf = true ∧
    (Instr.ext 31 0 31 32).wellFormed = true := by
  decide +kernel

/-- A jump at 0x100 with a nop in its delay slot. -/
theorem witness_TakenTransfer : (at0 0x08000040).halted = false ∧
    wordAligned (at0 0x08000040).pc = true ∧ (at0 0x08000040).npc = (at0 0x08000040).pc + 4#32 ∧
    (at0 0x08000040).fetchWord (at0 0x08000040).pc = .next 0x08000040#32 ∧
    decodeWord 0x08000040#32 = some (.j 0x40#26) ∧ (Instr.j 0x40#26).isControlFlow = true ∧
    (at0 0x08000040).fetchWord ((at0 0x08000040).pc + 4#32) = .next 0#32 ∧
    decodeWord 0#32 = some (.sll 0 0 0) :=
  ⟨rfl, by decide +kernel, by decide +kernel, eq_of_isNext (by decide +kernel), by decide +kernel,
    rfl, eq_of_isNext (by decide +kernel), by decide +kernel⟩

/-- A stuck access, and a machine with every address mapped that can step. -/
theorem witness_Stuck : (match exec (.lb 1 2 0#16) (backed 0x1000 4 start) with
      | .fault r => r == .unmapped
      | _ => false) = true ∧
    start.halted = false ∧ (∀ a, start.mapped a = true) ∧ start.wordWritten start.pc = false ∧
    (coherent start).params.ifetchCoherent = true :=
  ⟨by decide +kernel, rfl, default_mapped, by decide +kernel, rfl⟩

theorem witness_InvariantPreserved : (at0 0xAC010004).Inv ∧
    ∃ t, step (at0 0xAC010004) = .next t ∧ (t.written.length == 4) = true :=
  ⟨inv_at0 _, exists_of_nextWith (by decide +kernel)⟩

theorem witness_ResetInvariant : (m 0xFFFFFFFC#32 0x01020304#32 start).mem.wf = true := by
  decide +kernel

/-- An aligned and a misaligned pc; behaviours with a next state, syscall among them, and a stuck one. -/
theorem witness_LaunchData : (∃ t, step (at0 0x2022FFFF) = .next t ∧ (t.instrCounter == 1) = true) ∧
    (∃ t, step (startAt 0x103#32) = .next t ∧ (t.instrCounter == 0) = true) ∧
    (∃ t, exec (.addi 2 1 0xFFFF#16) start = .next t ∧ (t.instrCounter == 0) = true) ∧
    (∃ t, exec (.syscall 4#20) bridged = .next t ∧ (t.readGpr 2 == 0x2A#32) = true) ∧
    (match exec (.lb 1 2 0#16) (backed 0x1000 4 start) with
      | .fault r => r == .unmapped
      | _ => false) = true :=
  ⟨exists_of_nextWith (by decide +kernel), exists_of_nextWith (by decide +kernel),
    exists_of_nextWith (by decide +kernel), exists_of_nextWith (by decide +kernel),
    by decide +kernel⟩

/-- An instruction of each side of each classification, answering a next state. -/
theorem witness_Writers : (Instr.add 3 1 2).isControlFlow = false ∧
    (Instr.bgezal 31 1#16).isControlFlow = true ∧
    (Instr.bgezal 31 1#16).linksTo ≠ some 30 ∧ (Instr.jalr 0 1).linksTo ≠ some 0 ∧
    (Instr.jalr 30 1).linksTo ≠ some 31 ∧ (Instr.jr 31).linksTo ≠ some 31 ∧
    (Instr.add 3 1 2).writesCc = false ∧ (Instr.add 3 1 2).writesHi = false ∧
    (Instr.mthi 1).writesLo = false ∧ (Instr.mfc1 1 2).writesSlots = false ∧
    (Instr.lb 1 2 0#16).mayStore = false ∧
    ([.add 3 1 2, .bgezal 31 1#16, .jalr 0 1, .jalr 30 1, .jr 31, .mthi 1, .mfc1 1 2, .lb 1 2 0#16] : List Instr).all
      (fun i => nextWith (fun _ => true) (exec i start)) = true := by
  decide +kernel

/-- Each reason is raised by a behaviour that starts with outcome Continue. -/
theorem witness_FaultReasons : start.outcome = .completed ∧
    ([(.add 3 1 2, .integerOverflow), (.addi 3 1 0x7FFF#16, .integerOverflow), (.teq 1 1 0#10, .trapEqual),
      (.brk 0#20, .brk), (.divu 1 0, .divideByZero), (.sw 2 0 0x0003#16, .addressError),
      (.mfhc1 1 31, .reservedInstruction)] : List (Instr × FaultReason)).all
      (fun p => nextWith (fun t => t.outcome == .fault p.2)
        (exec p.1 (x 1 0x7FFFFFFF#32 <| x 2 1#32 start))) = true := by
  decide +kernel

theorem witness_NormalEnd : bridged.halted = false ∧ bridged.outcome = .completed ∧
    ∃ t, exec (.syscall 1#20) bridged = .next t ∧
      (t.halted && t.outcome == .completed) = true :=
  ⟨rfl, rfl, exists_of_nextWith (by decide +kernel)⟩

/-- All seventeen forms with pair 31 in some field they use as a double; addresses with remainders
1, 2 and 3, offset and indexed. -/
theorem witness_PairThirtyOne : ([.addD 31 0 0, .subD 0 31 0, .mulD 0 0 31, .divD 31 31 31, .negD 0 31,
      .movD 31 0, .cvtDW 31 31, .truncWD 31 31, .cEqD 31 0, .cOltD 0 31, .cUnD 31 31, .mfhc1 0 31,
      .mthc1 0 31, .ldc1 31 0 0#16, .sdc1 31 0 0#16, .ldxc1 31 0 0, .sdxc1 31 0 0] : List Instr).all
      (fun i => i.pairs.contains 31) = true ∧
    (start.effAddr 0 1#16).toNat % 4 ≠ 0 ∧ (start.effAddr 0 2#16).toNat % 4 ≠ 0 ∧
    (start.effAddr 0 0xFFFF#16).toNat % 4 ≠ 0 ∧
    ((x 1 2#32 start).effAddrIndexed 1 0).toNat % 4 ≠ 0 ∧ (30 : Slot) ≠ 31 := by
  decide +kernel

/-- Just inside and just outside the range, at both ends, for the register and the immediate form. -/
theorem witness_Overflow :
    ((0x7FFFFFFF#32).msb = (1#32).msb ∧ (0x7FFFFFFF#32 + 1#32).msb ≠ (0x7FFFFFFF#32).msb) ∧
    ((0x80000000#32).msb = (0xFFFFFFFF#32).msb ∧
      (0x80000000#32 + 0xFFFFFFFF#32).msb ≠ (0x80000000#32).msb) ∧
    ¬((0x7FFFFFFE#32).msb = (1#32).msb ∧ (0x7FFFFFFE#32 + 1#32).msb ≠ (0x7FFFFFFE#32).msb) ∧
    ¬((0x80000001#32).msb = (0xFFFFFFFF#32).msb ∧
      (0x80000001#32 + 0xFFFFFFFF#32).msb ≠ (0x80000001#32).msb) ∧
    (1#16).signExtend 32 = 1#32 ∧ (0xFFFF#16).signExtend 32 = 0xFFFFFFFF#32 ∧
    (x 1 0x7FFFFFFF#32 start).readGpr 1 = 0x7FFFFFFF#32 := by
  decide +kernel

/-- The same sums as integers: 2^31 - 1, 2^31, -2^31 and -2^31 - 1. -/
theorem witness_SignedSum :
    (0x7FFFFFFE#32).toInt + (1#32).toInt = 2 ^ 31 - 1 ∧
    (0x7FFFFFFF#32).toInt + (1#16).toInt = 2 ^ 31 ∧
    (0x80000001#32).toInt + (0xFFFFFFFF#32).toInt = -(2 ^ 31) ∧
    (0x80000000#32).toInt + (0xFFFF#16).toInt = -(2 ^ 31) - 1 := by
  decide +kernel

theorem witness_Shifts : 0 < 32 ∧ 31 < 32 ∧
    ((x 1 31#32 start).readGpr 1).toNat % 32 = 31 ∧ ((x 1 32#32 start).readGpr 1).toNat % 32 = 0 := by
  decide +kernel

/-- The overflowing division, and one that is not. -/
theorem witness_Divide : (x 2 0xFFFFFFFF#32 <| x 1 0x80000000#32 start).readGpr 2 ≠ 0#32 ∧
    (x 2 0xFFFFFFFF#32 <| x 1 0x80000000#32 start).readGpr 1 = 0x80000000#32 ∧
    ¬((x 2 0xFFFFFFFF#32 <| x 1 0x80000001#32 start).readGpr 1 = 0x80000000#32) := by
  decide +kernel

theorem witness_DivideByZero : start.readGpr 0 = 0#32 ∧ start.params.divZero = .fault ∧
    (drawing start).readGpr 0 = 0#32 ∧ (drawing start).params.divZero = .draw := by
  decide +kernel

/-- The field ends at bit 31 or one past it, at both ends of `pos`. -/
theorem witness_Extract : (1 ≤ 1 ∧ 1 ≤ 32 ∧ 31 < 32) ∧ 31 + 1 ≤ 32 ∧ 0 + 32 ≤ 32 ∧
    (1 ≤ 2 ∧ 2 ≤ 32) ∧ 32 < 31 + 2 ∧ 32 < 1 + 32 := by
  decide

theorem witness_ConditionalMoves : start.readGpr 1 = 0#32 ∧ (x 1 1#32 start).readGpr 1 ≠ 0#32 ∧
    start.cc = false ∧ (cc true start).cc = true := by
  decide +kernel

/-- Exactly the bytes of the access are backed: 1, 2 and 4 from 0x1000. -/
theorem witness_Loads :
    (backed 0x1000 1 <| x 1 0x1000#32 start).mappedRange
      ((backed 0x1000 1 <| x 1 0x1000#32 start).effAddr 1 0#16) 1 = true ∧
    (backed 0xFFF 2 <| x 1 0x1000#32 start).mappedRange
      ((backed 0xFFF 2 <| x 1 0x1000#32 start).effAddr 1 0xFFFF#16) 2 = true ∧
    (backed 0x1000 4 <| x 1 0x1000#32 start).mappedRange
      ((backed 0x1000 4 <| x 1 0x1000#32 start).effAddr 1 0#16) 4 = true ∧
    ((backed 0x1000 4 <| x 1 0x1000#32 start).effAddr 1 0#16).toNat % 4 = 0 := by
  decide +kernel

/-- The same with a memory that lists bytes; the last word of the address space too. -/
theorem witness_Stores : (m 0x1000#32 0x01020304#32 start).mem.wf = true ∧
    (m 0x1000#32 0x01020304#32 start).mappedRange ((m 0x1000#32 0x01020304#32 start).effAddr 0 0xFFFF#16)
      1 = true ∧
    (m 0x1000#32 0x01020304#32 start).mappedRange ((m 0x1000#32 0x01020304#32 start).effAddr 0 0xFFFF#16)
      2 = true ∧
    (m 0x1000#32 0x01020304#32 start).mappedRange ((m 0x1000#32 0x01020304#32 start).effAddr 0 0xFFFC#16)
      4 = true ∧
    ((m 0x1000#32 0x01020304#32 start).effAddr 0 0xFFFC#16).toNat % 4 = 0 := by
  decide +kernel

theorem witness_StoreConditional : start.mem.wf = true ∧ (start.effAddr 0 0x1000#16).toNat % 4 = 0 ∧
    start.mappedRange (start.effAddr 0 0x1000#16) 4 = true := by
  decide +kernel

/-- Byte offsets 0 and 3 of a word that is exactly backed, for the unaligned loads and stores. -/
theorem witness_UnalignedMerge : (backed 0x1000 4 start).mem.wf = true ∧
    ((backed 0x1000 4 start).effAddr 0 0x1000#16).toNat % 4 = 0 ∧
    (backed 0x1000 4 start).mappedRange
      ((backed 0x1000 4 start).effAddr 0 0x1000#16 - BitVec.ofNat 32 0) 4 = true ∧
    ((backed 0x1000 4 start).effAddr 0 0x1003#16).toNat % 4 = 3 ∧
    (backed 0x1000 4 start).mappedRange
      ((backed 0x1000 4 start).effAddr 0 0x1003#16 - BitVec.ofNat 32 3) 4 = true := by
  decide +kernel

/-- The two words around 0x1001 are exactly backed; a destination that is not the base, and register 0
as both. -/
theorem witness_UnalignedPair : ((0 : Reg) = 0 ∨ (0 : Reg) ≠ 0) ∧ ((2 : Reg) = 0 ∨ (2 : Reg) ≠ 0) ∧
    (backed 0x1000 8 start).mem.wf = true ∧
    (backed 0x1000 8 start).effAddr 0 0x1004#16 = (backed 0x1000 8 start).effAddr 0 0x1001#16 + 3#32 ∧
    (backed 0x1000 8 start).mappedRange
      (alignDown ((backed 0x1000 8 start).effAddr 0 0x1001#16)) 4 = true ∧
    (backed 0x1000 8 start).mappedRange
      (alignDown ((backed 0x1000 8 start).effAddr 0 0x1001#16 + 3#32)) 4 = true := by
  decide +kernel

/-- Pairs 0 and 30 at an address that is a multiple of 4 and not of 8, offset and indexed. -/
theorem witness_Doubles : (0 : Slot) ≠ 31 ∧ (30 : Slot) ≠ 31 ∧
    (backed 0x1004 8 <| x 1 0x1004#32 start).mem.wf = true ∧
    ((backed 0x1004 8 <| x 1 0x1004#32 start).effAddr 1 0#16).toNat % 4 = 0 ∧
    (backed 0x1004 8 <| x 1 0x1004#32 start).mappedRange
      ((backed 0x1004 8 <| x 1 0x1004#32 start).effAddr 1 0#16) 8 = true ∧
    ((backed 0x1004 8 <| x 1 0x1004#32 start).effAddrIndexed 1 0).toNat % 4 = 0 ∧
    (backed 0x1004 8 <| x 1 0x1004#32 start).mappedRange
      ((backed 0x1004 8 <| x 1 0x1004#32 start).effAddrIndexed 1 0) 8 = true ∧
    wordAligned ((backed 0x1004 8 <| x 1 0x1004#32 start).effAddr 1 0#16) = true := by
  decide +kernel

/-- Both sides of each branch predicate, at -1, 0 and 1. -/
theorem witness_Branches : start.readGpr 1 = start.readGpr 2 ∧
    (x 1 1#32 start).readGpr 1 ≠ (x 1 1#32 start).readGpr 2 ∧
    (start.readGpr 1).toInt ≤ 0 ∧ ¬((x 1 1#32 start).readGpr 1).toInt ≤ 0 ∧
    0 < ((x 1 1#32 start).readGpr 1).toInt ∧ ¬0 < (start.readGpr 1).toInt ∧
    ((x 1 0xFFFFFFFF#32 start).readGpr 1).msb = true ∧ (start.readGpr 1).msb = false ∧
    start.cc = false ∧ (cc true start).cc = true := by
  decide +kernel

/-- 1 plus -1 is the zero case, 1 plus 2^-1074 the other; the divisor 2^-1074 is no zero. -/
theorem witness_FiniteArithmetic : (0 : Slot) ≠ 31 ∧ (30 : Slot) ≠ 31 ∧
    (d 2 0x3FF0000000000000#64 start).readPair 2 = 0x3FF0000000000000#64 ∧
    fIsFinite 0x3FF0000000000000#64 = true ∧ fIsFinite 0x7FEFFFFFFFFFFFFF#64 = true ∧
    fIsFinite 1#64 = true ∧
    fValue 0x3FF0000000000000#64 + fValue 0xBFF0000000000000#64 = 0 ∧
    fValue 0x3FF0000000000000#64 + fValue 1#64 ≠ 0 ∧ fMagBits 1#64 ≠ 0 := by
  decide +kernel

/-- A NaN operand; the invalid operations, with both signs. -/
theorem witness_NaNs : fIsNaN ((d 2 0x7FF0000000000001#64 start).readPair 2) = true ∧
    (d 4 (infinityOf true) <| d 2 (infinityOf false) start).readPair 2 = infinityOf false ∧
    (d 4 (infinityOf true) <| d 2 (infinityOf false) start).readPair 4 = infinityOf (!false) ∧
    (d 4 (infinityOf true) <| d 2 (infinityOf true) start).readPair 4 = infinityOf true ∧
    (d 4 (zeroOf true) <| d 2 (infinityOf false) start).readPair 4 = zeroOf true ∧
    (d 4 (infinityOf true) <| d 2 (zeroOf false) start).readPair 2 = zeroOf false ∧
    (d 4 (zeroOf true) <| d 2 (zeroOf false) start).readPair 4 = zeroOf true := by
  decide +kernel

/-- An infinity with a finite value on either side; a zero divisor of a nonzero finite value. -/
theorem witness_Infinities :
    (d 4 1#64 <| d 2 (infinityOf true) start).readPair 2 = infinityOf true ∧
    fIsFinite ((d 4 1#64 <| d 2 (infinityOf true) start).readPair 4) = true ∧
    (d 4 (infinityOf false) <| d 2 1#64 start).readPair 4 = infinityOf false ∧
    fIsFinite ((d 4 (infinityOf false) <| d 2 1#64 start).readPair 2) = true ∧
    fIsNaN ((d 4 1#64 <| d 2 (infinityOf true) start).readPair 4) = false ∧
    fMagBits ((d 4 1#64 <| d 2 (infinityOf true) start).readPair 2) ≠ 0 ∧
    fMagBits ((d 4 1#64 <| d 2 (infinityOf true) start).readPair 4) ≠ 0 ∧
    (d 4 (zeroOf true) <| d 2 1#64 start).readPair 4 = zeroOf true ∧
    fIsFinite ((d 4 (zeroOf true) <| d 2 1#64 start).readPair 2) = true := by
  decide +kernel

/-- 2147483647 and -2147483648 lie in the range, 2147483648, -2147483649 and a NaN do not. -/
theorem witness_Truncate :
    let inRange := fun v : Double => fIsFinite v = true ∧ -(2 ^ 31) ≤ (fValue v).tdiv unitsPerOne ∧
      (fValue v).tdiv unitsPerOne ≤ 2 ^ 31 - 1
    inRange 0x41DFFFFFFFFFFFFF#64 ∧ inRange 0xC1E0000000000000#64 ∧ inRange 0xC1E00000001FFFFF#64 ∧
      ¬inRange 0x41E0000000000000#64 ∧ ¬inRange 0xC1E0000000200000#64 ∧
      ¬inRange 0x7FF8000000000000#64 := by
  decide +kernel

theorem witness_Compares : fIsNaN 0x7FF0000000000001#64 = true ∧ fIsNaN (infinityOf true) = false ∧
    fIsFinite (infinityOf true) = false ∧ fIsFinite (zeroOf true) = true := by
  decide +kernel

/-- The three replies; the number in the code field and in `x[2]`. -/
theorem witness_Syscall : bridged.bridgeReply 9#32 = .fail ∧
    bridged.bridgeReply 4#32 = .ok 0x2A#32 [(0x1000#32, 0x11#8), (0x1000#32, 0x22#8)] ∧
    bridged.mem.wf = true ∧ bridged.bridgeReply 1#32 = .halt ∧
    (x 2 1#32 bridged).readGpr 2 = 1#32 := by
  decide +kernel

theorem witness_TrapIfEqual : start.readGpr 1 = start.readGpr 2 ∧
    (x 1 1#32 start).readGpr 1 ≠ (x 1 1#32 start).readGpr 2 := by
  decide +kernel

end Sys2Proof.Tests
end

section
/-! SUPPORT and proof for O18: a behaviour commutes with replacing `instr_counter` (spec/10_state.md
R34, "never influences a result"), and no behaviour writes the counter, the parameters or the launch
image. -/

namespace Sys2Proof.Machine

/-! ### The counter replaced -/

/-- The same state with another value of `instr_counter`. -/
def State.withCounter (n : Nat) (s : State) : State := { s with instrCounter := n }

/-- The same answer, its next state with another value of `instr_counter`. -/
def atCounter (n : Nat) : Result → Result
  | .next t => .next (t.withCounter n)
  | .fault r => .fault r
  | .refused r => .refused r

section
variable {n : Nat} {s : State}

/-! ### State updates -/

theorem writeGpr_withCounter (r : Reg) (v : Word) :
    (s.withCounter n).writeGpr r v = (s.writeGpr r v).withCounter n := by
  by_cases hr : r = 0
  · rw [hr]; rfl
  · rw [State.writeGpr_of_ne_zero _ hr, State.writeGpr_of_ne_zero _ hr]; rfl

theorem writeResult_withCounter (d : Slot) (x : FResult) :
    (s.withCounter n).writeResult d x = (s.writeResult d x).withCounter n := by
  cases x <;> rfl

theorem bridgeWrites_withCounter (ws : List (Word × Byte)) :
    (s.withCounter n).bridgeWrites ws = (s.bridgeWrites ws).withCounter n := by
  induction ws generalizing s with
  | nil => rfl
  | cons w ws ih =>
    have hm : (s.withCounter n).mapped w.1 = s.mapped w.1 := rfl
    cases h : s.mapped w.1 <;> simp only [State.bridgeWrites, hm, h]
    · exact ih
    · exact ih (s := s.writeByte w.1 w.2)

theorem serveReply_withCounter (reply : BridgeReply) :
    (s.withCounter n).serveReply reply = (s.serveReply reply).withCounter n := by
  cases reply with
  | fail => simp only [State.serveReply, writeGpr_withCounter]
  | ok v ws => simp only [State.serveReply, bridgeWrites_withCounter, writeGpr_withCounter]
  | halt => rfl

/-! ### Answers and checks: none looks at the counter -/

theorem next_withCounter {t t' : State} (h : t' = t.withCounter n) :
    (.next t' : Result) = atCounter n (.next t) :=
  congrArg Host.Outcome.next h

theorem ite_atCounter {c : Prop} [Decidable c] {p p' q q' : Result} (hp : p' = atCounter n p)
    (hq : q' = atCounter n q) : (if c then p' else q') = atCounter n (if c then p else q) := by
  rw [hp, hq, apply_ite (atCounter n)]

theorem access_withCounter {a : Word} {k : Nat} {go go' : Result} (h : go' = atCounter n go) :
    (s.withCounter n).access a k go' = atCounter n (s.access a k go) :=
  ite_atCounter h rfl

theorem wordAccess_withCounter {a : Word} {k : Nat} {go go' : Result} (h : go' = atCounter n go) :
    (s.withCounter n).wordAccess a k go' = atCounter n (s.wordAccess a k go) :=
  ite_atCounter (access_withCounter h) rfl

theorem withPair_withCounter {d : Slot} {go go' : Result} (h : go' = atCounter n go) :
    (s.withCounter n).withPair d go' = atCounter n (s.withPair d go) :=
  ite_atCounter h rfl

theorem withPairs_withCounter {d e : Slot} {go go' : Result} (h : go' = atCounter n go) :
    (s.withCounter n).withPairs d e go' = atCounter n (s.withPairs d e go) :=
  withPair_withCounter (withPair_withCounter h)

/-! ### Shared shapes of the meanings -/

theorem setReg_withCounter {dst : Reg} {v : Word} :
    setReg dst v (s.withCounter n) = atCounter n (setReg dst v s) :=
  next_withCounter (writeGpr_withCounter dst v)

theorem addTrapping_withCounter {dst : Reg} {a b : Word} :
    addTrapping dst a b (s.withCounter n) = atCounter n (addTrapping dst a b s) :=
  ite_atCounter rfl setReg_withCounter

theorem moveIf_withCounter {c : Bool} {dst : Reg} {v : Word} :
    moveIf c dst v (s.withCounter n) = atCounter n (moveIf c dst v s) :=
  ite_atCounter setReg_withCounter rfl

theorem divideByZero_withCounter :
    divideByZero (s.withCounter n) = atCounter n (divideByZero s) := by
  have hp : (s.withCounter n).params.divZero = s.params.divZero := rfl
  cases h : s.params.divZero <;> simp only [divideByZero, hp, h] <;> rfl

theorem branchIf_withCounter {c : Bool} {o : BitVec 16} :
    branchIf c o (s.withCounter n) = atCounter n (branchIf c o s) :=
  ite_atCounter rfl rfl

theorem branchLinkIf_withCounter {c : Bool} {o : BitVec 16} :
    branchLinkIf c o (s.withCounter n) = atCounter n (branchLinkIf c o s) := by
  have hl : (s.withCounter n).linkValue = s.linkValue := rfl
  rw [branchLinkIf, hl, writeGpr_withCounter]
  exact branchIf_withCounter

theorem arith_withCounter {op : Double → Double → FResult} {fd fs ft : Slot} :
    arith op fd fs ft (s.withCounter n) = atCounter n (arith op fd fs ft s) :=
  withPair_withCounter (withPair_withCounter (withPair_withCounter
    (next_withCounter (writeResult_withCounter _ _))))

/-! ### All instructions -/

/-- A behaviour answers the same whatever the counter, but for the counter of its next state
(10_state.md R34). -/
theorem exec_withCounter (i : Instr) : exec i (s.withCounter n) = atCounter n (exec i s) := by
  cases i with
  | addu | sub | subu | addiu | slt | sltu | slti | sltiu | and | or | xor | nor | andi | ori | xori
  | lui | sll | srl | sra | sllv | srlv | srav | mfhi | mflo | seb | seh | mfc1 =>
    exact setReg_withCounter
  | add | addi => exact addTrapping_withCounter
  | movz | movn | movf | movt => exact moveIf_withCounter
  | mult | multu | mthi | mtlo | mtc1 | j | jr | brk => rfl
  | div | divu => exact ite_atCounter divideByZero_withCounter rfl
  | ext rt =>
    exact ite_atCounter setReg_withCounter
      (next_withCounter (congrArg State.draw (writeGpr_withCounter rt _)))
  | lb | lbu | lh | lhu | lwl | lwr => exact access_withCounter setReg_withCounter
  | lw | ll => exact wordAccess_withCounter setReg_withCounter
  | sb | sh | swl | swr => exact access_withCounter rfl
  | sw => exact wordAccess_withCounter rfl
  | sc rt => exact wordAccess_withCounter (setReg_withCounter (s := s.writeWord _ _))
  | ldc1 | sdc1 | ldxc1 | sdxc1 => exact withPair_withCounter (wordAccess_withCounter rfl)
  | jal | jalr => exact next_withCounter (congrArg (State.redirect · _) (writeGpr_withCounter _ _))
  | beq | bne | blez | bgtz | bltz | bgez | bc1f | bc1t | bc1fl | bc1tl =>
    exact branchIf_withCounter
  | bltzal | bgezal => exact branchLinkIf_withCounter
  | addD | subD | mulD | divD => exact arith_withCounter
  | negD | movD | cEqD | cOltD | cUnD => exact withPairs_withCounter rfl
  | cvtDW | mthc1 => exact withPair_withCounter rfl
  | mfhc1 => exact withPair_withCounter setReg_withCounter
  | truncWD fd fs =>
    refine withPair_withCounter ?_
    have hp : (s.withCounter n).readPair fs = s.readPair fs := rfl
    cases h : fTruncInt32 (s.readPair fs) <;> simp only [hp, h] <;> rfl
  | syscall => exact next_withCounter (congrArg State.draw (serveReply_withCounter _))
  | teq => exact ite_atCounter rfl rfl

end

/-! ### Launch data -/

section
variable {s t : State}

/-- No behaviour writes the parameters, the launch image or the counter. -/
theorem exec_keeps_launchData {i : Instr} (h : exec i s = .next t) :
    t.params = s.params ∧ t.image = s.image ∧ t.instrCounter = s.instrCounter := by
  cases exec_forms h with
  | stored ws | served _ ws => rw [State.storeBytes_eq]; simp
  | _ => simp

/-- A step keeps the parameters and the launch image, and counts a dispatch, faulting or not
(40_scheduler.md R116, R118). -/
theorem step_keeps_launchData (h : step s = .next t) :
    t.params = s.params ∧ t.image = s.image ∧
      t.instrCounter = s.instrCounter + (if wordAligned s.pc = true then 1 else 0) := by
  obtain ⟨_, ⟨ha, rfl⟩ | ⟨ha, w, _, ⟨i, _, he⟩ | ⟨_, he⟩⟩⟩ := step_next_cases h
  · simp [ha]
  · simpa [ha] using exec_keeps_launchData he
  · rw [raise_next he]
    simp [ha]

end

/-- Settles O18: the launch data by the forms of a behaviour, the counter's silence by
`exec_withCounter`. -/
theorem launchDataNeverChangeAndTheCounterOnlyCounts :
    Obligations.LaunchDataNeverChangeAndTheCounterOnlyCounts := by
  refine ⟨fun s t => step_keeps_launchData, fun i s n => ⟨fun t h => ?_, fun r h => ?_⟩⟩
  · exact (exec_withCounter i).trans (congrArg (atCounter n) h)
  · exact (exec_withCounter i).trans (congrArg (atCounter n) h)

end Sys2Proof.Machine
end

section
/-! SUPPORT and proof for O14: each update of the state keeps the invariant (spec/10_state.md R21,
20_memory.md R52, R64, 40_scheduler.md R117), so every form of a behaviour keeps it, and so does a
step. -/

namespace Sys2Proof.Machine

/-! ### Byte stores leave the rest of the state alone -/

section
variable (s : State) (ws : List (Word × Byte))

@[simp] theorem State.storeBytes_gpr : (s.storeBytes ws).gpr = s.gpr := by
  rw [storeBytes_eq]
@[simp] theorem State.storeBytes_fpr : (s.storeBytes ws).fpr = s.fpr := by
  rw [storeBytes_eq]
@[simp] theorem State.storeBytes_hi : (s.storeBytes ws).hi = s.hi := by
  rw [storeBytes_eq]
@[simp] theorem State.storeBytes_lo : (s.storeBytes ws).lo = s.lo := by
  rw [storeBytes_eq]
@[simp] theorem State.storeBytes_cc : (s.storeBytes ws).cc = s.cc := by
  rw [storeBytes_eq]

end

namespace State.Inv

variable {s t : State}

/-! ### Updates that the invariant survives -/

/-- A register write does not reach the cell of register 0 (10_state.md R21). -/
theorem writeGpr (h : s.Inv) (rd : Reg) (v : Word) : (s.writeGpr rd v).Inv := by
  by_cases hrd : rd = 0
  · rwa [hrd, writeGpr_zero]
  · have hne : (rd : Nat) ≠ 0 := fun e => hrd (Fin.ext e)
    rw [writeGpr_of_ne_zero s hrd]
    exact { h with zeroCell := (Vector.getElem_set_ne rd.isLt (by decide) hne).trans h.zeroCell }

/-- A byte store: the address joins the written ones, and every other byte is kept. -/
theorem writeByte (h : s.Inv) (a : Word) (b : Byte) : (s.writeByte a b).Inv :=
  { h with
    memWf := writeByte_mem_wf h.memWf a b
    writtenWf := writeByte_written_wf h.writtenWf a b
    unwritten := fun c hc => by
      obtain ⟨hne, hs⟩ := not_or.1 (mt (mem_writeByte_written s a b c).2 hc)
      exact (Memory.read_write_other b hne).trans (h.unwritten c hs) }

theorem storeBytes (h : s.Inv) (ws : List (Word × Byte)) : (s.storeBytes ws).Inv := by
  induction ws generalizing s with
  | nil => exact h
  | cons w ws ih => exact ih (h.writeByte w.1 w.2)

/-- The generic step clears the outcome. -/
theorem genericStep (h : s.Inv) : s.genericStep.Inv :=
  { h with faultHalts := fun e => absurd rfl e }

/-- A fault comes with the halt (40_scheduler.md R117). -/
theorem raised (h : s.Inv) (r : FaultReason) :
    State.Inv { s with halted := true, outcome := .fault r } :=
  { h with faultHalts := fun _ => rfl }

/-! ### Behaviours and steps -/

/-- Each form of a behaviour is one of the updates above, or leaves alone what the invariant speaks
of. -/
theorem of_exec {i : Instr} (h : s.Inv) (he : exec i s = .next t) : t.Inv := by
  cases exec_forms he with
  | raised r => exact h.raised r
  | register rd v => exact { h.writeGpr rd v with }
  | accumulators | slots | flag | transfer => exact { h with }
  | stored ws rd v => exact (h.storeBytes ws).writeGpr rd v
  | linked rd => exact { h.writeGpr rd s.linkValue with }
  | served _ ws v e => exact { ((h.storeBytes ws).writeGpr 2 v).writeGpr 7 e with }
  | ended => exact { h with faultHalts := fun _ => rfl }
  | unchanged => exact h

theorem of_step (h : s.Inv) (hs : step s = .next t) : t.Inv := by
  obtain ⟨_, ⟨_, rfl⟩ | ⟨_, _, _, ⟨_, _, he⟩ | ⟨_, he⟩⟩⟩ := step_next_cases hs
  · exact { h with faultHalts := fun _ => rfl }
  · exact h.genericStep.of_exec he
  · rw [raise_next he]
    exact h.genericStep.raised .reservedInstruction

end State.Inv

/-- Settles O14: the generic step, a raised fault and every form of a behaviour keep it. -/
theorem invariantPreservedByEveryStep : Obligations.InvariantPreservedByEveryStep :=
  fun _ _ => State.Inv.of_step

end Sys2Proof.Machine
end

section
/-! Proof for O20: the forms of a behaviour say which parts it writes (spec/10_state.md, table of
section 1). -/

namespace Sys2Proof.Machine

/-- Settles O20: each form writes the parts its conditions on the instruction allow. -/
theorem eachPartOfTheStateHasOnlyItsWriters : Obligations.EachPartOfTheStateHasOnlyItsWriters := by
  intro i s t h
  cases exec_forms h with
  | raised | register | transfer | linked | ended | unchanged => simp
  | accumulators _ _ _ _ hh hl => exact ⟨fun _ => rfl, hh, hl, by simp⟩
  | slots _ _ _ hw | flag _ _ hw | stored _ _ _ _ hw => simp [hw]
  | served _ _ _ _ hi => simp [hi, Instr.mayStore]

end Sys2Proof.Machine
end

section
/-! SUPPORT and proof for O23: the checks for pair 31 (spec/44_fp_coprocessor.md R251) and for
alignment (20_memory.md R58) come before everything else. -/

namespace Sys2Proof.Machine

section
variable {s : State}

/-! ### The checks that fail -/

theorem withPair_of_mem {n : Slot} (h : 31 ∈ [n]) (go : Result) :
    s.withPair n go = raise .reservedInstruction s := by
  obtain ⟨hn, _⟩ | ⟨_, h'⟩ := withPair_cases s n go
  · exact absurd (List.mem_singleton.1 h).symm hn
  · exact h'

theorem withPairs_of_mem {m n : Slot} (h : 31 ∈ [m, n]) (go : Result) :
    s.withPairs m n go = raise .reservedInstruction s := by
  obtain ⟨hm, hn, _⟩ | ⟨_, h'⟩ := withPairs_cases s m n go
  · simp [hm.symm, hn.symm] at h
  · exact h'

theorem arith_of_mem {op : Double → Double → FResult} {fd fs ft : Slot} (h : 31 ∈ [fs, ft, fd]) :
    arith op fd fs ft s = raise .reservedInstruction s := by
  obtain ⟨hs, ht, hd, _⟩ | ⟨_, h'⟩ := arith_cases op fd fs ft s
  · simp [hs.symm, ht.symm, hd.symm] at h
  · exact h'

theorem wordAccess_of_misaligned {a : Word} (h : a.toNat % 4 ≠ 0) (n : Nat) (go : Result) :
    s.wordAccess a n go = raise .addressError s :=
  if_neg (mt (wordAligned_iff a).1 h)

/-- A double access whose pair exists checks the alignment next (42_load_store.md R191). -/
theorem pairAccess_of_misaligned {n : Slot} {a : Word} (hn : n ≠ 31) (h : a.toNat % 4 ≠ 0)
    (go : Result) : s.withPair n (s.wordAccess a 8 go) = raise .addressError s :=
  (withPair_of_ne hn _).trans (wordAccess_of_misaligned h 8 go)

/-! ### The instructions -/

/-- Every form that uses pair 31 as a double raises `ReservedInstruction`
(44_fp_coprocessor.md R251). -/
theorem faults_of_pair31 {i : Instr} (h : 31 ∈ i.pairs) : Faults i s .reservedInstruction := by
  cases i with
  | addD | subD | mulD | divD => exact arith_of_mem h
  | negD | movD | cEqD | cOltD | cUnD => exact withPairs_of_mem h _
  | cvtDW | truncWD | mfhc1 | mthc1 | ldc1 | sdc1 | ldxc1 | sdxc1 => exact withPair_of_mem h _
  | _ => exact absurd h List.not_mem_nil

end

/-- Settles O23: the pair check by the forms that make it, the alignment check by `wordAccess`. -/
theorem pairThirtyOneAndMisalignedAccessFault :
    Obligations.PairThirtyOneAndMisalignedAccessFault := by
  refine ⟨fun _ _ => faults_of_pair31, fun s _ _ _ _ _ => ⟨fun h => ?_, fun h hn => ?_⟩⟩
  · have hw := fun go => wordAccess_of_misaligned (s := s) h 4 go
    exact ⟨hw _, hw _, hw _, hw _, fun hn =>
      ⟨pairAccess_of_misaligned hn h _, pairAccess_of_misaligned hn h _⟩⟩
  · exact ⟨pairAccess_of_misaligned hn h _, pairAccess_of_misaligned hn h _⟩

end Sys2Proof.Machine
end

section
/-! SUPPORT and proof for O9 and O10: the answer of the fetch port over mapped bytes, one lemma per
case of spec/20_memory.md R67, and the fetch of a word just stored. -/

namespace Sys2Proof.Machine

/-! ### The fetch port -/

/-- A word counts as stored to when one of its four bytes does. -/
theorem wordWritten_iff (s : State) (a : Word) :
    s.wordWritten a = true ↔ ∃ b ∈ bytesFrom a 4, b.toNat ∈ s.written := by
  simp only [State.wordWritten, bytesFrom, List.any_eq_true, List.contains_iff_mem, List.mem_map,
    exists_exists_and_eq_and]

section
variable {s : State} {a : Word} (hm : s.mappedRange a 4 = true)
include hm

theorem fetchWord_of_coherent (hc : s.params.ifetchCoherent = true) :
    s.fetchWord a = .next (s.readWord a) := by
  simpa [hm, hc] using fetchWord_cases s a

theorem fetchWord_of_written (hc : s.params.ifetchCoherent = false)
    (hw : ∃ b ∈ bytesFrom a 4, b.toNat ∈ s.written) :
    s.fetchWord a = .refused .fetchOfStoredCode := by
  simpa [hm, hc, (wordWritten_iff s a).2 hw] using fetchWord_cases s a

theorem fetchWord_of_unwritten (hc : s.params.ifetchCoherent = false)
    (hw : ∀ b ∈ bytesFrom a 4, b.toNat ∉ s.written) :
    s.fetchWord a = .next (s.imageWord a) := by
  have hw' : ¬ s.wordWritten a = true := fun h =>
    let ⟨b, hb, hbw⟩ := (wordWritten_iff s a).1 h
    hw b hb hbw
  simpa [hm, hc, hw'] using fetchWord_cases s a

end

/-! ### The store -/

/-- A word store makes every byte of its word one that was stored to. -/
theorem mem_written_writeWord (s : State) {a b : Word} (v : Word) (hb : b ∈ bytesFrom a 4) :
    b.toNat ∈ (s.writeWord a v).written :=
  ((keeps_writeWord s a v).written b.toNat).2 (.inr ⟨b, hb, rfl⟩)

theorem exec_sw_of_aligned {s : State} {base : Reg} {offset : BitVec 16}
    (ha : wordAligned (s.effAddr base offset) = true)
    (hm : s.mappedRange (s.effAddr base offset) 4 = true) (rt : Reg) :
    exec (.sw rt base offset) s = .next (s.writeWord (s.effAddr base offset) (s.readGpr rt)) :=
  wordAccess_of_aligned ha hm _

/-! ### The obligations -/

/-- Settles O9, by the three cases of the fetch port over mapped bytes. -/
theorem fetchReadsImageOrMemoryOrIsRefused : Obligations.FetchReadsImageOrMemoryOrIsRefused :=
  fun _ _ hm => ⟨fetchWord_of_coherent hm, fetchWord_of_unwritten hm, fetchWord_of_written hm⟩

/-- Settles O10: the store leaves MEM_MAP and the parameters alone, a coherent fetch reads the word
back, and otherwise the word's own first byte is a stored one. -/
theorem storedWordIsFetchedOrRefused : Obligations.StoredWordIsFetchedOrRefused := by
  intro rt base offset s hwf ha hm
  have hm' : (s.writeWord (s.effAddr base offset) (s.readGpr rt)).mappedRange
      (s.effAddr base offset) 4 = true := (mappedRange_congr rfl _ _).trans hm
  refine ⟨_, exec_sw_of_aligned ha hm rt, fun hc => ?_, fun hc => ?_⟩
  · rw [fetchWord_of_coherent hm' hc, readWord_writeWord hwf]
  · have hb : s.effAddr base offset ∈ bytesFrom (s.effAddr base offset) 4 :=
      List.mem_map.2 ⟨0, by decide, BitVec.add_zero _⟩
    exact fetchWord_of_written hm' hc ⟨_, hb, mem_written_writeWord s _ hb⟩

end Sys2Proof.Machine
end

section
/-! SUPPORT and proof for O1 and O4: the decoder over the table (spec/30_encoding.md R95). Rows of
different places ask different values of a bit that both masks look at, so at most one matches
(R90). -/

namespace Sys2Proof

/-! ### The decoder's answers -/

theorem decodeWord_eq_map (w : Word) :
    decodeWord w = (opcodeTable.find? fun r => r.hits w).map fun r => r.build w := by
  unfold decodeWord
  cases opcodeTable.find? fun r => r.hits w <;> rfl

theorem exists_row_of_decodeWord {w : Word} {i : Instr} (h : decodeWord w = some i) :
    ∃ r ∈ opcodeTable, r.hits w = true ∧ r.build w = i := by
  rw [decodeWord_eq_map] at h
  obtain ⟨r, hr, hi⟩ := Option.map_eq_some_iff.1 h
  have hw := List.find?_some hr
  exact ⟨r, List.mem_of_find?_eq_some hr, hw, hi⟩

theorem decodeWord_eq_none_iff {w : Word} :
    decodeWord w = none ↔ ∀ r ∈ opcodeTable, r.hits w = false := by
  simp only [decodeWord_eq_map, Option.map_eq_none_iff, List.find?_eq_none, Bool.not_eq_true]

/-! ### The rows are disjoint -/

/-- Two rows that match one word ask the same of the bits that both masks look at. -/
theorem Row.agree_of_hits {r q : Row} {w : Word} (hr : r.hits w = true) (hq : q.hits w = true) :
    r.pattern &&& q.mask = q.pattern &&& r.mask := by
  have hr : w &&& r.mask = r.pattern := beq_iff_eq.1 hr
  have hq : w &&& q.mask = q.pattern := beq_iff_eq.1 hq
  rw [← hr, ← hq, BitVec.and_assoc, BitVec.and_comm r.mask, BitVec.and_assoc]

theorem opcodeTable_pairwise_disagree :
    opcodeTable.Pairwise fun r q => r.pattern &&& q.mask ≠ q.pattern &&& r.mask := by
  decide +kernel

/-- A later place does not match what an earlier one matches. -/
theorem not_lt_of_hits {w : Word} {j k : Nat} {r q : Row} (hj : opcodeTable[j]? = some r)
    (hk : opcodeTable[k]? = some q) (hr : r.hits w = true) (hq : q.hits w = true) : ¬ j < k := by
  obtain ⟨hj', rfl⟩ := List.getElem?_eq_some_iff.1 hj
  obtain ⟨hk', rfl⟩ := List.getElem?_eq_some_iff.1 hk
  exact fun hlt => List.pairwise_iff_getElem.1 opcodeTable_pairwise_disagree j k hj' hk' hlt
    (Row.agree_of_hits hr hq)

theorem place_unique_of_hits {w : Word} {j k : Nat} {r q : Row} (hj : opcodeTable[j]? = some r)
    (hk : opcodeTable[k]? = some q) (hr : r.hits w = true) (hq : q.hits w = true) : j = k :=
  le_antisymm (not_lt.1 (not_lt_of_hits hk hj hq hr)) (not_lt.1 (not_lt_of_hits hj hk hr hq))

theorem row_unique_of_hits {w : Word} {r q : Row} (hr : r ∈ opcodeTable) (hq : q ∈ opcodeTable)
    (hrw : r.hits w = true) (hqw : q.hits w = true) : r = q := by
  obtain ⟨j, hj⟩ := List.mem_iff_getElem?.1 hr
  obtain ⟨k, hk⟩ := List.mem_iff_getElem?.1 hq
  rw [place_unique_of_hits hj hk hrw hqw] at hj
  exact Option.some.inj (hj.symm.trans hk)

theorem decodeWord_of_hits {w : Word} {r : Row} (hr : r ∈ opcodeTable) (hw : r.hits w = true) :
    decodeWord w = some (r.build w) := by
  cases hd : decodeWord w with
  | none => exact absurd hw (Bool.eq_false_iff.1 (decodeWord_eq_none_iff.1 hd r hr))
  | some i =>
    obtain ⟨q, hq, hqw, rfl⟩ := exists_row_of_decodeWord hd
    rw [row_unique_of_hits hr hq hw hqw]

/-! ### The obligations -/

/-- Settles O4: the rows are disjoint, so the first row that matches is the only one. -/
theorem everyMatchingRowIsTheDecodedOne : Obligations.EveryMatchingRowIsTheDecodedOne :=
  fun _ => ⟨fun _ => decodeWord_of_hits, decodeWord_eq_none_iff.2,
    fun _ _ _ _ => place_unique_of_hits⟩

/-- Settles O1, by running the decoder on each word. -/
theorem specWordsDecodeAsWritten : Obligations.SpecWordsDecodeAsWritten := by
  unfold Obligations.SpecWordsDecodeAsWritten
  decide +kernel

end Sys2Proof
end

section
/-! SUPPORT and proof for O2: every constructor encodes a word of its own row (Laws/PerInstr.lean),
the row that matches is the decoded one, and the stored bytes of a word give the word back
(spec/30_encoding.md R80). -/

namespace Sys2Proof

namespace Laws.EncodesOwnRow

/-- The per-instruction lemmas together. -/
theorem all : ∀ i : Instr, Statement i
  | .add _ _ _ => add _ _ _ | .addu _ _ _ => addu _ _ _ | .sub _ _ _ => sub _ _ _
  | .subu _ _ _ => subu _ _ _ | .addi _ _ _ => addi _ _ _ | .addiu _ _ _ => addiu _ _ _
  | .slt _ _ _ => slt _ _ _ | .sltu _ _ _ => sltu _ _ _ | .slti _ _ _ => slti _ _ _
  | .sltiu _ _ _ => sltiu _ _ _ | .and _ _ _ => and _ _ _ | .or _ _ _ => or _ _ _
  | .xor _ _ _ => xor _ _ _ | .nor _ _ _ => nor _ _ _ | .andi _ _ _ => andi _ _ _
  | .ori _ _ _ => ori _ _ _ | .xori _ _ _ => xori _ _ _ | .lui _ _ => lui _ _
  | .sll _ _ _ => sll _ _ _ | .srl _ _ _ => srl _ _ _ | .sra _ _ _ => sra _ _ _
  | .sllv _ _ _ => sllv _ _ _ | .srlv _ _ _ => srlv _ _ _ | .srav _ _ _ => srav _ _ _
  | .mult _ _ => mult _ _ | .multu _ _ => multu _ _ | .div _ _ => div _ _ | .divu _ _ => divu _ _
  | .mfhi _ => mfhi _ | .mthi _ => mthi _ | .mflo _ => mflo _ | .mtlo _ => mtlo _
  | .seb _ _ => seb _ _ | .seh _ _ => seh _ _ | .ext _ _ _ _ => ext _ _ _ _
  | .movz _ _ _ => movz _ _ _ | .movn _ _ _ => movn _ _ _ | .movf _ _ => movf _ _
  | .movt _ _ => movt _ _ | .lb _ _ _ => lb _ _ _ | .lbu _ _ _ => lbu _ _ _ | .lh _ _ _ => lh _ _ _
  | .lhu _ _ _ => lhu _ _ _ | .lw _ _ _ => lw _ _ _ | .sb _ _ _ => sb _ _ _ | .sh _ _ _ => sh _ _ _
  | .sw _ _ _ => sw _ _ _ | .lwl _ _ _ => lwl _ _ _ | .lwr _ _ _ => lwr _ _ _
  | .swl _ _ _ => swl _ _ _ | .swr _ _ _ => swr _ _ _ | .ll _ _ _ => ll _ _ _
  | .sc _ _ _ => sc _ _ _ | .ldc1 _ _ _ => ldc1 _ _ _ | .sdc1 _ _ _ => sdc1 _ _ _
  | .ldxc1 _ _ _ => ldxc1 _ _ _ | .sdxc1 _ _ _ => sdxc1 _ _ _ | .j _ => j _ | .jal _ => jal _
  | .jr _ => jr _ | .jalr _ _ => jalr _ _ | .beq _ _ _ => beq _ _ _ | .bne _ _ _ => bne _ _ _
  | .blez _ _ => blez _ _ | .bgtz _ _ => bgtz _ _ | .bltz _ _ => bltz _ _ | .bgez _ _ => bgez _ _
  | .bltzal _ _ => bltzal _ _ | .bgezal _ _ => bgezal _ _ | .bc1f _ => bc1f _ | .bc1t _ => bc1t _
  | .bc1fl _ => bc1fl _ | .bc1tl _ => bc1tl _ | .addD _ _ _ => addD _ _ _
  | .subD _ _ _ => subD _ _ _ | .mulD _ _ _ => mulD _ _ _ | .divD _ _ _ => divD _ _ _
  | .negD _ _ => negD _ _ | .movD _ _ => movD _ _ | .cvtDW _ _ => cvtDW _ _
  | .truncWD _ _ => truncWD _ _ | .cEqD _ _ => cEqD _ _ | .cOltD _ _ => cOltD _ _
  | .cUnD _ _ => cUnD _ _ | .mfc1 _ _ => mfc1 _ _ | .mtc1 _ _ => mtc1 _ _ | .mfhc1 _ _ => mfhc1 _ _
  | .mthc1 _ _ => mthc1 _ _ | .syscall _ => syscall _ | .teq _ _ _ => teq _ _ _ | .brk _ => brk _

end Laws.EncodesOwnRow

theorem decodeWord_encode {i : Instr} (h : i.wellFormed = true) :
    decodeWord (encode i) = some i := by
  obtain ⟨r, hr, hw, hb⟩ := Laws.EncodesOwnRow.all i h
  rw [decodeWord_of_hits hr hw, hb]

theorem wordOfBytes_extract (w : Word) :
    wordOfBytes (w.extractLsb' 24 8) (w.extractLsb' 16 8) (w.extractLsb' 8 8)
      (w.extractLsb' 0 8) = w := by
  unfold wordOfBytes
  rw [BitVec.extractLsb'_append_extractLsb'_eq_extractLsb' (start₁ := 16) (len₁ := 8) rfl,
    BitVec.extractLsb'_append_extractLsb'_eq_extractLsb' (start₁ := 8) (len₁ := 8) rfl,
    BitVec.extractLsb'_append_extractLsb'_eq_extractLsb' (start₁ := 0) (len₁ := 8) rfl]
  exact BitVec.extractLsb'_eq_self

theorem decode_bytesOfWord_append {w : Word} {i : Instr} (h : decodeWord w = some i)
    (rest : List Byte) : decode (bytesOfWord w ++ rest) = .ok (i, rest) := by
  simp only [bytesOfWord, List.cons_append, List.nil_append, decode, wordOfBytes_extract, h]

/-- Settles O2: the word by its row, the bytes by the word they make. -/
theorem decodeOfEncodeIsTheInstruction : Obligations.DecodeOfEncodeIsTheInstruction :=
  fun _ h => ⟨decodeWord_encode h, decode_bytesOfWord_append (decodeWord_encode h)⟩

end Sys2Proof
end

section
/-! SUPPORT and proof for O3: a word is its six fields, a row that matches fixes the fields its mask
covers, and the others are the operands that the row reads, so encoding them gives the word back
(spec/30_encoding.md R90, R98). -/

namespace Sys2Proof

/-! ### A word is the layout of its fields -/

theorem layoutR_extract (w : Word) :
    layoutR (w.extractLsb' 26 6) (w.extractLsb' 21 5) (w.extractLsb' 16 5) (w.extractLsb' 11 5)
      (w.extractLsb' 6 5) (w.extractLsb' 0 6) = w := by
  unfold layoutR
  rw [BitVec.extractLsb'_append_extractLsb'_eq_extractLsb' (start₁ := 21) (len₁ := 5) rfl,
    BitVec.extractLsb'_append_extractLsb'_eq_extractLsb' (start₁ := 16) (len₁ := 5) rfl,
    BitVec.extractLsb'_append_extractLsb'_eq_extractLsb' (start₁ := 11) (len₁ := 5) rfl,
    BitVec.extractLsb'_append_extractLsb'_eq_extractLsb' (start₁ := 6) (len₁ := 5) rfl,
    BitVec.extractLsb'_append_extractLsb'_eq_extractLsb' (start₁ := 0) (len₁ := 6) rfl]
  exact BitVec.extractLsb'_eq_self

theorem layoutI_extract (w : Word) :
    layoutI (w.extractLsb' 26 6) (w.extractLsb' 21 5) (w.extractLsb' 16 5) (immAt w) = w := by
  unfold layoutI immAt
  rw [BitVec.extractLsb'_append_extractLsb'_eq_extractLsb' (start₁ := 21) (len₁ := 5) rfl,
    BitVec.extractLsb'_append_extractLsb'_eq_extractLsb' (start₁ := 16) (len₁ := 5) rfl,
    BitVec.extractLsb'_append_extractLsb'_eq_extractLsb' (start₁ := 0) (len₁ := 16) rfl]
  exact BitVec.extractLsb'_eq_self

theorem layoutJ_extract (w : Word) : layoutJ (w.extractLsb' 26 6) (indexAt w) = w :=
  (BitVec.extractLsb'_append_extractLsb'_eq_extractLsb' rfl).trans BitVec.extractLsb'_eq_self

theorem layoutC_extract (w : Word) :
    layoutC (w.extractLsb' 26 6) (trapCodeAt w) (w.extractLsb' 0 6) = w := by
  unfold layoutC trapCodeAt
  rw [BitVec.extractLsb'_append_extractLsb'_eq_extractLsb' (start₁ := 6) (len₁ := 20) rfl,
    BitVec.extractLsb'_append_extractLsb'_eq_extractLsb' (start₁ := 0) (len₁ := 6) rfl]
  exact BitVec.extractLsb'_eq_self

theorem layoutT_extract (w : Word) :
    layoutT (w.extractLsb' 26 6) (w.extractLsb' 21 5) (w.extractLsb' 16 5) (teqCodeAt w)
      (w.extractLsb' 0 6) = w := by
  unfold layoutT teqCodeAt
  rw [BitVec.extractLsb'_append_extractLsb'_eq_extractLsb' (start₁ := 21) (len₁ := 5) rfl,
    BitVec.extractLsb'_append_extractLsb'_eq_extractLsb' (start₁ := 16) (len₁ := 5) rfl,
    BitVec.extractLsb'_append_extractLsb'_eq_extractLsb' (start₁ := 6) (len₁ := 10) rfl,
    BitVec.extractLsb'_append_extractLsb'_eq_extractLsb' (start₁ := 0) (len₁ := 6) rfl]
  exact BitVec.extractLsb'_eq_self

section
variable (op f : BitVec 6) (a b c d : BitVec 5)

/-! ### The fields of the six-field layout -/

theorem layoutR_op : (layoutR op a b c d f).extractLsb' 26 6 = op := by
  unfold layoutR
  exact (extract_append_high _ f 20 6).trans ((extract_append_high _ d 15 6).trans
    ((extract_append_high _ c 10 6).trans ((extract_append_high _ b 5 6).trans
      ((extract_append_high _ a 0 6).trans BitVec.extractLsb'_eq_self))))

theorem layoutR_funct : (layoutR op a b c d f).extractLsb' 0 6 = f := extract_append_low _ f

theorem layoutR_eq_iff (w : Word) : layoutR op a b c d f = w ↔
    op = w.extractLsb' 26 6 ∧ a = w.extractLsb' 21 5 ∧ b = w.extractLsb' 16 5 ∧
      c = w.extractLsb' 11 5 ∧ d = w.extractLsb' 6 5 ∧ f = w.extractLsb' 0 6 := by
  constructor
  · rintro rfl
    obtain ⟨hd, hc, hb, ha⟩ := layoutR_fields op f a b c d
    exact ⟨(layoutR_op ..).symm, ha.symm, hb.symm, hc.symm, hd.symm, (layoutR_funct ..).symm⟩
  · rintro ⟨rfl, rfl, rfl, rfl, rfl, rfl⟩
    exact layoutR_extract w

/-- A row matches field by field (30_encoding.md R90). -/
theorem Row.hits_layoutR (r : Row) : r.hits (layoutR op a b c d f) = true ↔
    op &&& r.mask.extractLsb' 26 6 = r.pattern.extractLsb' 26 6 ∧
      a &&& r.mask.extractLsb' 21 5 = r.pattern.extractLsb' 21 5 ∧
      b &&& r.mask.extractLsb' 16 5 = r.pattern.extractLsb' 16 5 ∧
      c &&& r.mask.extractLsb' 11 5 = r.pattern.extractLsb' 11 5 ∧
      d &&& r.mask.extractLsb' 6 5 = r.pattern.extractLsb' 6 5 ∧
      f &&& r.mask.extractLsb' 0 6 = r.pattern.extractLsb' 0 6 := by
  rw [Row.hits, beq_iff_eq, ← layoutR_eq_iff, ← layoutR_and, layoutR_extract]

/-! ### The other layouts of fields read off it -/

@[simp] theorem layoutI_immAt_layoutR :
    layoutI op a b (immAt (layoutR op a b c d f)) = layoutR op a b c d f := by
  obtain ⟨-, -, hb, ha⟩ := layoutR_fields op f a b c d
  simpa only [layoutR_op, ha, hb] using layoutI_extract (layoutR op a b c d f)

@[simp] theorem layoutJ_indexAt_layoutR :
    layoutJ op (indexAt (layoutR op a b c d f)) = layoutR op a b c d f := by
  simpa only [layoutR_op] using layoutJ_extract (layoutR op a b c d f)

@[simp] theorem layoutC_trapCodeAt_layoutR :
    layoutC op (trapCodeAt (layoutR op a b c d f)) f = layoutR op a b c d f := by
  simpa only [layoutR_op, layoutR_funct] using layoutC_extract (layoutR op a b c d f)

@[simp] theorem layoutT_teqCodeAt_layoutR :
    layoutT op a b (teqCodeAt (layoutR op a b c d f)) f = layoutR op a b c d f := by
  obtain ⟨-, -, hb, ha⟩ := layoutR_fields op f a b c d
  simpa only [layoutR_op, layoutR_funct, ha, hb] using layoutT_extract (layoutR op a b c d f)

end

/-! ### Operands are in range -/

@[simp] theorem regBits_bitVecToFin (x : BitVec 5) : regBits x.toFin = x := by
  simp [regBits]

@[simp] theorem shamtOk_toNat (x : BitVec 5) : shamtOk x.toNat = true := decide_eq_true x.isLt

@[simp] theorem extFieldOk_toNat (x y : BitVec 5) : extFieldOk x.toNat (y.toNat + 1) = true :=
  decide_eq_true ⟨x.isLt, Nat.succ_pos _, y.isLt⟩

/-! ### Every row gives back the words it matches -/

/-- What the row builds from a word that it matches is well formed and encodes to that word. -/
def Row.Faithful (r : Row) : Prop :=
  ∀ w, r.hits w = true → (r.build w).wellFormed = true ∧ encode (r.build w) = w

theorem Row.faithful_of_fields {r : Row}
    (h : ∀ op a b c d f, r.hits (layoutR op a b c d f) = true →
      (r.build (layoutR op a b c d f)).wellFormed = true ∧
        encode (r.build (layoutR op a b c d f)) = layoutR op a b c d f) : r.Faithful := by
  intro w hw
  rw [← layoutR_extract w] at hw ⊢
  exact h _ _ _ _ _ _ hw

/-- Row by row: `hits_layoutR` turns the fields under the mask into the pattern's numbers, and the
encoder puts the same numbers next to the fields that the row read. -/
theorem faithful_of_mem : ∀ r ∈ opcodeTable, r.Faithful := by
  simp only [opcodeTable, integerRows, loadStoreRows, controlRows, fpRows, trapRows,
    List.cons_append, List.nil_append, List.forall_mem_cons, List.not_mem_nil, false_implies,
    implies_true, and_true]
  and_intros
  all_goals
    refine Row.faithful_of_fields fun op a b c d f => ?_
    simp +contextual [Row.hits_layoutR, and_ones5, and_ones6, encode, special, immediate, cop1,
      Instr.wellFormed]

/-- Settles O3: the decoder answers by a row of the table, and every row is faithful. -/
theorem encodeOfDecodeIsTheWord : Obligations.EncodeOfDecodeIsTheWord := by
  intro w i h
  obtain ⟨r, hr, hw, rfl⟩ := exists_row_of_decodeWord h
  exact faithful_of_mem r hr w hw

end Sys2Proof
end

section
/-! SUPPORT and proof for O19 and O22: which behaviours write `pc`, `npc` and `halted`
(spec/40_scheduler.md R114, R122, 43_control_flow.md R220). -/

namespace Sys2Proof.Machine

section
variable (s : State) (ws : List (Word × Byte))

@[simp] theorem State.storeBytes_pc : (s.storeBytes ws).pc = s.pc := by
  rw [storeBytes_eq]
@[simp] theorem State.storeBytes_npc : (s.storeBytes ws).npc = s.npc := by
  rw [storeBytes_eq]
@[simp] theorem State.storeBytes_halted : (s.storeBytes ws).halted = s.halted := by
  rw [storeBytes_eq]

end

/-! ### The control-flow instructions -/

section
variable {i : Instr} {s : State}

theorem branchIf_redirects (c : Bool) (offset : BitVec 16) (s : State) :
    ∃ target, branchIf c offset s = .next (s.redirect target) := by
  obtain ⟨_, h⟩ | ⟨_, h⟩ := branchIf_cases c offset s
  · exact ⟨_, h⟩
  · exact ⟨s.npc, h⟩

/-- A control-flow instruction completes, taken or not; it writes `npc`, and the link value to its
link destination if it has one (43_control_flow.md R220, R221). -/
theorem controlFlow_cases (hc : i.isControlFlow = true) (s : State) :
    (i.linksTo = none ∧ ∃ target, exec i s = .next (s.redirect target)) ∨
      ∃ rd, i.linksTo = some rd ∧
        ∃ target, exec i s = .next ((s.writeGpr rd s.linkValue).redirect target) := by
  cases i with
  | j | jr => exact .inl ⟨rfl, _, rfl⟩
  | jal | jalr => exact .inr ⟨_, rfl, _, rfl⟩
  | beq | bne | blez | bgtz | bltz | bgez | bc1f | bc1t | bc1fl | bc1tl =>
    exact .inl ⟨rfl, branchIf_redirects _ _ s⟩
  | bltzal | bgezal => exact .inr ⟨_, rfl, branchIf_redirects _ _ _⟩
  | _ => cases hc

/-- Both cases as one update: the instructions without a link write register 0, which discards it. -/
theorem controlFlow_completes (hc : i.isControlFlow = true) (s : State) :
    ∃ rd v target, exec i s = .next ((s.writeGpr rd v).redirect target) ∧
      ∀ r, i.linksTo ≠ some r → (s.writeGpr rd v).readGpr r = s.readGpr r := by
  obtain ⟨_, target, he⟩ | ⟨rd, hl, target, he⟩ := controlFlow_cases hc s
  · exact ⟨0, 0#32, target, he, fun _ _ => rfl⟩
  · exact ⟨rd, s.linkValue, target, he,
      fun r hr => State.readGpr_writeGpr_other s (fun e => hr (hl.trans (congrArg some e.symm))) _⟩

/-! ### `pc`, `npc` and `halted` -/

variable {t : State}

/-- No behaviour writes `pc` (40_scheduler.md R114). -/
theorem exec_keeps_pc (h : exec i s = .next t) : t.pc = s.pc := by
  cases exec_forms h <;> simp

/-- A behaviour outside the Control-Flow Unit does not write `npc` (10_state.md R31). -/
theorem exec_keeps_npc (hc : i.isControlFlow = false) (h : exec i s = .next t) :
    t.npc = s.npc := by
  cases exec_forms h with
  | transfer _ hc' | linked _ _ hc' => exact absurd hc' (Bool.eq_false_iff.1 hc)
  | _ => simp

theorem controlFlow_keeps_halted (hc : i.isControlFlow = true) (h : exec i s = .next t) :
    t.halted = s.halted := by
  obtain ⟨_, _, _, he, _⟩ := controlFlow_completes hc s
  cases he.symm.trans h
  simp

/-- What halts the machine is a fault, or the bridge's Halt (40_scheduler.md R122,
45_trap_syscall.md R280). -/
theorem exec_halts_cases (hs : s.halted = false) (h : exec i s = .next t)
    (ht : t.halted = true) :
    t.outcome ≠ .completed ∨
      ∃ code, i = .syscall code ∧ s.bridgeReply (s.syscallNumber code) = .halt := by
  cases exec_forms h with
  | raised => exact .inl nofun
  | ended code hi hr => exact .inr ⟨code, hi, hr⟩
  | _ => simp [hs] at ht

end

/-! ### The obligations -/

/-- Settles O19: `pc` and `npc` by the forms of a behaviour, the rest by the one update that every
control-flow instruction makes. -/
theorem onlyControlFlowWritesNpcAndNothingWritesPc :
    Obligations.OnlyControlFlowWritesNpcAndNothingWritesPc := by
  refine fun i s t h => ⟨exec_keeps_pc h, fun hc => exec_keeps_npc hc h, fun hc => ?_⟩
  obtain ⟨_, _, _, he, hr⟩ := controlFlow_completes hc s
  cases he.symm.trans h
  simpa using hr

/-- Settles O22: of the two ways to halt, the fault changes the outcome. -/
theorem onlySyscallEndsARunNormally : Obligations.OnlySyscallEndsARunNormally :=
  fun _ _ _ hs _ h ht ho => (exec_halts_cases hs h ht).resolve_left (not_not_intro ho)

end Sys2Proof.Machine
end

section
/-! SUPPORT and proof for O5, O6, O8 and O12: what a step answers in each of its branches, and the
generic step's `pc` and `npc` in the next state (spec/40_scheduler.md R111, R112, R118, R120). -/

namespace Sys2Proof.Machine

/-! ### The branches of a step -/

section
variable {s t : State} {w : Word}

theorem step_of_halted (hh : s.halted = true) : step s = .fault .halted := if_pos hh

theorem step_of_misaligned (hh : s.halted = false) (ha : wordAligned s.pc = false) :
    step s = raiseAtFetch .addressError s := by
  simp [step, hh, ha]

theorem step_of_reserved (hh : s.halted = false) (ha : wordAligned s.pc = true)
    (hf : s.fetchWord s.pc = .next w) (hd : decodeWord w = none) :
    step s = execReserved s.genericStep := by
  simp [step, hh, ha, hf, hd]

/-! ### `pc` and `npc` after a step -/

/-- After a dispatch `pc` is the old `npc`, whatever the behaviour did (40_scheduler.md R112). -/
theorem step_pc_of_aligned (ha : wordAligned s.pc = true) (h : step s = .next t) :
    t.pc = s.npc := by
  obtain ⟨_, ⟨ha', _⟩ | ⟨_, _, _, ⟨_, _, he⟩ | ⟨_, he⟩⟩⟩ := step_next_cases h
  · exact absurd ha (Bool.eq_false_iff.1 ha')
  · exact exec_keeps_pc he
  · rw [raise_next he]
    rfl

/-- A behaviour that halts a running machine has not written `npc`: the control-flow instructions
leave it running. -/
theorem exec_keeps_npc_of_halted {i : Instr} (hs : s.halted = false) (h : exec i s = .next t)
    (ht : t.halted = true) : t.npc = s.npc := by
  refine exec_keeps_npc (Bool.eq_false_iff.2 fun hc => ?_) h
  rw [controlFlow_keeps_halted hc h, hs] at ht
  cases ht

/-- After a dispatch `npc` is the generic step's when the machine has halted, or the word is no
control-flow instruction. -/
theorem step_npc_of_aligned (ha : wordAligned s.pc = true) (hf : s.fetchWord s.pc = .next w)
    (h : step s = .next t)
    (hn : t.halted = true ∨ ∀ i, decodeWord w = some i → i.isControlFlow = false) :
    t.npc = s.npc + 4#32 := by
  obtain ⟨hh, ⟨ha', _⟩ | ⟨_, w', hf', ⟨i, hd, he⟩ | ⟨_, he⟩⟩⟩ := step_next_cases h
  · exact absurd ha (Bool.eq_false_iff.1 ha')
  · cases hf.symm.trans hf'
    obtain ht | hc := hn
    · exact exec_keeps_npc_of_halted (s := s.genericStep) hh he ht
    · exact exec_keeps_npc (hc i hd) he
  · rw [raise_next he]
    rfl

end

/-! ### The delay slot -/

theorem wordAligned_add_four {a : Word} (h : wordAligned a = true) :
    wordAligned (a + 4#32) = true := by
  rw [wordAligned_iff] at h ⊢
  bv_omega

/-- All that the fetch port looks at (20_memory.md R67). -/
theorem fetchWord_congr {s t : State} (hm : t.mem = s.mem) (hi : t.image = s.image)
    (hw : t.written = s.written) (hp : t.params = s.params) (a : Word) :
    t.fetchWord a = s.fetchWord a := by
  unfold State.fetchWord State.readWord State.readByte State.wordWritten State.imageWord
  rw [mappedRange_congr hp, hm, hi, hw, hp]

theorem controlFlow_keeps_fetch {i : Instr} {s t : State} (hc : i.isControlFlow = true)
    (h : exec i s = .next t) (a : Word) : t.fetchWord a = s.fetchWord a := by
  obtain ⟨_, _, _, he, _⟩ := controlFlow_completes hc s
  cases he.symm.trans h
  exact fetchWord_congr (by simp) (by simp) (by simp) (by simp) a

/-! ### The obligations -/

/-- Settles O5: the state written out in the statement is the one after the generic step. -/
theorem stepRunsDecodedInstruction : Obligations.StepRunsDecodedInstruction :=
  fun _ _ _ => step_of_decode

/-- Settles O8: the fetch fault and the halted machine are the first two branches of a step. -/
theorem misalignedPcOnlyHaltsAndHaltedHasNoStep :
    Obligations.MisalignedPcOnlyHaltsAndHaltedHasNoStep :=
  fun s => ⟨fun hh ha => step_of_misaligned hh
    (Bool.eq_false_iff.2 (mt (wordAligned_iff s.pc).1 ha)), step_of_halted⟩

/-- Settles O6: the state `g` is the one after the generic step. -/
theorem genericStepComesBeforeEveryBehaviour : Obligations.GenericStepComesBeforeEveryBehaviour :=
  fun s _ hh ha hf =>
    ⟨s.genericStep, rfl, rfl, rfl, fun _ => step_of_decode hh ha hf, step_of_reserved hh ha hf,
      fun _ h => ⟨step_pc_of_aligned ha h, fun ht => step_npc_of_aligned ha hf h (.inl ht.1),
        fun hc => step_npc_of_aligned ha hf h (.inr hc)⟩⟩

/-- Settles O12: the transfer completes without a halt, so the machine steps again at A+4, where the
fetch sees what it saw before. -/
theorem takenTransferRunsItsDelaySlot : Obligations.TakenTransferRunsItsDelaySlot := by
  intro s w i hh ha hn hf hd hc
  obtain ⟨rd, v, target, he, _⟩ := controlFlow_completes hc s.genericStep
  generalize (s.genericStep.writeGpr rd v).redirect target = t at he
  have hs : step s = .next t := (step_of_decode hh ha hf hd).trans he
  have hpc : t.pc = s.pc + 4#32 := (step_pc_of_aligned ha hs).trans hn
  have ht : t.halted = false := (controlFlow_keeps_halted hc he).trans hh
  have hat : wordAligned t.pc = true := hpc ▸ wordAligned_add_four ha
  refine ⟨t, hs, hpc, ht, fun w' i' hf' hd' => step_of_decode ht hat ?_ hd',
    fun _ => step_pc_of_aligned hat⟩
  rw [hpc, controlFlow_keeps_fetch hc he]
  exact hf'

end Sys2Proof.Machine
end

section
/-! SUPPORT and proof for O13: a behaviour answers a next state, or is stuck at an access outside
MEM_MAP (spec/20_memory.md R53). -/

namespace Sys2Proof.Machine

/-- A next state, or the fault of a stuck access while some address of `s` is unmapped. -/
def NextOrStuck (s : State) (o : Result) : Prop :=
  (∃ t, o = .next t) ∨ (o = .fault .unmapped ∧ ∃ a, s.mapped a = false)

section
variable {s : State}

/-! ### The checks -/

theorem nextOrStuck_next (t : State) : NextOrStuck s (.next t) := .inl ⟨t, rfl⟩

theorem nextOrStuck_ite {c : Prop} [Decidable c] {p q : Result} (hp : NextOrStuck s p)
    (hq : NextOrStuck s q) : NextOrStuck s (if c then p else q) := by
  split
  · exact hp
  · exact hq

theorem mappedRange_eq_false_iff {a : Word} {n : Nat} :
    s.mappedRange a n = false ↔ ∃ k < n, s.mapped (a + BitVec.ofNat 32 k) = false := by
  simp [State.mappedRange]

theorem nextOrStuck_access {a : Word} {n : Nat} {go : Result} (h : NextOrStuck s go) :
    NextOrStuck s (s.access a n go) := by
  obtain ⟨_, h'⟩ | ⟨hm, h'⟩ := access_cases s a n go
  · rwa [h']
  · obtain ⟨k, _, hk⟩ := mappedRange_eq_false_iff.1 hm
    exact .inr ⟨h', _, hk⟩

theorem nextOrStuck_wordAccess {a : Word} {n : Nat} {go : Result} (h : NextOrStuck s go) :
    NextOrStuck s (s.wordAccess a n go) :=
  nextOrStuck_ite (nextOrStuck_access h) (nextOrStuck_next _)

theorem nextOrStuck_withPair {n : Slot} {go : Result} (h : NextOrStuck s go) :
    NextOrStuck s (s.withPair n go) :=
  nextOrStuck_ite h (nextOrStuck_next _)

theorem nextOrStuck_divideByZero : NextOrStuck s (divideByZero s) := by
  obtain ⟨_, h⟩ | ⟨_, h⟩ := divideByZero_cases s
  · exact .inl ⟨_, h⟩
  · exact .inl ⟨_, h⟩

/-! ### All instructions -/

theorem exec_nextOrStuck (i : Instr) (s : State) : NextOrStuck s (exec i s) := by
  cases i with
  | add | addi | movz | movn | movf | movt | ext | teq | beq | bne | blez | bgtz | bltz | bgez
  | bltzal | bgezal | bc1f | bc1t | bc1fl | bc1tl =>
    exact nextOrStuck_ite (nextOrStuck_next _) (nextOrStuck_next _)
  | div | divu => exact nextOrStuck_ite nextOrStuck_divideByZero (nextOrStuck_next _)
  | lb | lbu | lh | lhu | lwl | lwr | sb | sh | swl | swr =>
    exact nextOrStuck_access (nextOrStuck_next _)
  | lw | ll | sw | sc => exact nextOrStuck_wordAccess (nextOrStuck_next _)
  | ldc1 | sdc1 | ldxc1 | sdxc1 =>
    exact nextOrStuck_withPair (nextOrStuck_wordAccess (nextOrStuck_next _))
  | addD | subD | mulD | divD =>
    exact nextOrStuck_withPair (nextOrStuck_withPair (nextOrStuck_withPair (nextOrStuck_next _)))
  | negD | movD | cEqD | cOltD | cUnD =>
    exact nextOrStuck_withPair (nextOrStuck_withPair (nextOrStuck_next _))
  | cvtDW | mfhc1 | mthc1 => exact nextOrStuck_withPair (nextOrStuck_next _)
  | truncWD fd fs =>
    refine nextOrStuck_withPair ?_
    cases fTruncInt32 (s.readPair fs) <;> exact nextOrStuck_next _
  | _ => exact nextOrStuck_next _

/-! ### On a full map -/

theorem exec_next_of_mapped (i : Instr) (hm : ∀ a, s.mapped a = true) :
    ∃ t, exec i s = .next t := by
  obtain h | ⟨_, a, ha⟩ := exec_nextOrStuck i s
  · exact h
  · exact absurd (hm a) (Bool.eq_false_iff.1 ha)

theorem fetchWord_next_of_mapped {a : Word} (hm : ∀ a, s.mapped a = true)
    (hc : s.params.ifetchCoherent = true ∨ s.wordWritten a = false) :
    ∃ w, s.fetchWord a = .next w := by
  have hr : s.mappedRange a 4 = true := List.all_eq_true.2 fun _ _ => hm _
  obtain ⟨h, _⟩ | ⟨_, _, h⟩ | ⟨_, h, h', _⟩ | ⟨_, _, _, h⟩ := fetchWord_cases s a
  · simp [hr] at h
  · exact ⟨_, h⟩
  · simp [h, h'] at hc
  · exact ⟨_, h⟩

theorem step_next_of_mapped (hh : s.halted = false) (hm : ∀ a, s.mapped a = true)
    (hc : s.params.ifetchCoherent = true ∨ s.wordWritten s.pc = false) :
    ∃ t, step s = .next t := by
  cases ha : wordAligned s.pc with
  | false => exact ⟨_, step_of_misaligned hh ha⟩
  | true =>
    obtain ⟨w, hf⟩ := fetchWord_next_of_mapped hm hc
    cases hd : decodeWord w with
    | none => exact ⟨_, step_of_reserved hh ha hf hd⟩
    | some i => exact step_of_decode hh ha hf hd ▸ exec_next_of_mapped (s := s.genericStep) i hm

end

/-- Settles O13: the answers of a behaviour by its checks, the step's by its branches. -/
theorem machineIsStuckOnlyOutsideTheMapOrOnStoredCode :
    Obligations.MachineIsStuckOnlyOutsideTheMapOrOnStoredCode := by
  refine ⟨fun i s => ?_, fun s => step_next_of_mapped⟩
  obtain ⟨t, h⟩ | ⟨h, ha⟩ := exec_nextOrStuck i s
  · simp [h]
  · simpa [h] using ha

end Sys2Proof.Machine
end

section
/-! SUPPORT and proof for O24 and O25: `add` and `addi` are one trapping sum, and its overflow test
(spec/41_alu.md R129) is a statement about the exact signed sum. -/

namespace Sys2Proof.Machine

/-! ### The overflow test -/

theorem addOverflows_iff_msb (a b : Word) :
    addOverflows a b = true ↔ a.msb = b.msb ∧ (a + b).msb ≠ a.msb := by
  simp [addOverflows]

/-- The test on sign bits finds the sums that no word holds. -/
theorem addOverflows_iff_range (a b : Word) :
    addOverflows a b = true ↔ a.toInt + b.toInt < -(2 ^ 31) ∨ 2 ^ 31 ≤ a.toInt + b.toInt := by
  have h : addOverflows a b = a.saddOverflow b := (BitVec.saddOverflow_eq a b).symm
  rw [h, BitVec.saddOverflow, Bool.or_eq_true, decide_eq_true_iff, decide_eq_true_iff, or_comm]

/-! ### Words of integers -/

theorem add_eq_ofInt (a b : Word) : a + b = BitVec.ofInt 32 (a.toInt + b.toInt) := by
  rw [BitVec.ofInt_add, BitVec.ofInt_toInt, BitVec.ofInt_toInt]

@[simp] theorem toInt_sext16 (imm : BitVec 16) : (sext16 imm).toInt = imm.toInt :=
  BitVec.toInt_signExtend_of_le (by decide)

/-! ### The trapping sum -/

section
variable {i : Instr} {s : State} {rd : Reg} {a b : Word}

theorem faults_of_addOverflows (he : exec i s = addTrapping rd a b s)
    (h : addOverflows a b = true) : Faults i s .integerOverflow := by
  obtain ⟨_, h'⟩ | ⟨hn, _⟩ := addTrapping_cases rd a b s
  · exact he.trans h'
  · simp [h] at hn

theorem setsReg_of_not_addOverflows (he : exec i s = addTrapping rd a b s)
    (h : ¬ addOverflows a b = true) : SetsReg i s rd (a + b) := by
  obtain ⟨ho, _⟩ | ⟨_, h'⟩ := addTrapping_cases rd a b s
  · exact absurd ho h
  · exact setsReg_of_eq (he.trans h')

/-- A trapping sum writes the exact signed sum, or faults when no word holds it. -/
theorem addTrapping_exact (he : exec i s = addTrapping rd a b s) :
    (-(2 ^ 31) ≤ a.toInt + b.toInt ∧ a.toInt + b.toInt < 2 ^ 31 →
      SetsReg i s rd (BitVec.ofInt 32 (a.toInt + b.toInt)) ∧
        (BitVec.ofInt 32 (a.toInt + b.toInt)).toInt = a.toInt + b.toInt) ∧
    (a.toInt + b.toInt < -(2 ^ 31) ∨ 2 ^ 31 ≤ a.toInt + b.toInt →
      Faults i s .integerOverflow) := by
  refine ⟨fun ⟨hl, hu⟩ => ⟨?_, BitVec.toInt_ofInt_eq_self (by decide) hl hu⟩, fun h => ?_⟩
  · rw [← add_eq_ofInt]
    exact setsReg_of_not_addOverflows he (by rw [addOverflows_iff_range]; omega)
  · exact faults_of_addOverflows he ((addOverflows_iff_range a b).2 h)

end

/-! ### The match columns (30_encoding.md R90) -/

/-- An R-form word without shift amount under the mask of its opcode, shift amount and function. -/
theorem encodedAs_special {i : Instr} {rs rt rd : Reg} {f : BitVec 6}
    (h : encode i = special rs rt rd f) : EncodedAs i 0xFC0007FF#32 (special 0 0 0 f) := by
  simp [EncodedAs, h, special]

/-- An I-form word under the mask of its opcode. -/
theorem encodedAs_immediate {i : Instr} {rs rt : Reg} {op : BitVec 6} {imm : BitVec 16}
    (h : encode i = immediate op rs rt imm) :
    EncodedAs i 0xFC000000#32 (immediate op 0 0 0#16) := by
  simp [EncodedAs, h, immediate]

/-! ### The obligations -/

/-- Settles O24, by the trapping sum and its test on sign bits. -/
theorem addAndAddiCommitOrFaultOnOverflow :
    Obligations.AddAndAddiCommitOrFaultOnOverflow := by
  intro rd rs rt imm s
  simp only [← addOverflows_iff_msb]
  exact ⟨encodedAs_special (f := 0x20#6) rfl, encodedAs_immediate (op := 0x08#6) rfl,
    faults_of_addOverflows rfl,
    setsReg_of_not_addOverflows rfl, faults_of_addOverflows rfl, setsReg_of_not_addOverflows rfl⟩

/-- Settles O25: both are trapping sums, and sign extension keeps the signed value. -/
theorem addFaultsExactlyWhenTheSignedSumDoesNotFit :
    Obligations.AddFaultsExactlyWhenTheSignedSumDoesNotFit := by
  intro rd rs rt imm s
  rw [← toInt_sext16 imm]
  exact ⟨addTrapping_exact rfl, addTrapping_exact rfl⟩

end Sys2Proof.Machine
end

section
/-! SUPPORT and proof for O26 to O29: the integer instructions that only write a register. What each
writes is the model's word operation, and the lemmas here say which number or bits that is
(spec/41_alu.md R131 to R153). -/

namespace Sys2Proof.Machine

/-- A meaning that only writes a register, with the value written another way. -/
theorem setsReg_of_value {i : Instr} {s : State} {rd : Reg} {v w : Word}
    (he : exec i s = setReg rd v s) (hv : v = w) : SetsReg i s rd w :=
  setsReg_of_eq (hv ▸ he)

/-! ### Comparisons (R136) -/

theorem boolWord_slt (a b : Word) :
    boolWord (a.slt b) = if a.toInt < b.toInt then 1#32 else 0#32 := by
  simp [boolWord, BitVec.slt_eq_decide]

theorem boolWord_ult (a b : Word) :
    boolWord (a.ult b) = if a.toNat < b.toNat then 1#32 else 0#32 := by
  simp [boolWord, BitVec.ult_eq_decide]

/-! ### Zero-extended immediates (R144) -/

theorem zext16_eq_append (imm : BitVec 16) : zext16 imm = 0#16 ++ imm :=
  BitVec.setWidth_eq_append (by decide)

/-! ### Shifts (R148 to R153) -/

theorem shiftAmount_eq_mod (v : Word) : shiftAmount v = v.toNat % 32 := by
  simp [shiftAmount]

theorem toNat_shiftLeft_eq_mul (v : Word) (n : Nat) :
    (v <<< n).toNat = v.toNat * 2 ^ n % 2 ^ 32 := by
  rw [BitVec.toNat_shiftLeft, Nat.shiftLeft_eq]

theorem toNat_ushiftRight_eq_div (v : Word) (n : Nat) : (v >>> n).toNat = v.toNat / 2 ^ n := by
  rw [BitVec.toNat_ushiftRight, Nat.shiftRight_eq_div_pow]

theorem toInt_sshiftRight_eq_div (v : Word) (n : Nat) :
    (v.sshiftRight n).toInt = v.toInt / 2 ^ n := by
  rw [BitVec.toInt_sshiftRight, Int.shiftRight_eq_div_pow, Nat.cast_pow, Nat.cast_ofNat]

/-! ### The obligations -/

/-- Settles O26: each writes the sum or difference of two words. -/
theorem adduSubSubuWrap : Obligations.AdduSubSubuWrap := fun _ _ _ _ =>
  ⟨⟨encodedAs_special (f := 0x21#6) rfl, setsReg_of_eq rfl⟩,
    ⟨encodedAs_special (f := 0x22#6) rfl, setsReg_of_eq rfl⟩,
    ⟨encodedAs_special (f := 0x23#6) rfl, setsReg_of_eq rfl⟩⟩

/-- Settles O27: the sum by `add_eq_ofInt`, the comparisons by their decided propositions. -/
theorem addiuAndSetOnLessThan : Obligations.AddiuAndSetOnLessThan := by
  intro rd rs rt imm s
  refine ⟨?_, setsReg_of_value rfl (boolWord_slt _ _), setsReg_of_value rfl (boolWord_ult _ _), ?_,
    setsReg_of_value rfl (boolWord_ult _ _)⟩
  all_goals rw [← toInt_sext16 imm]
  · exact setsReg_of_value rfl (add_eq_ofInt _ _)
  · exact setsReg_of_value rfl (boolWord_slt _ _)

/-- Settles O28: the model's word operations, the immediates by `zext16_eq_append`. -/
theorem bitwiseAndLui : Obligations.BitwiseAndLui := by
  intro rd rs rt imm s
  rw [← zext16_eq_append]
  exact ⟨setsReg_of_eq rfl, setsReg_of_eq rfl, setsReg_of_eq rfl, setsReg_of_eq rfl,
    setsReg_of_eq rfl, setsReg_of_eq rfl, setsReg_of_eq rfl, setsReg_of_eq rfl⟩

/-- Settles O29: each word shift scales by the power of two of its amount. -/
theorem shiftsAreScalingByPowersOfTwo : Obligations.ShiftsAreScalingByPowersOfTwo := by
  intro rd rs rt shamt s _
  rw [← shiftAmount_eq_mod]
  exact ⟨⟨_, toNat_shiftLeft_eq_mul _ _, setsReg_of_eq rfl⟩,
    ⟨_, toNat_ushiftRight_eq_div _ _, setsReg_of_eq rfl⟩,
    ⟨_, toInt_sshiftRight_eq_div _ _, setsReg_of_eq rfl⟩,
    ⟨_, toNat_shiftLeft_eq_mul _ _, setsReg_of_eq rfl⟩,
    ⟨_, toNat_ushiftRight_eq_div _ _, setsReg_of_eq rfl⟩,
    ⟨_, toInt_sshiftRight_eq_div _ _, setsReg_of_eq rfl⟩⟩

end Sys2Proof.Machine
end

section
/-! SUPPORT and proof for O30 to O34: products, quotients and moves through `hi` and `lo`, bit
fields and conditional moves (spec/41_alu.md R154 to R168). -/

namespace Sys2Proof.Machine

/-! ### Footprints of the accumulators and of a free value -/

section
variable (s : State) (v : Word)

theorem keeps_writeHi : Footprint.Keeps { hi := true } s (s.writeHi v) := by
  constructor <;> simp

theorem keeps_writeLo : Footprint.Keeps { lo := true } s (s.writeLo v) := by
  constructor <;> simp

theorem keeps_draw : Footprint.Keeps { draws := 1 } s s.draw := by
  constructor <;> simp

end

/-! ### Products (R154, R155) -/

/-- An R-form word without destination under the mask of everything but its operands. -/
theorem encodedAs_special_noDest {i : Instr} {rs rt : Reg} {f : BitVec 6}
    (h : encode i = special rs rt 0 f) : EncodedAs i 0xFC00FFFF#32 (special 0 0 0 f) := by
  simp [EncodedAs, h, special]

/-- A product is left in `hi` and `lo`, whole. -/
theorem setProduct_completes (p : BitVec 64) (s : State) :
    ∃ t, setProduct p s = .next t ∧ t.hi ++ t.lo = p ∧
      Footprint.Keeps { hi := true, lo := true } s t :=
  ⟨_, rfl,
    (BitVec.extractLsb'_append_extractLsb'_eq_extractLsb' rfl).trans BitVec.extractLsb'_eq_self,
    (keeps_writeHi s _).trans (keeps_writeLo _ _)⟩

theorem toInt_ofInt_mul (a b : Word) :
    (BitVec.ofInt 64 (a.toInt * b.toInt)).toInt = a.toInt * b.toInt := by
  have hl := BitVec.le_toInt_mul_toInt (x := a) (y := b)
  have hu := BitVec.toInt_mul_toInt_le (x := a) (y := b)
  exact BitVec.toInt_ofInt_eq_self (by decide) (by omega) (by omega)

theorem toNat_ofNat_mul (a b : Word) :
    (BitVec.ofNat 64 (a.toNat * b.toNat)).toNat = a.toNat * b.toNat := by
  have h := Nat.mul_lt_mul'' a.isLt b.isLt
  exact Nat.mod_eq_of_lt h

/-! ### Quotients (R156, R157) -/

theorem ofInt_tdiv (a b : Word) : BitVec.ofInt 32 (a.toInt.tdiv b.toInt) = a.sdiv b :=
  BitVec.eq_of_toInt_eq (by rw [BitVec.toInt_ofInt, BitVec.toInt_sdiv])

theorem ofInt_tmod (a b : Word) : BitVec.ofInt 32 (a.toInt.tmod b.toInt) = a.srem b := by
  rw [← BitVec.toInt_srem, BitVec.ofInt_toInt]

theorem exec_div_of_ne_zero {s : State} {rs rt : Reg} (h : s.readGpr rt ≠ 0#32) :
    exec (.div rs rt) s = setQuotient ((s.readGpr rs).sdiv (s.readGpr rt))
      ((s.readGpr rs).srem (s.readGpr rt)) s := by
  have he := ((execDiv_cases rs rt s).resolve_left fun h' => h h'.1).2
  rwa [ofInt_tdiv, ofInt_tmod] at he

theorem exec_divu_of_ne_zero {s : State} {rs rt : Reg} (h : s.readGpr rt ≠ 0#32) :
    exec (.divu rs rt) s =
      setQuotient (s.readGpr rs / s.readGpr rt) (s.readGpr rs % s.readGpr rt) s := by
  have he := ((execDivu_cases rs rt s).resolve_left fun h' => h h'.1).2
  rwa [← BitVec.toNat_udiv, ← BitVec.toNat_umod, BitVec.ofNat_toNat, BitVec.ofNat_toNat,
    BitVec.setWidth_eq, BitVec.setWidth_eq] at he

theorem keeps_setQuotient (q r : Word) (s : State) :
    Footprint.Keeps { hi := true, lo := true } s ((s.writeLo q).writeHi r) :=
  (keeps_writeLo s q).trans (keeps_writeHi _ r)

/-- The one quotient that no word holds wraps, with remainder 0 (92_eei_decisions.md D10). -/
theorem sdiv_srem_overflow : (0x80000000#32).sdiv 0xFFFFFFFF#32 = 0x80000000#32 ∧
    (0x80000000#32).srem 0xFFFFFFFF#32 = 0#32 := by decide

/-- Every other quotient is exact. -/
theorem toInt_eq_sdiv_mul_add_srem {a b : Word} (h : ¬(a = 0x80000000#32 ∧ b = 0xFFFFFFFF#32)) :
    a.toInt = (a.sdiv b).toInt * b.toInt + (a.srem b).toInt := by
  rw [BitVec.toInt_sdiv_of_ne_or_ne a b (not_and_or.1 h), BitVec.toInt_srem,
    Int.tdiv_mul_add_tmod]

theorem natAbs_srem_lt {a b : Word} (h : b ≠ 0#32) :
    (a.srem b).toInt.natAbs < b.toInt.natAbs := by
  have hb : b.toInt ≠ 0 := fun e => h (BitVec.toInt_inj.1 e)
  rw [BitVec.toInt_srem, Int.natAbs_tmod]
  exact Nat.mod_lt _ (Int.natAbs_pos.2 hb)

/-- A remainder has the sign of the dividend. -/
theorem srem_neg_iff (a b : Word) :
    (a.srem b).toInt = 0 ∨ ((a.srem b).toInt < 0 ↔ a.toInt < 0) := by
  rw [BitVec.toInt_srem]
  obtain ha | ha := Int.lt_or_le a.toInt 0
  · have := Int.tmod_nonneg b.toInt (Int.neg_nonneg_of_nonpos ha.le)
    rw [Int.neg_tmod] at this
    omega
  · have := Int.tmod_nonneg b.toInt ha
    omega

/-! ### Division by zero (R156, 92_eei_decisions.md D9) -/

theorem exec_div_of_zero {s : State} {rs rt : Reg} (h : s.readGpr rt = 0#32) :
    exec (.div rs rt) s = divideByZero s :=
  ((execDiv_cases rs rt s).resolve_right fun h' => h'.1 h).2

theorem exec_divu_of_zero {s : State} {rs rt : Reg} (h : s.readGpr rt = 0#32) :
    exec (.divu rs rt) s = divideByZero s :=
  ((execDivu_cases rs rt s).resolve_right fun h' => h'.1 h).2

/-! ### Sign extension and bit fields (R162 to R164) -/

theorem toNat_bitField (v : Word) {pos size : Nat} (h : size ≤ 32) :
    (bitField v pos size).toNat = v.toNat / 2 ^ pos % 2 ^ size := by
  rw [bitField, BitVec.toNat_setWidth_of_le h, BitVec.extractLsb'_toNat, Nat.shiftRight_eq_div_pow]

/-! ### Conditional moves (R165 to R168) -/

section
variable {i : Instr} {s : State} {rd : Reg} {v : Word} {c : Bool}

theorem setsReg_of_moveIf (he : exec i s = moveIf c rd v s) (hc : c = true) : SetsReg i s rd v := by
  subst hc
  exact setsReg_of_eq he

theorem changesNothing_of_moveIf (he : exec i s = moveIf c rd v s) (hc : c = false) :
    ChangesNothing i s := by
  subst hc
  exact he

end

/-! ### The obligations -/

/-- Settles O30: the exact products fit in 64 bits. -/
theorem multiplyGivesTheExactProduct : Obligations.MultiplyGivesTheExactProduct := by
  intro rs rt s
  refine ⟨⟨encodedAs_special_noDest (f := 0x18#6) rfl, ?_⟩,
    encodedAs_special_noDest (f := 0x19#6) rfl, ?_⟩
  · obtain ⟨t, he, hp, hk⟩ := setProduct_completes
      (BitVec.ofInt 64 ((s.readGpr rs).toInt * (s.readGpr rt).toInt)) s
    exact ⟨t, he, hp ▸ toInt_ofInt_mul _ _, hk⟩
  · obtain ⟨t, he, hp, hk⟩ := setProduct_completes
      (BitVec.ofNat 64 ((s.readGpr rs).toNat * (s.readGpr rt).toNat)) s
    exact ⟨t, he, hp ▸ toNat_ofNat_mul _ _, hk⟩

/-- Settles O31: the model's quotient and remainder are the word operations, with the case that
wraps apart. -/
theorem divideGivesQuotientAndRemainder : Obligations.DivideGivesQuotientAndRemainder := by
  intro rs rt s a b hb
  refine ⟨⟨_, exec_div_of_ne_zero hb, keeps_setQuotient _ _ s, ?_, fun h => ?_⟩,
    ⟨_, exec_divu_of_ne_zero hb, keeps_setQuotient _ _ s, ?_, ?_⟩⟩
  · rintro ⟨ha, hb'⟩
    change a.sdiv b = _ ∧ a.srem b = _
    rw [ha, hb']
    exact sdiv_srem_overflow
  · exact ⟨toInt_eq_sdiv_mul_add_srem h, natAbs_srem_lt hb, srem_neg_iff a b⟩
  · exact (Nat.div_add_mod' a.toNat b.toNat).symm
  · exact Nat.mod_lt _ (Nat.pos_of_ne_zero fun e => hb (BitVec.toNat_inj.1 e))

/-- Settles O32: both divisions by zero are `divideByZero`, and the policy picks its case. -/
theorem divideByZeroFollowsThePolicy : Obligations.DivideByZeroFollowsThePolicy := by
  intro rs rt s h
  have hd : exec (.div rs rt) s = _ := exec_div_of_zero h
  have hu : exec (.divu rs rt) s = _ := exec_divu_of_zero h
  obtain ⟨hp, he⟩ | ⟨hp, he⟩ := divideByZero_cases s
  · exact ⟨fun _ => ⟨hd.trans he, hu.trans he⟩, fun hq => by simp [hp] at hq⟩
  · refine ⟨fun hq => by simp [hp] at hq, fun _ => ⟨_, hd.trans he, hu.trans he, rfl, rfl, ?_⟩⟩
    exact (((keeps_writeHi s _).trans (keeps_writeLo _ _)).trans (keeps_draw _)).trans
      (keeps_draw _)

/-- Settles O33: sign extension is the word of the signed value, and a field past bit 31 takes a
free value. -/
theorem signExtensionAndBitFieldExtract : Obligations.SignExtensionAndBitFieldExtract := by
  intro rd rs rt pos size s ⟨_, hsize, _⟩
  refine ⟨setsReg_of_eq rfl, setsReg_of_eq rfl, fun hin => ?_, fun hout => ?_⟩
  · have he := ((execExt_cases rt rs pos size s).resolve_right fun h => by omega).2
    exact ⟨_, toNat_bitField _ hsize, setsReg_of_eq he⟩
  · have he := ((execExt_cases rt rs pos size s).resolve_left fun h => by omega).2
    exact ⟨_, he, readGpr_writeGpr_asRead s rt _, (keeps_writeGpr s rt _).trans (keeps_draw _)⟩

/-- Settles O34: the moves by their footprints, the conditional ones by the cases of `moveIf`. -/
theorem hiLoMovesAndConditionalMoves : Obligations.HiLoMovesAndConditionalMoves := by
  intro rd rs rt s
  refine ⟨setsReg_of_eq rfl, setsReg_of_eq rfl, ⟨_, rfl, rfl, keeps_writeHi s _⟩,
    ⟨_, rfl, rfl, keeps_writeLo s _⟩, fun h => ?_, fun h => ?_, fun h => ?_, fun h => ?_⟩
  all_goals exact ⟨setsReg_of_moveIf rfl (by simp [h]), changesNothing_of_moveIf rfl (by simp [h])⟩

end Sys2Proof.Machine
end

section
/-! SUPPORT and proof for O35 to O37: the values that aligned and byte loads write, and the plain
stores as lists of byte stores from one address on (spec/42_load_store.md R192 to R199, R204,
R205, 20_memory.md R52). -/

namespace Sys2Proof.Machine

/-! ### Big-endian values (20_memory.md R54) -/

theorem toNat_append_eq_mul_add {m n : Nat} (x : BitVec m) (y : BitVec n) :
    (x ++ y).toNat = x.toNat * 2 ^ n + y.toNat := by
  rw [BitVec.toNat_append, ← Nat.shiftLeft_add_eq_or_of_lt y.isLt, Nat.shiftLeft_eq]

theorem toNat_readHalf (s : State) (a : Word) :
    (s.readHalf a).toNat = (s.readByte a).toNat * 256 + (s.readByte (a + 1#32)).toNat :=
  toNat_append_eq_mul_add _ _

theorem toNat_readWord (s : State) (a : Word) : (s.readWord a).toNat =
    ((s.readByte a).toNat * 256 + (s.readByte (a + 1#32)).toNat) * 2 ^ 16 +
      (s.readByte (a + 2#32)).toNat * 256 + (s.readByte (a + 3#32)).toNat := by
  simp only [State.readWord, toNat_append_eq_mul_add]
  omega

/-- The signed value of a halfword, from its unsigned one. -/
theorem toInt_half (h : Half) :
    h.toInt = if h.toNat < 2 ^ 15 then (h.toNat : Int) else (h.toNat : Int) - 2 ^ 16 := by
  rw [BitVec.toInt_eq_toNat_cond]
  split <;> split <;> omega

/-! ### Loads -/

section
variable {i : Instr} {s : State} {rt : Reg} {a : Word} {n : Nat} {v w : Word}

theorem setsReg_of_loadReg (he : exec i s = loadReg rt a n v s) (hm : s.mappedRange a n = true)
    (hv : v = w) : SetsReg i s rt w :=
  setsReg_of_eq (hv ▸ he.trans (access_of_mapped hm _))

theorem setsReg_of_loadWordReg (he : exec i s = loadWordReg rt a s) (ha : a.toNat % 4 = 0)
    (hm : s.mappedRange a 4 = true) (hv : s.readWord a = w) : SetsReg i s rt w :=
  setsReg_of_eq (hv ▸ he.trans (wordAccess_of_aligned ((wordAligned_iff a).2 ha) hm _))

end

/-! ### Stores as lists of byte stores -/

/-- Byte stores change the bytes they name and nothing else. -/
theorem keeps_storeBytes (s : State) (ws : List (Word × Byte)) :
    Footprint.Keeps { bytes := ws.map Prod.fst } s (s.storeBytes ws) := by
  induction ws generalizing s with
  | nil => exact Footprint.Keeps.refl s
  | cons w ws ih => exact (keeps_writeByte s w.1 w.2).trans (ih _)

/-- Byte stores to distinct addresses: each address holds its byte afterwards. -/
theorem readByte_storeBytes {s : State} (hwf : s.mem.wf = true) {ws : List (Word × Byte)}
    (hd : (ws.map Prod.fst).Nodup) {a : Word} {b : Byte} (h : (a, b) ∈ ws) :
    (s.storeBytes ws).readByte a = b := by
  induction ws generalizing s with
  | nil => exact absurd h List.not_mem_nil
  | cons w ws ih =>
    obtain ⟨hw, hd⟩ := List.nodup_cons.1 hd
    obtain rfl | h := List.mem_cons.1 h
    · have hk := (keeps_storeBytes (s.writeByte a b) ws).bytes a hw
      exact hk.trans ((readByte_writeByte hwf a a b).trans (if_pos rfl))
    · exact ih (writeByte_mem_wf hwf w.1 w.2) hd h

/-- The byte stores that put a list of bytes at an address, lowest address first. -/
def storesFrom (a : Word) (bs : List Byte) : List (Word × Byte) :=
  bs.mapIdx fun k b => (a + BitVec.ofNat 32 k, b)

theorem map_fst_storesFrom (a : Word) (bs : List Byte) :
    (storesFrom a bs).map Prod.fst = bytesFrom a bs.length := by
  apply List.ext_getElem <;> simp [storesFrom, bytesFrom]

theorem nodup_bytesFrom (a : Word) {n : Nat} (hn : n ≤ 2 ^ 32) : (bytesFrom a n).Nodup := by
  refine List.Nodup.map_on (fun j hj k hk h => ?_) List.nodup_range
  have := List.mem_range.1 hj
  have := List.mem_range.1 hk
  have h' := congrArg BitVec.toNat ((BitVec.add_right_inj a).1 h)
  rwa [BitVec.toNat_ofNat, BitVec.toNat_ofNat, Nat.mod_eq_of_lt (by omega),
    Nat.mod_eq_of_lt (by omega)] at h'

theorem mem_storesFrom {a : Word} {bs : List Byte} {k : Nat} {b : Byte} (h : bs[k]? = some b) :
    (a + BitVec.ofNat 32 k, b) ∈ storesFrom a bs :=
  List.mem_of_getElem? (i := k) (by simp [storesFrom, h])

/-- A meaning that only stores bytes from one address on. -/
theorem storesBytes_of_eq {i : Instr} {s : State} {a : Word} {bs : List Byte}
    (hwf : s.mem.wf = true) (hn : bs.length ≤ 2 ^ 32)
    (h : exec i s = .next (s.storeBytes (storesFrom a bs))) : StoresBytes i s a bs := by
  have hk := keeps_storeBytes s (storesFrom a bs)
  rw [map_fst_storesFrom] at hk
  refine ⟨_, h, fun k b hb => readByte_storeBytes hwf ?_ (mem_storesFrom hb), hk⟩
  rw [map_fst_storesFrom]
  exact nodup_bytesFrom a hn

theorem writeByte_eq_storesFrom (s : State) (a v : Word) :
    s.writeByte a (v.extractLsb' 0 8) = s.storeBytes (storesFrom a [byteAt v 3]) := by
  simp [storesFrom, byteAt]

theorem writeHalf_eq_storesFrom (s : State) (a v : Word) :
    s.writeHalf a (v.extractLsb' 0 16) =
      s.storeBytes (storesFrom a [byteAt v 2, byteAt v 3]) := by
  simp [State.writeHalf, storesFrom, byteAt, BitVec.extractLsb'_extractLsb'_of_le]

theorem writeWord_eq_storesFrom (s : State) (a v : Word) :
    s.writeWord a v =
      s.storeBytes (storesFrom a [byteAt v 0, byteAt v 1, byteAt v 2, byteAt v 3]) := by
  simp [State.writeWord, storesFrom, byteAt]

/-! ### The obligations -/

/-- Settles O35: `lb`, `lbu`, `lh` and `lhu` by the value each extension has, `lw` and `ll` as the
same aligned word load. -/
theorem loadsReadBigEndianBytes : Obligations.LoadsReadBigEndianBytes := by
  intro rt base offset s a h
  have hh : (s.readHalf a).toNat = h := toNat_readHalf s a
  have hw := congrArg (BitVec.ofNat 32) (toNat_readWord s a)
  rw [BitVec.ofNat_toNat, BitVec.setWidth_eq] at hw
  refine ⟨fun hm => ⟨setsReg_of_loadReg rfl hm rfl,
      setsReg_of_loadReg rfl hm (BitVec.ofNat_toNat _ _).symm⟩, fun hm => ?_,
    fun ha hm => ⟨setsReg_of_loadWordReg rfl ha hm hw, setsReg_of_loadWordReg rfl ha hm hw⟩, rfl⟩
  rw [← hh, ← toInt_half]
  exact ⟨setsReg_of_loadReg rfl hm rfl, setsReg_of_loadReg rfl hm (BitVec.ofNat_toNat _ _).symm⟩

/-- Settles O36: each store is its list of byte stores. -/
theorem storesWriteTheirBytesOnly : Obligations.StoresWriteTheirBytesOnly := by
  intro rt base offset s hwf a v
  refine ⟨fun hm => storesBytes_of_eq hwf (by simp) ?_,
    fun hm => storesBytes_of_eq hwf (by simp) ?_,
    fun hm ha => storesBytes_of_eq hwf (by simp) ?_⟩
  · rw [← writeByte_eq_storesFrom]
    exact access_of_mapped hm _
  · rw [← writeHalf_eq_storesFrom]
    exact access_of_mapped hm _
  · rw [← writeWord_eq_storesFrom]
    exact exec_sw_of_aligned ((wordAligned_iff a).2 ha) hm rt

/-- Settles O37: the store comes first, then the register write, which leaves memory alone. -/
theorem storeConditionalAlwaysSucceeds : Obligations.StoreConditionalAlwaysSucceeds := by
  intro rt base offset s hwf a ha hm
  refine ⟨_, wordAccess_of_aligned ((wordAligned_iff a).2 ha) hm _,
    readGpr_writeGpr_asRead _ rt _, fun k hk => ?_,
    (keeps_writeWord s a _).trans (keeps_writeGpr _ rt _)⟩
  rw [State.readByte_writeGpr]
  exact readByte_writeWord_byteAt hwf a _ hk

end Sys2Proof.Machine
end

section
/-! SUPPORT and proof for O38 to O41: what the merges of the unaligned loads and stores read and
write, by the address of each byte (spec/42_load_store.md R200 to R203, R210, R211). -/

namespace Sys2Proof.Machine

/-! ### Addresses around the aligned word -/

theorem alignDown_add (a : Word) (j : Nat) :
    alignDown a + BitVec.ofNat 32 (j + a.toNat % 4) = a + BitVec.ofNat 32 j := by
  rw [alignDown_eq]
  bv_omega

theorem alignDown_add_sub (a : Word) {j : Nat} (hj : j ≤ a.toNat % 4) :
    alignDown a + BitVec.ofNat 32 (a.toNat % 4 - j) = a - BitVec.ofNat 32 j := by
  rw [alignDown_eq]
  bv_omega

theorem toNat_sub_alignDown (c a : Word) :
    (c - alignDown a).toNat = ((c - a).toNat + a.toNat % 4) % 2 ^ 32 := by
  rw [alignDown_eq]
  bv_omega

theorem toNat_add_ofNat_sub (a : Word) {j : Nat} (hj : j < 2 ^ 32) :
    (a + BitVec.ofNat 32 j - a).toNat = j := by
  bv_omega

theorem add_ofNat_toNat_sub (a c : Word) : a + BitVec.ofNat 32 (c - a).toNat = c := by
  bv_omega

theorem mem_bytesFrom_iff {a c : Word} {n : Nat} (hn : n ≤ 2 ^ 32) :
    c ∈ bytesFrom a n ↔ (c - a).toNat < n := by
  simp only [bytesFrom, List.mem_map, List.mem_range]
  constructor
  · rintro ⟨j, hj, rfl⟩
    rwa [toNat_add_ofNat_sub a (by omega)]
  · exact fun h => ⟨_, h, add_ofNat_toNat_sub a c⟩

/-! ### Loads (R200, R201) -/

/-- The register value of `lwl` at `a` over the old value. -/
def State.leftLoaded (s : State) (a old : Word) : Word :=
  lwlMerge (byteOffset a) (s.readWord (alignDown a)) old

/-- The register value of `lwr` at `a` over the old value. -/
def State.rightLoaded (s : State) (a old : Word) : Word :=
  lwrMerge (byteOffset a) (s.readWord (alignDown a)) old

theorem byteAt_leftLoaded (s : State) (a old : Word) {j : Nat} (hj : j < 4) :
    byteAt (s.leftLoaded a old) j =
      if j < 4 - a.toNat % 4 then s.readByte (a + BitVec.ofNat 32 j) else byteAt old j := by
  rw [State.leftLoaded, byteOffset_eq, byteAt_lwlMerge (by omega) hj]
  refine ite_congr rfl (fun h => ?_) fun _ => rfl
  rw [byteAt_readWord s _ (by omega), alignDown_add]

theorem byteAt_rightLoaded (s : State) (a old : Word) {j : Nat} (hj : j < 4) :
    byteAt (s.rightLoaded a old) j =
      if 3 - a.toNat % 4 ≤ j then s.readByte (a - BitVec.ofNat 32 (3 - j)) else byteAt old j := by
  rw [State.rightLoaded, byteOffset_eq, byteAt_lwrMerge hj]
  refine ite_congr rfl (fun h => ?_) fun _ => rfl
  rw [byteAt_readWord s _ (by omega), ← alignDown_add_sub a (by omega),
    show a.toNat % 4 - (3 - j) = j - (3 - a.toNat % 4) by omega]

section
variable {s : State} {base : Reg} {offset : BitVec 16}
  (hm : s.mappedRange (alignDown (s.effAddr base offset)) 4 = true) (rt : Reg)
include hm

theorem setsReg_lwl : SetsReg (.lwl rt base offset) s rt
    (s.leftLoaded (s.effAddr base offset) (s.readGpr rt)) :=
  setsReg_of_eq (access_of_mapped hm _)

theorem setsReg_lwr : SetsReg (.lwr rt base offset) s rt
    (s.rightLoaded (s.effAddr base offset) (s.readGpr rt)) :=
  setsReg_of_eq (access_of_mapped hm _)

end

/-- `lwl` at `a` and `lwr` at `a + 3` cover the word at `a` between them. -/
theorem rightLoaded_leftLoaded (s : State) (a old : Word) :
    s.rightLoaded (a + 3#32) (s.leftLoaded a old) = s.readWord a := by
  refine word_ext_byteAt fun j hj => ?_
  rw [byteAt_rightLoaded _ _ _ hj, byteAt_leftLoaded _ _ _ hj, byteAt_readWord s a hj,
    show a + 3#32 - BitVec.ofNat 32 (3 - j) = a + BitVec.ofNat 32 j by bv_omega]
  split
  · rfl
  · exact if_pos (by bv_omega)

theorem leftLoaded_rightLoaded (s : State) (a old : Word) :
    s.leftLoaded a (s.rightLoaded (a + 3#32) old) = s.readWord a := by
  refine word_ext_byteAt fun j hj => ?_
  rw [byteAt_leftLoaded _ _ _ hj, byteAt_rightLoaded _ _ _ hj, byteAt_readWord s a hj,
    show a + 3#32 - BitVec.ofNat 32 (3 - j) = a + BitVec.ofNat 32 j by bv_omega]
  split
  · rfl
  · exact if_pos (by bv_omega)

/-! ### Two loads one after the other (R210) -/

theorem SetsReg.congr {i : Instr} {s : State} {rd : Reg} {v w : Word} (h : SetsReg i s rd v)
    (hv : rd ≠ 0 → v = w) : SetsReg i s rd w := by
  by_cases hrd : rd = 0
  · subst hrd
    exact h
  · exact hv hrd ▸ h

/-- Two instructions that set the same register, the second from what the first leaves. -/
theorem SetsReg.twice {i i' : Instr} {s : State} {rd : Reg} {v w : Word} (h : SetsReg i s rd v)
    (h' : ∀ t, t.readGpr rd = asRead rd v → Footprint.Keeps { regs := [rd] } s t →
      SetsReg i' t rd w) :
    ∃ t u, exec i s = .next t ∧ exec i' t = .next u ∧ u.readGpr rd = asRead rd w ∧
      Footprint.Keeps { regs := [rd] } s u := by
  obtain ⟨t, hit, hv, hst⟩ := h
  obtain ⟨u, hiu, hw, htu⟩ := h' t hv hst
  have hsu := hst.trans htu
  exact ⟨t, u, hit, hiu, hw, { hsu with regs := fun r hr => hsu.regs r (by simpa using hr) }⟩

section
variable {s t : State} {rt base : Reg} (hk : Footprint.Keeps { regs := [rt] } s t)
include hk

/-- A register write leaves effective addresses alone unless it reaches the base register. -/
theorem effAddr_of_keeps_reg (hb : rt = 0 ∨ rt ≠ base) (offset : BitVec 16) :
    t.effAddr base offset = s.effAddr base offset := by
  refine effAddr_congr ?_ offset
  by_cases h0 : base = 0
  · rw [h0, State.readGpr_zero, State.readGpr_zero]
  · refine hk.regs base fun hmem => ?_
    obtain rfl := List.mem_singleton.1 hmem
    exact hb.elim h0 fun h => h rfl

theorem readByte_of_keeps_reg (c : Word) : t.readByte c = s.readByte c :=
  hk.bytes c List.not_mem_nil

theorem leftLoaded_of_keeps_reg (a old : Word) : t.leftLoaded a old = s.leftLoaded a old := by
  rw [State.leftLoaded, readWord_congr (readByte_of_keeps_reg hk), State.leftLoaded]

theorem rightLoaded_of_keeps_reg (a old : Word) : t.rightLoaded a old = s.rightLoaded a old := by
  rw [State.rightLoaded, readWord_congr (readByte_of_keeps_reg hk), State.rightLoaded]

end

/-! ### Stores (R202, R203) -/

/-- The state after `swl` of `v` at `a`. -/
def State.leftStored (s : State) (a v : Word) : State :=
  s.writeWord (alignDown a) (swlMerge (byteOffset a) (s.readWord (alignDown a)) v)

/-- The state after `swr` of `v` at `a`. -/
def State.rightStored (s : State) (a v : Word) : State :=
  s.writeWord (alignDown a) (swrMerge (byteOffset a) (s.readWord (alignDown a)) v)

@[simp] theorem State.readGpr_leftStored (s : State) (a v : Word) (r : Reg) :
    (s.leftStored a v).readGpr r = s.readGpr r := readGpr_writeWord s _ _ r

@[simp] theorem State.readGpr_rightStored (s : State) (a v : Word) (r : Reg) :
    (s.rightStored a v).readGpr r = s.readGpr r := readGpr_writeWord s _ _ r

section
variable {s : State} {base : Reg} {offset : BitVec 16}
  (hm : s.mappedRange (alignDown (s.effAddr base offset)) 4 = true) (rt : Reg)
include hm

theorem exec_swl_of_mapped : exec (.swl rt base offset) s =
    .next (s.leftStored (s.effAddr base offset) (s.readGpr rt)) :=
  access_of_mapped hm _

theorem exec_swr_of_mapped : exec (.swr rt base offset) s =
    .next (s.rightStored (s.effAddr base offset) (s.readGpr rt)) :=
  access_of_mapped hm _

end

/-- Every byte of memory after a word store. -/
theorem readByte_writeWord_eq {s : State} (hwf : s.mem.wf = true) (a v c : Word) :
    (s.writeWord a v).readByte c =
      if (c - a).toNat < 4 then byteAt v (c - a).toNat else s.readByte c := by
  split
  · next h =>
    have hr := readByte_writeWord_byteAt hwf a v h
    rwa [add_ofNat_toNat_sub] at hr
  · next h => exact (keeps_writeWord s a v).bytes c (mt (mem_bytesFrom_iff (by omega)).1 h)

/-- The byte at an address within a word of memory. -/
theorem byteAt_readWord_sub (s : State) {a c : Word} (h : (c - a).toNat < 4) :
    byteAt (s.readWord a) (c - a).toNat = s.readByte c := by
  rw [byteAt_readWord s a h, add_ofNat_toNat_sub]

section
variable {s : State} (hwf : s.mem.wf = true) (a v : Word)
include hwf

theorem readByte_leftStored (c : Word) : (s.leftStored a v).readByte c =
    if (c - a).toNat < 4 - a.toNat % 4 then byteAt v (c - a).toNat else s.readByte c := by
  have hd := toNat_sub_alignDown c a
  rw [State.leftStored, byteOffset_eq, readByte_writeWord_eq hwf]
  split
  · next h =>
    rw [byteAt_swlMerge (by omega) h, byteAt_readWord_sub s h]
    refine ite_congr (propext (by omega)) (fun hk => ?_) fun _ => rfl
    rw [show (c - alignDown a).toNat - a.toNat % 4 = (c - a).toNat by omega]
  · next h => exact (if_neg (by omega)).symm

theorem readByte_rightStored (c : Word) : (s.rightStored a v).readByte c =
    if (c - alignDown a).toNat ≤ a.toNat % 4 then
      byteAt v ((c - alignDown a).toNat + (3 - a.toNat % 4)) else s.readByte c := by
  rw [State.rightStored, byteOffset_eq, readByte_writeWord_eq hwf]
  split
  · next h => rw [byteAt_swrMerge (by omega) h, byteAt_readWord_sub s h]
  · next h => exact (if_neg (by omega)).symm

theorem readByte_leftStored_add {j : Nat} (hj : j < 4 - a.toNat % 4) :
    (s.leftStored a v).readByte (a + BitVec.ofNat 32 j) = byteAt v j := by
  rw [readByte_leftStored hwf, toNat_add_ofNat_sub a (by omega), if_pos hj]

theorem readByte_leftStored_other {c : Word} (hc : c ∉ bytesFrom a (4 - a.toNat % 4)) :
    (s.leftStored a v).readByte c = s.readByte c := by
  rw [readByte_leftStored hwf]
  exact if_neg (mt (mem_bytesFrom_iff (by omega)).2 hc)

theorem readByte_rightStored_sub {j : Nat} (hj : j ≤ a.toNat % 4) :
    (s.rightStored a v).readByte (a - BitVec.ofNat 32 j) = byteAt v (3 - j) := by
  rw [readByte_rightStored hwf, ← alignDown_add_sub a hj, toNat_add_ofNat_sub _ (by omega),
    if_pos (by omega), show a.toNat % 4 - j + (3 - a.toNat % 4) = 3 - j by omega]

theorem readByte_rightStored_other {c : Word}
    (hc : c ∉ bytesFrom (alignDown a) (a.toNat % 4 + 1)) :
    (s.rightStored a v).readByte c = s.readByte c := by
  rw [readByte_rightStored hwf]
  exact if_neg (mt Nat.lt_succ_of_le (mt (mem_bytesFrom_iff (by omega)).2 hc))

/-- `swl` at `a` and `swr` at `a + 3` leave the memory that one word store at `a` leaves. -/
theorem readByte_rightStored_leftStored (c : Word) :
    ((s.leftStored a v).rightStored (a + 3#32) v).readByte c = (s.writeWord a v).readByte c := by
  have hd := toNat_sub_alignDown c (a + 3#32)
  have hwf' : (s.leftStored a v).mem.wf = true := writeWord_mem_wf hwf _ _
  rw [readByte_rightStored hwf', readByte_leftStored hwf, readByte_writeWord_eq hwf]
  split
  · next h =>
    have he : (c - alignDown (a + 3#32)).toNat + (3 - (a + 3#32).toNat % 4) = (c - a).toNat := by
      bv_omega
    rw [he, if_pos (by omega)]
  · next h => exact ite_congr (propext (by bv_omega)) (fun _ => rfl) fun _ => rfl

end

/-! ### The obligations -/

/-- Settles O38: the bytes of the two merges, by address. -/
theorem unalignedLoadsMergeBytewise : Obligations.UnalignedLoadsMergeBytewise := by
  intro rt base offset s a k hm
  rw [← alignDown_eq] at hm
  exact ⟨⟨_, setsReg_lwl hm rt, fun j hj => byteAt_leftLoaded s a _ hj⟩,
    ⟨_, setsReg_lwr hm rt, fun j hj => byteAt_rightLoaded s a _ hj⟩⟩

/-- Settles O39: the second load merges into what the first left, and reads the same memory at an
address that the first did not change. -/
theorem unalignedLoadPairReconstructsTheWord :
    Obligations.UnalignedLoadPairReconstructsTheWord := by
  intro rt base offset offset' s hb a ha hm hm'
  rw [← ha] at hm'
  refine ⟨(setsReg_lwl hm rt).twice fun t ht hk => ?_, (setsReg_lwr hm' rt).twice fun t ht hk => ?_⟩
  · rw [← effAddr_of_keeps_reg hk hb, ← mappedRange_congr hk.params] at hm'
    refine (setsReg_lwr hm' rt).congr fun hrt => ?_
    rw [ht, asRead, if_neg hrt, rightLoaded_of_keeps_reg hk, effAddr_of_keeps_reg hk hb, ha]
    exact rightLoaded_leftLoaded s a _
  · have he : t.effAddr base offset = a := effAddr_of_keeps_reg hk hb offset
    rw [← he, ← mappedRange_congr hk.params] at hm
    refine (setsReg_lwl hm rt).congr fun hrt => ?_
    rw [ht, asRead, if_neg hrt, leftLoaded_of_keeps_reg hk, he, ha]
    exact leftLoaded_rightLoaded s a _

/-- Settles O40: the bytes of the two merges, by address, within the aligned word. -/
theorem unalignedStoresMergeBytewise : Obligations.UnalignedStoresMergeBytewise := by
  intro rt base offset s hwf a k w hm
  have hw : alignDown a = w := alignDown_eq a
  rw [← hw] at hm ⊢
  exact ⟨⟨_, exec_swl_of_mapped hm rt, fun _ => readByte_leftStored_add hwf a _,
      fun _ => readByte_leftStored_other hwf a _, keeps_writeWord s _ _⟩,
    ⟨_, exec_swr_of_mapped hm rt, fun _ => readByte_rightStored_sub hwf a _,
      fun _ => readByte_rightStored_other hwf a _, keeps_writeWord s _ _⟩⟩

/-- Settles O41: the pair leaves the memory that a word store leaves, and no register changes. -/
theorem unalignedStorePairWritesTheWord : Obligations.UnalignedStorePairWritesTheWord := by
  intro rt base offset offset' s hwf a ha hm hm'
  have hr := readByte_rightStored_leftStored hwf a (s.readGpr rt)
  have he : exec (.swr rt base offset') (s.leftStored a (s.readGpr rt)) =
      .next ((s.leftStored a (s.readGpr rt)).rightStored (a + 3#32) (s.readGpr rt)) := by
    rw [← ha] at hm' ⊢
    exact exec_swr_of_mapped (s := s.leftStored a (s.readGpr rt)) hm' rt
  exact ⟨_, _, exec_swl_of_mapped hm rt, he,
    fun j hj => (hr _).trans (readByte_writeWord_byteAt hwf a _ hj),
    fun c hc => (hr c).trans ((keeps_writeWord s a _).bytes c hc), fun r => by simp⟩

end Sys2Proof.Machine
end

section
/-! SUPPORT and proof for O42 to O44: double loads and stores as two aligned word accesses
(spec/42_load_store.md R206 to R209). -/

namespace Sys2Proof.Machine

/-- The checks of a double access that passes (R191). -/
theorem pairAccess_of_aligned {s : State} {n : Slot} {a : Word} (hn : n ≠ 31)
    (ha : wordAligned a = true) (hm : s.mappedRange a 8 = true) (go : Result) :
    s.withPair n (s.wordAccess a 8 go) = go :=
  (withPair_of_ne hn _).trans (wordAccess_of_aligned ha hm go)

/-! ### Loads (R206, R208) -/

/-- The state after a double load. -/
def State.pairLoaded (s : State) (n : Slot) (a : Word) : State :=
  (s.writeSlot (n + 1) (s.readWord a)).writeSlot n (s.readWord (a + 4#32))

@[simp] theorem State.readGpr_pairLoaded (s : State) (n : Slot) (a : Word) (r : Reg) :
    (s.pairLoaded n a).readGpr r = s.readGpr r := rfl

@[simp] theorem State.params_pairLoaded (s : State) (n : Slot) (a : Word) :
    (s.pairLoaded n a).params = s.params := rfl

@[simp] theorem State.readByte_pairLoaded (s : State) (n : Slot) (a c : Word) :
    (s.pairLoaded n a).readByte c = s.readByte c := rfl

theorem loadPair_of_aligned {s : State} {n : Slot} {a : Word} (hn : n ≠ 31)
    (ha : wordAligned a = true) (hm : s.mappedRange a 8 = true) :
    loadPair n a s = .next (s.pairLoaded n a) :=
  pairAccess_of_aligned hn ha hm _

theorem readSlot_pairLoaded (s : State) (n : Slot) (a : Word) :
    (s.pairLoaded n a).readSlot n = s.readWord (a + 4#32) :=
  (State.readSlot_writeSlot _ n n _).trans (if_pos rfl)

theorem readSlot_succ_pairLoaded (s : State) {n : Slot} (hn : n ≠ 31) (a : Word) :
    (s.pairLoaded n a).readSlot (n + 1) = s.readWord a := by
  have hne := (State.succ_ne_of_pair (decide_eq_true hn)).1
  rw [State.pairLoaded, State.readSlot_writeSlot, if_neg hne, State.readSlot_writeSlot, if_pos rfl]

theorem readPair_pairLoaded (s : State) {n : Slot} (hn : n ≠ 31) (a : Word) :
    (s.pairLoaded n a).readPair n = s.readWord a ++ s.readWord (a + 4#32) := by
  rw [State.readPair, readSlot_succ_pairLoaded s hn, readSlot_pairLoaded]

theorem keeps_pairLoaded (s : State) (n : Slot) (a : Word) :
    Footprint.Keeps { slots := [n, n + 1] } s (s.pairLoaded n a) := by
  have hk := (keeps_writeSlot s (n + 1) (s.readWord a)).trans
    (keeps_writeSlot _ n (s.readWord (a + 4#32)))
  exact { hk with slots := fun m hm => hk.slots m (by simp_all) }

/-- A double load that completes. -/
theorem fillsPair_of_loadPair {i : Instr} {s : State} {n : Slot} {a : Word}
    (he : exec i s = loadPair n a s) (hn : n ≠ 31) (ha : a.toNat % 4 = 0)
    (hm : s.mappedRange a 8 = true) : ∃ t, exec i s = .next t ∧
      t.readSlot (n + 1) = s.readWord a ∧ t.readSlot n = s.readWord (a + 4#32) ∧
      t.readPair n = s.readWord a ++ s.readWord (a + 4#32) ∧
      Footprint.Keeps { slots := [n, n + 1] } s t :=
  ⟨_, he.trans (loadPair_of_aligned hn ((wordAligned_iff a).2 ha) hm),
    readSlot_succ_pairLoaded s hn a, readSlot_pairLoaded s n a, readPair_pairLoaded s hn a,
    keeps_pairLoaded s n a⟩

/-! ### Stores (R207, R209) -/

/-- The state after a double store. -/
def State.pairStored (s : State) (n : Slot) (a : Word) : State :=
  (s.writeWord a (s.readSlot (n + 1))).writeWord (a + 4#32) (s.readSlot n)

@[simp] theorem State.readGpr_pairStored (s : State) (n : Slot) (a : Word) (r : Reg) :
    (s.pairStored n a).readGpr r = s.readGpr r := by
  simp [pairStored]

@[simp] theorem State.params_pairStored (s : State) (n : Slot) (a : Word) :
    (s.pairStored n a).params = s.params := by
  simp [pairStored]

theorem storePair_of_aligned {s : State} {n : Slot} {a : Word} (hn : n ≠ 31)
    (ha : wordAligned a = true) (hm : s.mappedRange a 8 = true) :
    storePair n a s = .next (s.pairStored n a) :=
  pairAccess_of_aligned hn ha hm _

/-- A double store is eight byte stores from one address on, slot `n + 1` first. -/
theorem pairStored_eq_storesFrom (s : State) (n : Slot) (a : Word) :
    s.pairStored n a = s.storeBytes (storesFrom a
      ((List.range 4).map (byteAt (s.readSlot (n + 1))) ++
        (List.range 4).map (byteAt (s.readSlot n)))) := by
  simp [State.pairStored, State.writeWord, List.range_succ, storesFrom, byteAt, BitVec.add_assoc]

/-! ### Round trips -/

section
variable {s : State} {n : Slot} {base : Reg} {offset : BitVec 16} {a : Word}
  (he : s.effAddr base offset = a) (hn : n ≠ 31) (ha : wordAligned a = true)
  (hm : s.mappedRange a 8 = true)
include he hn ha hm

theorem exec_ldc1_of_aligned : exec (.ldc1 n base offset) s = .next (s.pairLoaded n a) := by
  subst he
  exact loadPair_of_aligned hn ha hm

theorem exec_sdc1_of_aligned : exec (.sdc1 n base offset) s = .next (s.pairStored n a) := by
  subst he
  exact storePair_of_aligned hn ha hm

end

/-- A double load reads back the pair just stored at its address. -/
theorem readWord_pairStored {s : State} (hwf : s.mem.wf = true) (n : Slot) (a : Word) :
    (s.pairStored n a).readWord a = s.readSlot (n + 1) ∧
      (s.pairStored n a).readWord (a + 4#32) = s.readSlot n := by
  have hwf' := writeWord_mem_wf hwf a (s.readSlot (n + 1))
  refine ⟨word_ext_byteAt fun j hj => ?_, readWord_writeWord hwf' _ _⟩
  rw [byteAt_readWord _ a hj, State.pairStored, readByte_writeWord_eq hwf', if_neg (by bv_omega),
    readByte_writeWord_byteAt hwf a _ hj]

/-- Storing the word that is in memory leaves every byte as it was. -/
theorem readByte_writeWord_of_readWord {s : State} (hwf : s.mem.wf = true) {a v : Word}
    (hv : s.readWord a = v) (c : Word) : (s.writeWord a v).readByte c = s.readByte c := by
  subst hv
  rw [readByte_writeWord_eq hwf]
  split
  · next h => exact byteAt_readWord_sub s h
  · rfl

/-- A double store of what a double load took from the same address leaves memory as it was. -/
theorem readByte_pairStored_pairLoaded {s : State} (hwf : s.mem.wf = true) {n : Slot}
    (hn : n ≠ 31) (a c : Word) :
    ((s.pairLoaded n a).pairStored n a).readByte c = s.readByte c := by
  have hwf' : (s.pairLoaded n a).mem.wf = true := hwf
  have hr := readWord_congr (s.readByte_pairLoaded n a)
  have h1 := readByte_writeWord_of_readWord hwf' (hr a)
  have h2 := readByte_writeWord_of_readWord (writeWord_mem_wf hwf' a (s.readWord a))
    ((readWord_congr h1 _).trans (hr (a + 4#32)))
  rw [State.pairStored, readSlot_succ_pairLoaded s hn, readSlot_pairLoaded, h2, h1,
    State.readByte_pairLoaded]

/-! ### The obligations -/

/-- Settles O42: both forms are `loadPair` at their effective address. -/
theorem doubleLoadsFillThePair : Obligations.DoubleLoadsFillThePair :=
  fun _ _ _ _ _ hn => ⟨fillsPair_of_loadPair rfl hn, fillsPair_of_loadPair rfl hn⟩

/-- Settles O43: both forms are `storePair` at their effective address. -/
theorem doubleStoresWriteThePair : Obligations.DoubleStoresWriteThePair := by
  intro n base idx offset s hn hwf a x bytes
  have h {i : Instr} {b : Word} (he : exec i s = storePair n b s) (hb : b.toNat % 4 = 0)
      (hm : s.mappedRange b 8 = true) : StoresBytes i s b bytes := by
    refine storesBytes_of_eq hwf (by simp [bytes]) (he.trans ?_)
    rw [storePair_of_aligned hn ((wordAligned_iff b).2 hb) hm, pairStored_eq_storesFrom]
  exact ⟨h rfl, h rfl⟩

/-- Settles O44, by the two round trips; neither access changes the base register or MEM_MAP. -/
theorem doubleStoreThenLoadKeepsEveryPattern :
    Obligations.DoubleStoreThenLoadKeepsEveryPattern := by
  intro n m base offset s hn hm hwf ha hmap
  generalize hs : s.effAddr base offset = a at ha hmap
  have hst := (effAddr_congr (s.readGpr_pairStored n a base) offset).trans hs
  have hlt := (effAddr_congr (s.readGpr_pairLoaded n a base) offset).trans hs
  have hstm := (mappedRange_congr (s.params_pairStored n a) a 8).trans hmap
  have hltm := (mappedRange_congr (s.params_pairLoaded n a) a 8).trans hmap
  have hp : ((s.pairStored n a).pairLoaded m a).readPair m = s.readPair n := by
    obtain ⟨h1, h0⟩ := readWord_pairStored hwf n a
    rw [readPair_pairLoaded _ hm, h1, h0, State.readPair]
  exact ⟨⟨_, _, exec_sdc1_of_aligned hs hn ha hmap, exec_ldc1_of_aligned hst hm ha hstm, hp⟩,
    ⟨_, _, exec_ldc1_of_aligned hs hn ha hmap, exec_sdc1_of_aligned hlt hn ha hltm,
      readByte_pairStored_pairLoaded hwf hn a⟩⟩

end Sys2Proof.Machine
end

section
/-! SUPPORT and proof for O45 to O48: the jumps and branches. Each is a write of `npc`, after a write
of the link value or without one (spec/43_control_flow.md R220, R221), and the lemmas here say what
the target is as a number or in bits. -/

namespace Sys2Proof.Machine

/-! ### Targets (R222, R240) -/

/-- Bits of the mask that keeps the region of a jump. -/
theorem regionMask_bit : ∀ i < 32, (0xF0000000#32).getLsbD i = decide (28 ≤ i) := by decide

theorem jumpTarget_eq_masked (pc : Word) (index : BitVec 26) :
    jumpTarget pc index = (pc &&& 0xF0000000#32) ||| (index.setWidth 32 <<< 2) := by
  apply BitVec.eq_of_getLsbD_eq
  intro i hi
  rw [jumpTarget, BitVec.getLsbD_append, BitVec.getLsbD_append, BitVec.getLsbD_or,
    BitVec.getLsbD_and, regionMask_bit i hi, BitVec.getLsbD_shiftLeft, BitVec.getLsbD_setWidth]
  by_cases h2 : i < 2
  · simp [h2, show ¬ 28 ≤ i by omega]
  · by_cases h28 : i < 28
    · simp [h2, hi, show ¬ 28 ≤ i by omega, show i - 2 < 26 by omega, show i - 2 < 32 by omega]
    · rw [BitVec.getLsbD_of_ge index (i - 2) (by omega)]
      simp [h2, hi, show 28 ≤ i by omega, show ¬ i - 2 < 26 by omega, show i - 2 - 26 < 4 by omega,
        show 28 + (i - 2 - 26) = i by omega]

theorem branchTarget_eq_ofInt (pc : Word) (offset : BitVec 16) :
    branchTarget pc offset = pc + BitVec.ofInt 32 (4 * offset.toInt) := by
  have h : sext16 offset <<< 2 = BitVec.ofInt 32 (4 * offset.toInt) := by
    rw [← toInt_sext16, BitVec.ofInt_mul, BitVec.ofInt_toInt, BitVec.mul_comm]
    exact BitVec.shiftLeft_eq_mul_twoPow _ 2
  rw [branchTarget, h]

/-! ### Predicates (R241) -/

theorem isNegative_eq_msb (v : Word) : isNegative v = v.msb := BitVec.msb_eq_toInt.symm

theorem isNegative_iff (v : Word) : isNegative v = true ↔ v.toInt < 0 := decide_eq_true_iff

theorem not_isNegative_iff (v : Word) : (!isNegative v) = true ↔ 0 ≤ v.toInt := by
  simp [isNegative]

theorem isNonPositive_iff (v : Word) : isNonPositive v = true ↔ v.toInt ≤ 0 := decide_eq_true_iff

theorem not_isNonPositive_iff (v : Word) : (!isNonPositive v) = true ↔ 0 < v.toInt := by
  simp [isNonPositive]

/-! ### Branches without a link (R226 to R231, R234 to R237) -/

theorem branchesWhen_of_branchIf {i : Instr} {s : State} {c : Bool} {p : Prop}
    {offset : BitVec 16} (he : exec i s = branchIf c offset s) (hp : c = true ↔ p) :
    BranchesWhen i s p offset := by
  rw [BranchesWhen, ← branchTarget_eq_ofInt, ← hp, he]
  obtain ⟨hc, h⟩ | ⟨hc, h⟩ := branchIf_cases c offset s
  · exact ⟨fun _ => h, fun hn => absurd hc hn⟩
  · exact ⟨fun hy => absurd hy (by simp [hc]), fun _ => h⟩

/-! ### Links (R221, R223, R225, R232, R233) -/

theorem keeps_redirect (s : State) (target : Word) :
    Footprint.Keeps { npc := true } s (s.redirect target) := by
  constructor <;> simp

/-- A behaviour that links and writes `npc` changes nothing else; the two writes do not disturb each
other. -/
theorem linksAndRedirects {i : Instr} {s : State} {rd : Reg} {target : Word} (hrd : rd ≠ 0)
    (he : exec i s = .next ((s.writeGpr rd s.linkValue).redirect target)) :
    ∃ t, exec i s = .next t ∧ t.readGpr rd = s.pc + 4#32 ∧ t.npc = target ∧
      Footprint.Keeps { regs := [rd], npc := true } s t := by
  refine ⟨_, he, ?_, rfl, (keeps_writeGpr s rd s.linkValue).trans (keeps_redirect _ target)⟩
  rw [State.readGpr_redirect, readGpr_writeGpr_asRead, asRead, if_neg hrd, State.linkValue]

/-- A linking branch links taken or not: one not taken writes `npc` as it was. -/
theorem linksAndBranches {i : Instr} {s : State} {c : Bool} {p : Prop} [Decidable p]
    {offset : BitVec 16} (he : exec i s = branchLinkIf c offset s) (hp : c = true ↔ p) :
    ∃ t, exec i s = .next t ∧ t.readGpr 31 = s.pc + 4#32 ∧
      t.npc = (if p then s.pc + BitVec.ofInt 32 (4 * offset.toInt) else s.npc) ∧
      Footprint.Keeps { regs := [31], npc := true } s t := by
  rw [← branchTarget_eq_ofInt, ← if_congr hp rfl rfl]
  refine linksAndRedirects (by decide) (he.trans ?_)
  obtain ⟨hc, h⟩ | ⟨hc, h⟩ := branchLinkIf_cases c offset s
  · rw [if_pos hc]
    exact h
  · rw [if_neg (by simp [hc])]
    exact h

theorem linkDest_eq (rd : Reg) : linkDest rd = if rd = 0 then 31 else rd := rfl

theorem linkDest_ne_zero (rd : Reg) : linkDest rd ≠ 0 := by
  rw [linkDest_eq]
  split
  · decide
  · assumption

/-! ### The match columns (30_encoding.md R90) -/

/-- A J-form word under the mask of its opcode. -/
theorem encodedAs_layoutJ {i : Instr} {op : BitVec 6} {index : BitVec 26}
    (h : encode i = layoutJ op index) : EncodedAs i 0xFC000000#32 (layoutJ op 0#26) := by
  simp [EncodedAs, h]

/-- An R-form word whose one operand is `rs` under the mask of everything but that operand. -/
theorem encodedAs_special_rsOnly {i : Instr} {rs : Reg} {f : BitVec 6}
    (h : encode i = special rs 0 0 f) : EncodedAs i 0xFC1FFFFF#32 (special 0 0 0 f) := by
  simp [EncodedAs, h, special]

/-! ### The obligations -/

/-- Settles O47: each is `branchIf` on a test that decides its predicate. -/
theorem branchesFollowTheirPredicate : Obligations.BranchesFollowTheirPredicate := by
  intro rs rt offset s a
  have hset : isNegative a = true ↔ a.msb = true := by rw [isNegative_eq_msb]
  have hclear : (!isNegative a) = true ↔ a.msb = false := by
    rw [isNegative_eq_msb, Bool.not_eq_true']
  have hcc : (!s.cc) = true ↔ s.cc = false := by rw [Bool.not_eq_true']
  exact ⟨branchesWhen_of_branchIf rfl beq_iff_eq, branchesWhen_of_branchIf rfl bne_iff_ne,
    branchesWhen_of_branchIf rfl (isNonPositive_iff a),
    branchesWhen_of_branchIf rfl (not_isNonPositive_iff a),
    branchesWhen_of_branchIf rfl hset, branchesWhen_of_branchIf rfl hclear,
    branchesWhen_of_branchIf rfl hcc, branchesWhen_of_branchIf rfl Iff.rfl,
    branchesWhen_of_branchIf rfl hcc, branchesWhen_of_branchIf rfl Iff.rfl⟩

/-- Settles O48: the link always, the target by the test on the value before the link write. -/
theorem linkingBranches : Obligations.LinkingBranches := fun _ _ _ =>
  ⟨linksAndBranches rfl (isNegative_iff _), linksAndBranches rfl (not_isNegative_iff _)⟩

/-- Settles O45: both are one write of `npc`, `j` with the target in the masked form. -/
theorem jumpAndJumpRegister : Obligations.JumpAndJumpRegister := by
  intro index rs s
  rw [← jumpTarget_eq_masked]
  exact ⟨⟨encodedAs_layoutJ (op := 0x02#6) rfl, rfl⟩,
    ⟨encodedAs_special_rsOnly (f := 0x08#6) rfl, rfl⟩⟩

/-- Settles O46: no link destination is register 0, and `jalr` reads its target before it links. -/
theorem linkingJumps : Obligations.LinkingJumps := by
  intro index rd rs s
  rw [← jumpTarget_eq_masked, ← linkDest_eq]
  exact ⟨linksAndRedirects (by decide) rfl, linksAndRedirects (linkDest_ne_zero rd) rfl⟩

end Sys2Proof.Machine
end

section
/-! SUPPORT and proof for O53, O57 and O58: the bit operations on pairs and the transfers between
registers and slots (spec/44_fp_coprocessor.md R258, R259, R265 to R268). -/

namespace Sys2Proof.Machine

/-! ### Completing with a pair written, or a slot -/

/-- A meaning that only writes a pair. -/
theorem setsDouble_of_writePair {i : Instr} {s : State} {fd : Slot} {v : Double}
    {p : Double → Prop} (hd : fd ≠ 31) (he : exec i s = .next (s.writePair fd v)) (hp : p v) :
    SetsDouble i s fd p := by
  refine ⟨_, he, ?_, keeps_writePair s fd v⟩
  rwa [State.readPair_writePair_same s (decide_eq_true hd)]

theorem setsDouble_of_bitOp {i : Instr} {s : State} {fd fs : Slot} {op : Double → Double}
    {p : Double → Prop} (he : exec i s = bitOp op fd fs s) (hd : fd ≠ 31) (hs : fs ≠ 31)
    (hp : p (op (s.readPair fs))) : SetsDouble i s fd p :=
  setsDouble_of_writePair hd (he.trans (withPairs_of_ne hs hd _)) hp

theorem readSlot_writeSlot_same (s : State) (n : Slot) (v : Word) :
    (s.writeSlot n v).readSlot n = v :=
  (State.readSlot_writeSlot s n n v).trans (if_pos rfl)

/-! ### The words of a pair (R250) -/

theorem extract_high_readPair (s : State) (n : Slot) :
    (s.readPair n).extractLsb' 32 32 = s.readSlot (n + 1) :=
  (extract_append_high _ _ 0 32).trans BitVec.extractLsb'_eq_self

theorem extract_low_readPair (s : State) (n : Slot) :
    (s.readPair n).extractLsb' 0 32 = s.readSlot n :=
  extract_append_low _ _

theorem readPair_writeSlot_succ (s : State) {n : Slot} (hn : n ≠ 31) (v : Word) :
    (s.writeSlot (n + 1) v).readPair n = v ++ s.readSlot n := by
  have hne := (State.succ_ne_of_pair (decide_eq_true hn)).2
  rw [State.readPair, readSlot_writeSlot_same, State.readSlot_writeSlot, if_neg hne]

/-- A transfer's word under the mask of everything but its two operands (30_encoding.md R86). -/
theorem encodedAs_transfer {i : Instr} {fmt : BitVec 5} {rt : Reg} {fs : Slot}
    (h : encode i = cop1 fmt rt fs 0 0#6) :
    EncodedAs i 0xFFE007FF#32 (cop1 fmt 0 0 0 0#6) := by
  simp [EncodedAs, h, cop1]

/-! ### The obligations -/

/-- Settles O57: each transfer is one write. -/
theorem wordTransfers : Obligations.WordTransfers := fun rt fs s =>
  ⟨⟨encodedAs_transfer (fmt := 0x00#5) rfl, setsReg_of_eq rfl⟩,
    ⟨encodedAs_transfer (fmt := 0x04#5) rfl, _, rfl,
      readSlot_writeSlot_same s fs (s.readGpr rt), keeps_writeSlot s fs (s.readGpr rt)⟩⟩

/-- Settles O58: the upper word of a pair is its slot `fs + 1`. -/
theorem highWordTransfers : Obligations.HighWordTransfers := by
  intro rt fs s
  refine ⟨fun hs => ⟨?_, _, withPair_of_ne hs _, ?_, keeps_writeSlot s (fs + 1) (s.readGpr rt)⟩, ?_⟩
  · rw [extract_high_readPair]
    exact setsReg_of_eq (withPair_of_ne hs _)
  · rw [readPair_writeSlot_succ s hs, extract_low_readPair]
  · rintro rfl
    exact ⟨faults_of_pair31 (List.mem_singleton.2 rfl), faults_of_pair31 (List.mem_singleton.2 rfl)⟩

/-- Settles O53: both are `bitOp`, which reads its source before it writes. -/
theorem negateFlipsTheSignAndMoveCopies : Obligations.NegateFlipsTheSignAndMoveCopies :=
  fun _ _ _ hd hs => ⟨setsDouble_of_bitOp rfl hd hs ⟨fNeg_sign _, fNeg_magBits _⟩,
    setsDouble_of_bitOp rfl hd hs rfl⟩

end Sys2Proof.Machine
end

section
/-! SUPPORT and proof for O49 to O52: what the double arithmetic computes on finite operands, on
infinities and zeros, and on NaNs and invalid operations (spec/44_fp_coprocessor.md R252 to
R257). -/

namespace Sys2Proof.Machine

/-! ### Classes of patterns -/

theorem fIsFinite_iff (v : Double) : fIsFinite v = true ↔ fIsNaN v = false ∧ fIsInf v = false := by
  by_cases he : fExp v = 2047 <;> by_cases hf : fFrac v = 0 <;>
    simp [fIsFinite, fIsNaN, fIsInf, he, hf]

theorem fIsFinite_iff_magBits_lt (v : Double) : fIsFinite v = true ↔ fMagBits v < infMag := by
  have he := fExp_lt v
  have hf := fFrac_lt v
  rw [fIsFinite, bne_iff_ne, fMagBits_split, infMag]
  omega

theorem fIsNaN_of_isFinite {v : Double} (h : fIsFinite v = true) : fIsNaN v = false :=
  ((fIsFinite_iff v).1 h).1

theorem fIsInf_of_isFinite {v : Double} (h : fIsFinite v = true) : fIsInf v = false :=
  ((fIsFinite_iff v).1 h).2

@[simp] theorem fIsInf_infinityOf (x : Bool) : fIsInf (infinityOf x) = true := by
  revert x; decide

@[simp] theorem fIsNaN_infinityOf (x : Bool) : fIsNaN (infinityOf x) = false := by
  revert x; decide

@[simp] theorem fSign_infinityOf (x : Bool) : fSign (infinityOf x) = x := by
  revert x; decide

@[simp] theorem fNeg_infinityOf (x : Bool) : fNeg (infinityOf x) = infinityOf (!x) := by
  revert x; decide

@[simp] theorem fIsInf_zeroOf (x : Bool) : fIsInf (zeroOf x) = false := by
  revert x; decide

@[simp] theorem fIsNaN_zeroOf (x : Bool) : fIsNaN (zeroOf x) = false := by
  revert x; decide

@[simp] theorem fMag_zeroOf (x : Bool) : fMag (zeroOf x) = 0 := by
  revert x; decide

/-! ### Finite operands (R252) -/

theorem unitsPerOne_pos : 0 < unitsPerOne := pow_pos two_pos _

/-- A rounded magnitude under a sign is a correctly rounded pattern of that sign. -/
theorem fPack_roundMag (sign : Bool) (num : Nat) {den : Nat} (hd : 0 < den) :
    fSign (fPack sign (roundMag num den)) = sign ∧
      IsNearestEven num den (fMagBits (fPack sign (roundMag num den))) := by
  have hlt := roundMag_lt_two_pow num den hd
  rw [fMagBits_fPack sign _ hlt]
  exact ⟨fSign_fPack sign _ hlt, roundMag_nearest num den hd⟩

section
variable {a b : Double} (ha : fIsFinite a = true) (hb : fIsFinite b = true)
include ha hb

theorem fAdd_rounded : ∃ v, fAdd a b = .value v ∧
    if fValue a + fValue b = 0 then v = zeroOf (fSign a && fSign b)
    else fSign v = decide (fValue a + fValue b < 0) ∧
      IsNearestEven (fValue a + fValue b).natAbs 1 (fMagBits v) := by
  simp only [fAdd, fIsNaN_of_isFinite ha, fIsNaN_of_isFinite hb, fIsInf_of_isFinite ha,
    fIsInf_of_isFinite hb, Bool.or_self, Bool.false_eq_true, if_false]
  split
  · exact ⟨_, rfl, (zeroOf_eq_fPack _).symm⟩
  · exact ⟨_, rfl, fPack_roundMag _ _ one_pos⟩

/-- A difference is the sum with the second operand negated (R255). -/
theorem fSub_rounded : ∃ v, fSub a b = .value v ∧
    if fValue a - fValue b = 0 then v = zeroOf (fSign a && !fSign b)
    else fSign v = decide (fValue a - fValue b < 0) ∧
      IsNearestEven (fValue a - fValue b).natAbs 1 (fMagBits v) := by
  have h := fAdd_rounded ha ((fNeg_fin b).trans hb)
  rwa [fNeg_value, fNeg_sign, ← sub_eq_add_neg] at h

theorem fMul_rounded : ∃ v, fMul a b = .value v ∧ fSign v = (fSign a != fSign b) ∧
    IsNearestEven (fMag a * fMag b) unitsPerOne (fMagBits v) := by
  refine ⟨_, ?_, fPack_roundMag _ _ unitsPerOne_pos⟩
  simp only [fMul, fIsNaN_of_isFinite ha, fIsNaN_of_isFinite hb, fIsInf_of_isFinite ha,
    fIsInf_of_isFinite hb, Bool.or_self, Bool.false_eq_true, if_false]

theorem fDiv_rounded (h0 : fMagBits b ≠ 0) : ∃ v, fDiv a b = .value v ∧
    fSign v = (fSign a != fSign b) ∧
    IsNearestEven (fMag a * unitsPerOne) (fMag b) (fMagBits v) := by
  have hm : fMag b ≠ 0 := mt (fMag_eq_zero_iff b).1 h0
  refine ⟨_, ?_, fPack_roundMag _ _ (Nat.pos_of_ne_zero hm)⟩
  simp only [fDiv, fIsNaN_of_isFinite ha, fIsNaN_of_isFinite hb, fIsInf_of_isFinite ha,
    fIsInf_of_isFinite hb, hm, Bool.or_self, Bool.false_eq_true, if_false]

end

/-! ### NaNs and invalid operations (R253) -/

/-- Every operation on a NaN gives some NaN. -/
theorem arithmetic_of_isNaN {a b : Double} (h : fIsNaN a = true ∨ fIsNaN b = true) :
    fAdd a b = .anyNaN ∧ fSub a b = .anyNaN ∧ fMul a b = .anyNaN ∧ fDiv a b = .anyNaN := by
  have h' : (fIsNaN a || fIsNaN b) = true := (Bool.or_eq_true _ _).mpr h
  simp [fAdd, fSub, fMul, fDiv, fNeg_nan, h']

theorem fAdd_opposite_infinities (x : Bool) :
    fAdd (infinityOf x) (infinityOf !x) = .anyNaN := by
  simp [fAdd]

theorem fSub_same_infinity (x : Bool) : fSub (infinityOf x) (infinityOf x) = .anyNaN := by
  rw [fSub, fNeg_infinityOf, fAdd_opposite_infinities]

theorem fMul_infinity_zero (x y : Bool) : fMul (infinityOf x) (zeroOf y) = .anyNaN ∧
    fMul (zeroOf x) (infinityOf y) = .anyNaN := by
  simp [fMul]

theorem fDiv_infinities (x y : Bool) : fDiv (infinityOf x) (infinityOf y) = .anyNaN := by
  simp [fDiv]

theorem fDiv_zeros (x y : Bool) : fDiv (zeroOf x) (zeroOf y) = .anyNaN := by
  simp [fDiv]

/-! ### Infinities and zero divisors (R252) -/

/-- An infinity absorbs what does not cancel it: a finite pattern, or the same infinity. -/
theorem fAdd_infinity_left {x : Bool} {b : Double} (h : fIsFinite b = true ∨ b = infinityOf x) :
    fAdd (infinityOf x) b = .value (infinityOf x) := by
  obtain hb | rfl := h
  · simp [fAdd, fIsNaN_of_isFinite hb, fIsInf_of_isFinite hb]
  · simp [fAdd]

theorem fAdd_infinity_right {a : Double} (ha : fIsFinite a = true) (x : Bool) :
    fAdd a (infinityOf x) = .value (infinityOf x) := by
  simp [fAdd, fIsNaN_of_isFinite ha, fIsInf_of_isFinite ha]

theorem fSub_infinity_left {x : Bool} {b : Double} (h : fIsFinite b = true ∨ b = infinityOf !x) :
    fSub (infinityOf x) b = .value (infinityOf x) := by
  refine fAdd_infinity_left (h.imp (fNeg_fin b).trans ?_)
  rintro rfl
  rw [fNeg_infinityOf, Bool.not_not]

theorem fSub_infinity_right {a : Double} (ha : fIsFinite a = true) (x : Bool) :
    fSub a (infinityOf x) = .value (infinityOf !x) := by
  rw [fSub, fNeg_infinityOf, fAdd_infinity_right ha]

theorem fMul_infinity {a b : Double} (hn : fIsNaN a = false ∧ fIsNaN b = false)
    (hi : fIsInf a = true ∨ fIsInf b = true) (ha : fMagBits a ≠ 0) (hb : fMagBits b ≠ 0) :
    fMul a b = .value (infinityOf (fSign a != fSign b)) := by
  obtain ⟨hna, hnb⟩ := hn
  have hi' : (fIsInf a || fIsInf b) = true := (Bool.or_eq_true _ _).mpr hi
  simp [fMul, hna, hnb, hi', fMag_eq_zero_iff, ha, hb, infinityOf_eq_fPack]

theorem fDiv_infinity_left {b : Double} (hb : fIsFinite b = true) (x : Bool) :
    fDiv (infinityOf x) b = .value (infinityOf (x != fSign b)) := by
  simp [fDiv, fIsNaN_of_isFinite hb, fIsInf_of_isFinite hb, ← infinityOf_eq_fPack]

theorem fDiv_infinity_right {a : Double} (ha : fIsFinite a = true) (x : Bool) :
    fDiv a (infinityOf x) = .value (zeroOf (fSign a != x)) := by
  simp [fDiv, fIsNaN_of_isFinite ha, fIsInf_of_isFinite ha, ← zeroOf_eq_fPack]

theorem fDiv_zero {a : Double} (ha : fIsFinite a = true) (h0 : fMagBits a ≠ 0) (x : Bool) :
    fDiv a (zeroOf x) = .value (infinityOf (fSign a != fSign (zeroOf x))) := by
  simp [fDiv, fIsNaN_of_isFinite ha, fIsInf_of_isFinite ha, fMag_eq_zero_iff a, h0,
    ← infinityOf_eq_fPack]

/-! ### The instructions (R254 to R257) -/

section
variable {i : Instr} {s : State} {fd fs ft : Slot} {op : Double → Double → FResult}
  (hd : fd ≠ 31) (hs : fs ≠ 31) (ht : ft ≠ 31) (he : exec i s = arith op fd fs ft s)
include hd hs ht he

theorem exec_of_arith :
    exec i s = .next (s.writeResult fd (op (s.readPair fs) (s.readPair ft))) := by
  rw [he, arith, withPair_of_ne hs, withPair_of_ne ht, withPair_of_ne hd]

theorem setsDouble_of_value {p : Double → Prop}
    (hr : ∃ v, op (s.readPair fs) (s.readPair ft) = .value v ∧ p v) : SetsDouble i s fd p := by
  obtain ⟨v, hv, hp⟩ := hr
  have h := exec_of_arith hd hs ht he
  rw [hv] at h
  exact setsDouble_of_writePair hd h hp

theorem setsDouble_of_anyNaN (hr : op (s.readPair fs) (s.readPair ft) = .anyNaN) :
    SetsDouble i s fd (fun r => fIsNaN r = true) 1 := by
  have h := exec_of_arith hd hs ht he
  rw [hr] at h
  refine ⟨_, h, ?_, (keeps_writePair s fd _).trans (keeps_draw _)⟩
  have hp := State.readPair_writePair_same s (decide_eq_true hd)
    (nanOf (Config.anyNaNBits s.draws))
  exact (congrArg fIsNaN hp).trans (fIsNaN_nanOf _)

end

/-! ### The obligations -/

/-- Settles O49, by the exact sum rounded once; `sub.d` adds the negated operand. -/
theorem doubleAddAndSubtractRoundToNearestEven :
    Obligations.DoubleAddAndSubtractRoundToNearestEven := fun _ _ _ _ hd hs ht ha hb =>
  ⟨setsDouble_of_value hd hs ht rfl (fAdd_rounded ha hb),
    setsDouble_of_value hd hs ht rfl (fSub_rounded ha hb)⟩

/-- Settles O50, by the exact product or quotient rounded once. -/
theorem doubleMultiplyAndDivideRoundToNearestEven :
    Obligations.DoubleMultiplyAndDivideRoundToNearestEven := fun _ _ _ _ hd hs ht ha hb =>
  ⟨setsDouble_of_value hd hs ht rfl (fMul_rounded ha hb),
    fun h0 => setsDouble_of_value hd hs ht rfl (fDiv_rounded ha hb h0)⟩

/-- Settles O51: each operation answers `anyNaN`, and a drawn NaN is a NaN. -/
theorem doubleArithmeticOnNaNsGivesSomeNaN : Obligations.DoubleArithmeticOnNaNsGivesSomeNaN := by
  intro fd fs ft s hd hs ht a b nan
  have drawn {i : Instr} {op : Double → Double → FResult} (he : exec i s = arith op fd fs ft s)
      (hr : op a b = .anyNaN) : SetsDouble i s fd nan 1 := setsDouble_of_anyNaN hd hs ht he hr
  clear_value a b
  refine ⟨fun h => ?_, ?_, ?_, ?_, ?_⟩
  · obtain ⟨hadd, hsub, hmul, hdiv⟩ := arithmetic_of_isNaN h
    exact ⟨drawn rfl hadd, drawn rfl hsub, drawn rfl hmul, drawn rfl hdiv⟩
  · rintro x rfl rfl
    exact drawn rfl (fAdd_opposite_infinities x)
  · rintro x rfl rfl
    exact drawn rfl (fSub_same_infinity x)
  · rintro x y (⟨rfl, rfl⟩ | ⟨rfl, rfl⟩)
    · exact drawn rfl (fMul_infinity_zero x y).1
    · exact drawn rfl (fMul_infinity_zero x y).2
  · rintro x y (⟨rfl, rfl⟩ | ⟨rfl, rfl⟩)
    · exact drawn rfl (fDiv_infinities x y)
    · exact drawn rfl (fDiv_zeros x y)

/-- Settles O52, by the value of each operation on an infinity or a zero divisor. -/
theorem doubleArithmeticWithInfinitiesAndZeroDivisors :
    Obligations.DoubleArithmeticWithInfinitiesAndZeroDivisors := by
  intro fd fs ft s hd hs ht a b
  have gives {i : Instr} {op : Double → Double → FResult} {v : Double}
      (he : exec i s = arith op fd fs ft s) (hr : op a b = .value v) :
      SetsDouble i s fd (· = v) := setsDouble_of_value hd hs ht he ⟨v, hr, rfl⟩
  clear_value a b
  refine ⟨?_, ?_, ?_, ?_, ?_, ?_, ?_⟩
  · rintro x rfl hb
    exact gives rfl (fAdd_infinity_left hb)
  · rintro x rfl ha
    exact ⟨gives rfl (fAdd_infinity_right ha x), gives rfl (fSub_infinity_right ha x)⟩
  · rintro x rfl hb
    exact gives rfl (fSub_infinity_left hb)
  · rintro x (⟨rfl, hn⟩ | ⟨rfl, hn⟩) ha hb
    · exact gives rfl (fMul_infinity ⟨fIsNaN_infinityOf x, hn⟩ (.inl (fIsInf_infinityOf x)) ha hb)
    · exact gives rfl (fMul_infinity ⟨hn, fIsNaN_infinityOf x⟩ (.inr (fIsInf_infinityOf x)) ha hb)
  · rintro x rfl hb
    rw [fSign_infinityOf]
    exact gives rfl (fDiv_infinity_left hb x)
  · rintro x rfl ha
    rw [fSign_infinityOf]
    exact gives rfl (fDiv_infinity_right ha x)
  · rintro x rfl ha h0
    exact gives rfl (fDiv_zero ha h0 x)

end Sys2Proof.Machine
end

section
/-! SUPPORT and proof for O54 and O55: conversions between 32-bit integers and doubles
(spec/44_fp_coprocessor.md R260, R261). A magnitude whose value is the exact result is its rounding,
so the conversion of an integer is exact. -/

namespace Sys2Proof.Machine

/-! ### Rounding of exact values -/

theorem magDistance_self (mag : Nat) : magDistance (magValue mag) 1 mag = 0 := by
  simp [magDistance]

/-- The value of a magnitude rounds to that magnitude: it is at distance 0, and values are
distinct. -/
theorem roundMag_magValue {mag : Nat} (h : mag ≤ infMag) : roundMag (magValue mag) 1 = mag := by
  obtain ⟨_, hle, _⟩ := roundMag_nearest (magValue mag) 1 one_pos
  have h0 := Nat.le_zero.1 ((hle mag h).trans_eq (magDistance_self mag))
  apply magValue_strictMono.injective
  rw [magDistance] at h0
  omega

/-- An integer below 2^53 is the value of a finite magnitude: shifted up to 53 bits it is the
significand. -/
theorem exists_magValue_eq_mul_unitsPerOne {n : Nat} (hn : n < 2 ^ 53) :
    ∃ mag < infMag, magValue mag = n * unitsPerOne := by
  obtain rfl | h0 := Nat.eq_zero_or_pos n
  · exact ⟨0, by decide, (Nat.zero_mul _).symm⟩
  have he : n.log2 < 53 := (Nat.log2_lt h0.ne').2 hn
  have hlow : 2 ^ 52 ≤ n * 2 ^ (52 - n.log2) := by
    calc 2 ^ 52 = 2 ^ n.log2 * 2 ^ (52 - n.log2) := by rw [← pow_add]; congr 1; omega
      _ ≤ _ := Nat.mul_le_mul_right _ (Nat.log2_self_le h0.ne')
  have hup : n * 2 ^ (52 - n.log2) < 2 ^ 53 := by
    calc n * 2 ^ (52 - n.log2) < 2 ^ (n.log2 + 1) * 2 ^ (52 - n.log2) :=
          Nat.mul_lt_mul_of_pos_right Nat.lt_log2_self (Nat.two_pow_pos _)
      _ = 2 ^ 53 := by rw [← pow_add]; congr 1; omega
  refine ⟨(1022 + n.log2) * 2 ^ 52 + n * 2 ^ (52 - n.log2), ?_, ?_⟩
  · rw [infMag]
    omega
  · rw [magValue_bits _ _ (.inr hlow) hup.le, Nat.mul_assoc, ← pow_add, unitsPerOne]
    congr 2
    omega

/-! ### Integer to double (R260) -/

theorem natAbs_toInt_lt (w : Word) : w.toInt.natAbs < 2 ^ 53 := by
  have hl := w.le_toInt
  have hu := w.toInt_lt
  omega

/-- The conversion packs the magnitude of exactly the integer's value. -/
theorem fOfInt32_exact (w : Word) : ∃ mag < infMag, magValue mag = w.toInt.natAbs * unitsPerOne ∧
    fOfInt32 w = fPack (decide (w.toInt < 0)) mag := by
  obtain ⟨mag, hlt, hv⟩ := exists_magValue_eq_mul_unitsPerOne (natAbs_toInt_lt w)
  exact ⟨mag, hlt, hv, by rw [fOfInt32, ← hv, roundMag_magValue hlt.le]⟩

theorem fIsFinite_fOfInt32 (w : Word) : fIsFinite (fOfInt32 w) = true := by
  obtain ⟨mag, hlt, _, he⟩ := fOfInt32_exact w
  rwa [he, fIsFinite_iff_magBits_lt, fMagBits_fPack _ _ (hlt.trans (by decide))]

theorem fValue_fOfInt32 (w : Word) : fValue (fOfInt32 w) = w.toInt * unitsPerOne := by
  obtain ⟨mag, hlt, hv, he⟩ := fOfInt32_exact w
  have h63 : mag < 2 ^ 63 := hlt.trans (by decide)
  rw [he, fValue, fMag_eq_magValue, fSign_fPack _ _ h63, fMagBits_fPack _ _ h63, hv]
  generalize unitsPerOne = u
  obtain hneg | hpos := lt_or_ge w.toInt 0
  · rw [decide_eq_true hneg, if_pos rfl, Nat.cast_mul, Int.ofNat_natAbs_of_nonpos hneg.le,
      Int.neg_mul, Int.neg_neg]
  · rw [decide_eq_false (not_lt.2 hpos), if_neg Bool.false_ne_true, Nat.cast_mul,
      Int.natAbs_of_nonneg hpos]

theorem fOfInt32_zero : fOfInt32 0#32 = 0#64 := by
  rw [fOfInt32, BitVec.toInt_zero, Int.natAbs_zero, Nat.zero_mul]
  decide

/-! ### Double to integer (R261) -/

theorem fTruncInt32_of_fits {v : Double} (hf : fIsFinite v = true)
    (hl : -(2 ^ 31) ≤ (fValue v).tdiv unitsPerOne) (hu : (fValue v).tdiv unitsPerOne ≤ 2 ^ 31 - 1) :
    fTruncInt32 v = some (BitVec.ofInt 32 ((fValue v).tdiv unitsPerOne)) := by
  simp only [fTruncInt32, fIsNaN_of_isFinite hf, fIsInf_of_isFinite hf, Bool.or_self,
    Bool.false_eq_true, if_false]
  exact if_neg (by omega)

theorem fTruncInt32_of_not_fits {v : Double}
    (h : ¬(fIsFinite v = true ∧ -(2 ^ 31) ≤ (fValue v).tdiv unitsPerOne ∧
      (fValue v).tdiv unitsPerOne ≤ 2 ^ 31 - 1)) : fTruncInt32 v = none := by
  rw [fIsFinite_iff] at h
  simp only [fTruncInt32]
  split
  · rfl
  · next hn =>
    rw [Bool.not_eq_true, Bool.or_eq_false_iff] at hn
    have hr := not_and.1 h hn
    exact if_pos (by omega)

section
variable {s : State} {fs : Slot} (fd : Slot) (hs : fs ≠ 31)
include hs

theorem exec_truncWD_of_some {w : Word} (h : fTruncInt32 (s.readPair fs) = some w) :
    exec (.truncWD fd fs) s = .next (s.writeSlot fd w) :=
  (withPair_of_ne hs _).trans (by rw [h])

theorem exec_truncWD_of_none (h : fTruncInt32 (s.readPair fs) = none) :
    exec (.truncWD fd fs) s = .next (s.writeSlot fd (Config.any32 s.draws)).draw :=
  (withPair_of_ne hs _).trans (by rw [h])

end

/-! ### The obligations -/

/-- Settles O54: the conversion rounds a value that a double has. -/
theorem integerToDoubleIsExact : Obligations.IntegerToDoubleIsExact := fun _ fs s hd =>
  setsDouble_of_writePair hd (withPair_of_ne hd _)
    ⟨fIsFinite_fOfInt32 _, fValue_fOfInt32 _, fun h0 => by rw [h0, fOfInt32_zero]⟩

/-- Settles O55, by the two answers of `fTruncInt32`. -/
theorem truncateRoundsTowardZeroOrDraws : Obligations.TruncateRoundsTowardZeroOrDraws := by
  intro fd fs s hs v x
  refine ⟨fun ⟨hf, hl, hu⟩ => ?_, fun h => ?_⟩
  · refine ⟨_, exec_truncWD_of_some fd hs (fTruncInt32_of_fits hf hl hu), ?_,
      keeps_writeSlot s fd _⟩
    rw [readSlot_writeSlot_same]
    exact BitVec.toInt_ofInt_eq_self (by decide) hl (Int.lt_of_le_sub_one hu)
  · exact ⟨_, exec_truncWD_of_none fd hs (fTruncInt32_of_not_fits h),
      readSlot_writeSlot_same s fd _, (keeps_writeSlot s fd _).trans (keeps_draw _)⟩

end Sys2Proof.Machine
end

section
/-! SUPPORT and proof for O56: the compares order patterns by value, and an infinity's value lies
beyond that of every other pattern that is no NaN (spec/44_fp_coprocessor.md R262 to R264). -/

namespace Sys2Proof.Machine

/-! ### Order of values -/

theorem fMagBits_le_infMag {v : Double} (hn : fIsNaN v = false) : fMagBits v ≤ infMag := by
  have he := fExp_lt v
  have hf := fFrac_lt v
  have h : fExp v = 2047 → fFrac v = 0 := by simpa [fIsNaN] using hn
  rw [fMagBits_split, infMag]
  omega

theorem fMag_infinityOf (x : Bool) : fMag (infinityOf x) = magValue infMag := by
  rw [infinityOf_eq_fPack, fMag_eq_magValue, fMagBits_fPack x infMag (by decide)]

theorem fMag_le_of_not_nan {v : Double} (hn : fIsNaN v = false) : fMag v ≤ magValue infMag := by
  rw [fMag_eq_magValue]
  exact magValue_strictMono.monotone (fMagBits_le_infMag hn)

/-- Only an infinity has the magnitude of an infinity. -/
theorem fMag_eq_magValue_infMag_iff (v : Double) :
    fMag v = magValue infMag ↔ v = infinityOf (fSign v) := by
  refine ⟨fun h => ?_, fun h => by rw [h, fMag_infinityOf]⟩
  have hb : fMagBits v = infMag := magValue_strictMono.injective (by rwa [← fMag_eq_magValue])
  rw [infinityOf_eq_fPack]
  exact double_ext (fSign_fPack _ _ (by decide)).symm (by rw [hb, fMagBits_fPack _ _ (by decide)])

theorem fNeg_fNeg (v : Double) : fNeg (fNeg v) = v := by
  rw [fNeg, fNeg, BitVec.xor_assoc, BitVec.xor_self, BitVec.xor_zero]

section
variable {v : Double} (hn : fIsNaN v = false)
include hn

theorem fValue_lt_posInfinity_iff :
    fValue v < fValue (infinityOf false) ↔ v ≠ infinityOf false := by
  refine ⟨fun h e => h.ne (congrArg fValue e), fun hne => ?_⟩
  have hle := fMag_le_of_not_nan hn
  have hpos : magValue 0 < magValue infMag := magValue_strictMono (by decide)
  have hmag := mt (fMag_eq_magValue_infMag_iff v).1
  simp only [fValue, fMag_infinityOf, fSign_infinityOf, Bool.false_eq_true, if_false]
  generalize magValue infMag = m at *
  cases hs : fSign v with
  | true => rw [if_pos rfl]; omega
  | false =>
    rw [hs] at hmag
    have := hmag hne
    rw [if_neg Bool.false_ne_true]
    omega

/-- The mirror image, by negation. -/
theorem negInfinity_lt_fValue_iff :
    fValue (infinityOf true) < fValue v ↔ v ≠ infinityOf true := by
  have h := fValue_lt_posInfinity_iff ((fNeg_nan v).trans hn)
  have hf : infinityOf false = fNeg (infinityOf true) := (fNeg_infinityOf true).symm
  rw [hf, fNeg_value, fNeg_value, neg_lt_neg_iff] at h
  exact h.trans (not_congr ⟨fun e => by rw [← fNeg_fNeg v, e, fNeg_fNeg], congrArg fNeg⟩)

theorem fValue_le_posInfinity : fValue v ≤ fValue (infinityOf false) := by
  by_cases h : v = infinityOf false
  · rw [h]
  · exact ((fValue_lt_posInfinity_iff hn).2 h).le

theorem negInfinity_le_fValue : fValue (infinityOf true) ≤ fValue v := by
  by_cases h : v = infinityOf true
  · rw [h]
  · exact ((negInfinity_lt_fValue_iff hn).2 h).le

theorem fValue_eq_infinityOf_iff (x : Bool) :
    fValue v = fValue (infinityOf x) ↔ v = infinityOf x := by
  refine ⟨fun h => by_contra fun hne => ?_, congrArg fValue⟩
  cases x with
  | false => exact ((fValue_lt_posInfinity_iff hn).2 hne).ne h
  | true => exact ((negInfinity_lt_fValue_iff hn).2 hne).ne' h

/-- What is neither a NaN nor finite is an infinity. -/
theorem exists_eq_infinityOf (hf : fIsFinite v = false) : ∃ x, v = infinityOf x := by
  refine ⟨_, eq_infinityOf_of_isInf (by_contra fun hi => ?_)⟩
  rw [(fIsFinite_iff v).2 ⟨hn, Bool.eq_false_iff.2 hi⟩] at hf
  exact absurd hf (by decide)

end

/-! ### Compares with an infinity -/

section
variable {a b : Double} (ha : fIsNaN a = false) (hb : fIsNaN b = false)
  (hinf : fIsFinite a = false ∨ fIsFinite b = false)
include ha hb hinf

theorem fValue_eq_iff_of_infinite : fValue a = fValue b ↔ a = b := by
  obtain h | h := hinf
  · obtain ⟨x, rfl⟩ := exists_eq_infinityOf ha h
    rw [eq_comm, fValue_eq_infinityOf_iff hb, eq_comm]
  · obtain ⟨x, rfl⟩ := exists_eq_infinityOf hb h
    exact fValue_eq_infinityOf_iff ha x

theorem fValue_lt_iff_of_infinite : fValue a < fValue b ↔
    a = infinityOf true ∧ b ≠ infinityOf true ∨ b = infinityOf false ∧ a ≠ infinityOf false := by
  have hne : infinityOf true ≠ infinityOf false := by decide
  obtain h | h := hinf
  · obtain ⟨x, rfl⟩ := exists_eq_infinityOf ha h
    cases x with
    | true =>
      rw [negInfinity_lt_fValue_iff hb]
      refine ⟨fun h => .inl ⟨rfl, h⟩, ?_⟩
      rintro (⟨_, h⟩ | ⟨rfl, _⟩)
      · exact h
      · exact hne.symm
    | false => exact iff_of_false (fValue_le_posInfinity hb).not_gt (by simp [hne.symm])
  · obtain ⟨x, rfl⟩ := exists_eq_infinityOf hb h
    cases x with
    | true => exact iff_of_false (negInfinity_le_fValue ha).not_gt (by simp [hne])
    | false =>
      rw [fValue_lt_posInfinity_iff ha]
      refine ⟨fun h => .inr ⟨rfl, h⟩, ?_⟩
      rintro (⟨rfl, _⟩ | ⟨_, h⟩)
      · exact hne
      · exact h

end

/-! ### The instructions -/

theorem keeps_writeCc (s : State) (c : Bool) :
    Footprint.Keeps { cc := true } s (s.writeCc c) := by
  constructor <;> simp

theorem setsCc_of_compareD {i : Instr} {s : State} {fs ft : Slot} {c : Bool}
    {cond : Double → Double → Bool} (hs : fs ≠ 31) (ht : ft ≠ 31)
    (he : exec i s = compareD cond fs ft s) (hc : cond (s.readPair fs) (s.readPair ft) = c) :
    SetsCc i s c :=
  ⟨_, he.trans (withPairs_of_ne hs ht _), hc, keeps_writeCc s _⟩

/-- A NaN makes a pair of operands unordered. -/
theorem compares_of_isNaN {a b : Double} (h : fIsNaN a = true ∨ fIsNaN b = true) :
    condEq a b = false ∧ condOlt a b = false ∧ condUn a b = true := by
  have h' : (fIsNaN a || fIsNaN b) = true := (Bool.or_eq_true _ _).mpr h
  simp [condEq, condOlt, condUn, h']

/-- Without a NaN the compares are those of the values. -/
theorem compares_of_not_nan {a b : Double} (ha : fIsNaN a = false) (hb : fIsNaN b = false) :
    condEq a b = decide (fValue a = fValue b) ∧ condOlt a b = decide (fValue a < fValue b) ∧
      condUn a b = false := by
  simp [condEq, condOlt, condUn, ha, hb]

/-! ### The obligation -/

/-- Settles O56, by the order of values, infinities at its ends. -/
theorem comparesOrderDoublesAndSeeNaNs : Obligations.ComparesOrderDoublesAndSeeNaNs := by
  intro fs ft s hs ht a b
  refine ⟨fun h => ?_, fun ha hb => ?_⟩
  · obtain ⟨heq, holt, hun⟩ := compares_of_isNaN h
    exact ⟨setsCc_of_compareD hs ht rfl heq, setsCc_of_compareD hs ht rfl holt,
      setsCc_of_compareD hs ht rfl hun⟩
  · obtain ⟨heq, holt, hun⟩ := compares_of_not_nan ha hb
    refine ⟨setsCc_of_compareD hs ht rfl hun, fun _ _ => ?_, fun hinf => ?_⟩
    · exact ⟨setsCc_of_compareD hs ht rfl heq, setsCc_of_compareD hs ht rfl holt⟩
    · exact ⟨setsCc_of_compareD hs ht rfl
          (heq.trans (decide_eq_decide.2 (fValue_eq_iff_of_infinite ha hb hinf))),
        setsCc_of_compareD hs ht rfl
          (holt.trans (decide_eq_decide.2 (fValue_lt_iff_of_infinite ha hb hinf)))⟩

end Sys2Proof.Machine
end

section
/-! SUPPORT and proof for O7, O59 and O60: what `syscall` does with each reply of the bridge, and the
faults of `teq`, `break` and a reserved word (spec/45_trap_syscall.md R280 to R284). -/

namespace Sys2Proof.Machine

/-! ### Byte stores one after the other -/

/-- After byte stores an address holds the last byte stored there, or what it held before. -/
theorem readByte_storeBytes_getLast {s : State} (hwf : s.mem.wf = true) (ws : List (Word × Byte))
    (a : Word) : (s.storeBytes ws).readByte a =
      (((ws.filter (fun p => p.1 == a)).getLast?).map Prod.snd).getD (s.readByte a) := by
  induction ws generalizing s with
  | nil => rfl
  | cons w ws ih =>
    obtain ⟨c, b⟩ := w
    rw [State.storeBytes_cons, ih (writeByte_mem_wf hwf c b), readByte_writeByte hwf]
    by_cases h : c = a
    · cases hl : (ws.filter (fun p => p.1 == a)).getLast? <;> simp [h, hl, List.getLast?_cons]
    · simp [h, Ne.symm h]

/-- The bridge's writes, of which those outside MEM_MAP are dropped (log entry 9). -/
theorem readByte_bridgeWrites {s : State} (hwf : s.mem.wf = true) (ws : List (Word × Byte))
    (a : Word) : (s.bridgeWrites ws).readByte a =
      (((ws.filter (fun p => p.1 == a && s.mapped a)).getLast?).map Prod.snd).getD
        (s.readByte a) := by
  have hf : ∀ p ∈ ws, (p.1 == a && s.mapped p.1) = (p.1 == a && s.mapped a) := by
    intro p _
    by_cases h : p.1 = a
    · rw [h]
    · rw [beq_false_of_ne h]
      rfl
  rw [bridgeWrites_eq_storeBytes, readByte_storeBytes_getLast hwf, List.filter_filter,
    List.filter_congr hf]

theorem keeps_bridgeWrites (s : State) (ws : List (Word × Byte)) :
    Footprint.Keeps { bytes := (ws.filter (fun p => s.mapped p.1)).map Prod.fst } s
      (s.bridgeWrites ws) := by
  rw [bridgeWrites_eq_storeBytes]
  exact keeps_storeBytes s _

/-! ### The reply in the registers (R280) -/

/-- The state after the core has written a reply, result `v` and error flag `e`, to the registers. -/
def State.replied (s : State) (v e : Word) : State :=
  ((s.writeGpr Config.sysNumReg v).writeGpr Config.sysErrReg e).draw

section
variable (s : State) (v e : Word)

theorem readGpr_two_replied : (s.replied v e).readGpr 2 = v := by
  have h2 : (2 : Reg) ≠ 0 := by decide
  have h7 : (2 : Reg) ≠ 7 := by decide
  exact (State.readGpr_writeGpr_other _ h7 e).trans (s.readGpr_writeGpr_same h2 v)

theorem readGpr_seven_replied : (s.replied v e).readGpr 7 = e :=
  State.readGpr_writeGpr_same (r := 7) _ (by decide) e

theorem readByte_replied (a : Word) : (s.replied v e).readByte a = s.readByte a := by
  simp [State.replied]

theorem keeps_replied : Footprint.Keeps { regs := [2, 7], draws := 1 } s (s.replied v e) :=
  ((keeps_writeGpr s 2 v).trans (keeps_writeGpr _ 7 e)).trans (keeps_draw _)

end

theorem exec_syscall (code : BitVec 20) (s : State) : exec (.syscall code) s =
    .next (s.serveReply (s.bridgeReply (s.syscallNumber code))).draw := rfl

section
variable {s : State} {code : BitVec 20}

theorem exec_syscall_of_fail (h : s.bridgeReply (s.syscallNumber code) = .fail) :
    exec (.syscall code) s = .next (s.replied Config.sysFail 1#32) := by
  rw [exec_syscall, h]
  rfl

theorem exec_syscall_of_ok {v : Word} {ws : List (Word × Byte)}
    (h : s.bridgeReply (s.syscallNumber code) = .ok v ws) :
    exec (.syscall code) s = .next ((s.bridgeWrites ws).replied v 0#32) := by
  rw [exec_syscall, h]
  rfl

theorem exec_syscall_of_halt (h : s.bridgeReply (s.syscallNumber code) = .halt) :
    exec (.syscall code) s = .next { s with halted := true, draws := s.draws + 1 } := by
  rw [exec_syscall, h]
  rfl

end

/-! ### Traps (R282) -/

section
variable {rs rt : Reg} {s : State} (c : BitVec 10)

theorem faults_teq_of_eq (h : s.readGpr rs = s.readGpr rt) : Faults (.teq rs rt c) s .trapEqual :=
  ((execTeq_cases rs rt c s).resolve_right fun h' => h'.1 h).2

theorem changesNothing_teq_of_ne (h : s.readGpr rs ≠ s.readGpr rt) :
    ChangesNothing (.teq rs rt c) s :=
  ((execTeq_cases rs rt c s).resolve_left fun h' => h h'.1).2

end

/-! ### The obligations -/

/-- Settles O59, a lemma per reply; on Ok the bridge's writes come before the registers'. -/
theorem syscallRegisterProtocol : Obligations.SyscallRegisterProtocol := by
  refine fun code s => ⟨fun h => ?_, fun v ws h hwf => ?_, exec_syscall_of_halt⟩
  · exact ⟨_, exec_syscall_of_fail h, readGpr_two_replied s _ _, readGpr_seven_replied s _ _,
      keeps_replied s _ _⟩
  · have hk := (keeps_bridgeWrites s ws).trans (keeps_replied _ v 0#32)
    exact ⟨_, exec_syscall_of_ok h, readGpr_two_replied _ _ _, readGpr_seven_replied _ _ _,
      fun a => (readByte_replied _ _ _ a).trans (readByte_bridgeWrites hwf ws a),
      by simpa using hk⟩

/-- Settles O7: the last branch of a step, which raises the fault after the generic step. -/
theorem reservedWordFaultsAfterTheGenericStep :
    Obligations.ReservedWordFaultsAfterTheGenericStep :=
  fun _ _ => step_of_reserved

/-- Settles O60: the two cases of `teq`; `break` is the fault itself. -/
theorem trapIfEqualAndBreak : Obligations.TrapIfEqualAndBreak :=
  fun _ _ c _ s => ⟨changesNothing_teq_of_ne c, faults_teq_of_eq c, raise_eq .brk s⟩

end Sys2Proof.Machine
end

section
/-! SUPPORT and proof for O21: a behaviour changes the outcome only by raising a fault
(spec/60_exceptions.md R301). -/

namespace Sys2Proof.Machine

@[simp] theorem State.storeBytes_outcome (s : State) (ws : List (Word × Byte)) :
    (s.storeBytes ws).outcome = s.outcome := by
  rw [storeBytes_eq]

/-- A behaviour keeps the outcome, or raises a reason that is one of the instruction's and changes
nothing else. -/
theorem exec_outcome_cases {i : Instr} {s t : State} (h : exec i s = .next t) :
    t.outcome = s.outcome ∨
      ∃ r, t = { s with halted := true, outcome := .fault r } ∧ i.mayRaise r = true ∧
        (r = .reservedInstruction → 31 ∈ i.pairs) := by
  cases exec_forms h with
  | raised r hr hp => exact .inr ⟨r, rfl, hr, hp⟩
  | _ => exact .inl (by simp)

/-- Settles O21: a fault outcome is not the one at the start, so the behaviour raised it. -/
theorem faultWritesNothingAndHasItsReasons : Obligations.FaultWritesNothingAndHasItsReasons := by
  intro i s t r hs h ht
  obtain hk | ⟨r', rfl, hraise⟩ := exec_outcome_cases h
  · cases ht.symm.trans (hk.trans hs)
  · cases ht
    exact ⟨rfl, hraise⟩

end Sys2Proof.Machine
end

section
/-! SUPPORT and proof for O11: a word that the loader places at `pc` is the word the next fetch
reads, from memory and from the launch image alike (spec/70_reset_and_hazards.md R325,
20_memory.md R67). -/

namespace Sys2Proof.Machine

/-! ### The word placed -/

/-- A 32-bit word given as a number is that word. -/
@[simp] theorem tableWord_toNat (w : Word) : tableWord 32 w.toNat = w := by
  rw [tableWord, Nat.mod_eq_of_lt w.isLt, BitVec.ofNat_toNat, BitVec.setWidth_eq]

/-- The loader's bytes of a word land in memory as a word store's do. -/
theorem writeBytes_bytesOfWord (s : State) (a v : Word) :
    s.mem.writeBytes a (bytesOfWord v) = (s.writeWord a v).mem := by
  simp [bytesOfWord, Memory.writeBytes, State.writeWord, BitVec.add_assoc]

theorem readWord_writeBytes {s : State} (hwf : s.mem.wf = true) (a v : Word) :
    State.readWord { s with mem := s.mem.writeBytes a (bytesOfWord v) } a = v := by
  rw [writeBytes_bytesOfWord]
  exact readWord_writeWord hwf a v

/-! ### What the loader leaves behind -/

section
variable {s : State}

/-- The placed addresses are no longer stored ones. -/
theorem not_mem_written_withFetchWord (nbits w : Nat) {b : Word} (hb : b ∈ bytesFrom s.pc 4) :
    b.toNat ∉ (s.withFetchWord nbits w).written := by
  obtain ⟨k, hk, rfl⟩ := List.mem_map.1 hb
  intro hw
  have hnone := (List.mem_filter.1 hw).2
  rw [Bool.not_eq_true', List.any_eq_false] at hnone
  exact hnone k hk (beq_self_eq_true _)

theorem readWord_withFetchWord (hwf : s.mem.wf = true) (w : Word) :
    (s.withFetchWord 32 w.toNat).readWord s.pc = w := by
  rw [State.withFetchWord, tableWord_toNat]
  exact readWord_writeBytes hwf s.pc w

/-- The launch image is a memory too, so it reads back alike. -/
theorem imageWord_withFetchWord (hwf : s.image.wf = true) (w : Word) :
    (s.withFetchWord 32 w.toNat).imageWord s.pc = w := by
  rw [State.withFetchWord, tableWord_toNat]
  exact readWord_writeBytes (s := { s with mem := s.image }) hwf s.pc w

/-- Coherent or not, the fetch reads the placed word. -/
theorem fetchWord_withFetchWord (hm : s.mappedRange s.pc 4 = true) (hmem : s.mem.wf = true)
    (himage : s.image.wf = true) (w : Word) :
    (s.withFetchWord 32 w.toNat).fetchWord s.pc = .next w := by
  have hm' : (s.withFetchWord 32 w.toNat).mappedRange s.pc 4 = true :=
    (mappedRange_congr rfl s.pc 4).trans hm
  cases hc : s.params.ifetchCoherent with
  | true => rw [fetchWord_of_coherent hm' hc, readWord_withFetchWord hmem]
  | false =>
    rw [fetchWord_of_unwritten hm' hc fun _ => not_mem_written_withFetchWord 32 w.toNat,
      imageWord_withFetchWord himage]

end

/-- Settles O11: the fetch reads the placed encoding, which decodes to the instruction. -/
theorem placedWordRunsNext : Obligations.PlacedWordRunsNext :=
  fun _ i hh ha hm hmem himage hwf =>
    step_of_decode hh ha (fetchWord_withFetchWord hm hmem himage (encode i)) (decodeWord_encode hwf)

end Sys2Proof.Machine
end

section
/-! SUPPORT and proof for O15, O16 and O17: the state after reset (spec/70_reset_and_hazards.md
R320 to R323). -/

namespace Sys2Proof.Machine

/-- Every register reads 0 after reset, the hardwired one and the others (R322). -/
@[simp] theorem readGpr_applyReset (s : State) (r : Reg) : s.applyReset.readGpr r = 0#32 := by
  rw [State.readGpr]
  split
  · rfl
  · simp

/-- Reset makes memory the launch image and clears the rest that the invariant speaks of. -/
theorem State.Inv.applyReset {s : State} (hwf : s.mem.wf = true) : s.applyReset.Inv where
  memWf := hwf
  imageWf := hwf
  writtenWf := rfl
  zeroCell := Vector.getElem_replicate _
  unwritten _ _ := rfl
  faultHalts h := absurd s.applyReset_outcome h

/-! ### The obligations -/

/-- Settles O15: the memory of `powerOn` is empty, so canonical. -/
theorem resetSatisfiesTheInvariant : Obligations.ResetSatisfiesTheInvariant :=
  ⟨.applyReset rfl, fun _ => .applyReset⟩

/-- Settles O16: `State.reset` is the reset of one particular state. -/
theorem resetLeavesTheStatedValues : Obligations.ResetLeavesTheStatedValues := by
  have hreset : ∀ s : State, (∀ r, s.applyReset.readGpr r = 0#32) ∧ s.applyReset.hi = 0#32 ∧
      s.applyReset.lo = 0#32 ∧ s.applyReset.npc = s.applyReset.pc + 4#32 := fun s =>
    ⟨readGpr_applyReset s, s.applyReset_hi, s.applyReset_lo, s.applyReset_npc⟩
  exact ⟨fun s => ⟨s.applyReset_gpr, hreset s⟩, hreset State.powerOn⟩

/-- Settles O17: one field of the reset state for each clause. -/
theorem resetSetsEntryAndLeavesSlotsFlagAndMemory :
    Obligations.ResetSetsEntryAndLeavesSlotsFlagAndMemory := fun s =>
  ⟨s.applyReset_pc, s.applyReset_instrCounter, s.applyReset_halted, s.applyReset_fpr,
    s.applyReset_cc, s.applyReset_mem, s.applyReset_params, s.applyReset_image,
    s.applyReset_written⟩

end Sys2Proof.Machine
end
